-- ==== Sys2Proof/Word.lean ====
section
/-! DEFINITION. The word types of the block and their plainest arithmetic: a 32-bit command or response word
(30_encoding.md R81, 20_memory.md R65), a byte, a 24-bit colour (00_scope.md R13), a 12-bit code and an 8-bit palette
index (10_state.md R28, R29). -/

namespace Sys2Proof

/-- A command or response word, transferred whole (20_memory.md R65). -/
abbrev Word := BitVec 32

/-- One packed byte, one beat's data (20_memory.md R68). -/
abbrev Byte := BitVec 8

/-- A colour, R in bits 23:16, G in bits 15:8, B in bits 7:0 (00_scope.md R13). -/
abbrev Colour := BitVec 24

/-- A code of the code table (10_state.md R28, R29). -/
abbrev Code := BitVec 12

/-- A palette index, INDEX_BITS wide (00_scope.md R7). -/
abbrev Index := BitVec 8

/-- A number cut to the 32 bits of a word. -/
abbrev Word.ofNat (n : Nat) : Word := BitVec.ofNat 32 n

/-- `bitlen(v)`: the number of bits needed to write `v` in binary, 0 for 0 (00_scope.md R12). -/
def bitlen (v : Nat) : Nat := if v = 0 then 0 else Nat.log2 v + 1

end Sys2Proof
end

