-- ==== Sys2Proof/Config.lean ====
section
/-! DEFINITION. What an implementation of the block fixes: the fixed parameters of 00_scope.md R7 and the two open
parameters of R8. The spec leaves no value free, so there is no opaque constant here (notes/assumptions/6.md says how the
arrays that reset leaves unspecified are held). -/

namespace Sys2Proof

namespace Config

/-- `MAX_CODE_WIDTH` (00_scope.md R7). -/
abbrev maxCodeWidth : Nat := 12

/-- `TABLE_SIZE`: codes 0..4095 (00_scope.md R7). -/
abbrev tableSize : Nat := 4096

/-- `MAX_BLOCK`: data bytes of a full sub-block (00_scope.md R7). -/
abbrev maxBlock : Nat := 255

/-- `MAX_COLORS`, and the number of buckets (00_scope.md R7). -/
abbrev maxColors : Nat := 256

/-- `MIN_PALETTE` (00_scope.md R7). -/
abbrev minPalette : Nat := 2

/-- The constant that register `ID` reads (10_state.md R41). -/
abbrev idValue : Word := 0x4C5A5131

/-- The failure word (30_encoding.md R86). -/
abbrev failureWord : Word := 0xFFFFFFFF

end Config

/-- The open parameter `LZW_MIN_ROOT`, legal values 1 and 2 (00_scope.md R8). -/
inductive MinRoot where
  | one
  | two
  deriving DecidableEq, Repr

/-- The number that `CAPS[3:0]` shows and the root width uses (10_state.md R43, 41_lzw_encoder.md R140). -/
def MinRoot.toNat : MinRoot → Nat
  | .one => 1
  | .two => 2

/-- The open parameters of one block (00_scope.md R8). No command writes them (42_control.md R193).
`outDepth` is a positive number: the legal values of `OUT_DEPTH` are the integers of at least 1 (00_scope.md R8).
`outDepth = none` is the abstraction of 70_reset_and_hazards.md R250: unbounded streams, no backpressure.
DESIGN CHOICE (notes/assumptions/4.md): the spec gives `OUT_DEPTH` no default; the model's default is `none`. -/
structure Params where
  minRoot  : MinRoot
  outDepth : Option PNat
  deriving DecidableEq, Repr

/-- The default parameters: `LZW_MIN_ROOT = 2` (00_scope.md R8). -/
def Params.default : Params := { minRoot := .two, outDepth := none }

end Sys2Proof
end

