-- ==== Sys2Proof/Syntax.lean ====
section
/-! DEFINITION. The eleven commands of 30_encoding.md R82, one constructor per row of spec/opcode_table.json, with every
operand at the width of its field (R83); and the assembler lines of R89 and pseudo-instructions of R90, whose operands are
numbers that may be out of range. -/

namespace Sys2Proof

/-- A command (30_encoding.md R82). Its operands hold exactly the bits of their fields (R83, R87). -/
inductive Instr where
  /-- `NOP` (42_control.md R190). -/
  | nop
  /-- `LZ_START k`, operand K4 (41_lzw_encoder.md R160). -/
  | lzStart (k : BitVec 4)
  /-- `LZ_INDEX i`, operand I8 (41_lzw_encoder.md R161). -/
  | lzIndex (i : Index)
  /-- `LZ_FINISH` (41_lzw_encoder.md R163). -/
  | lzFinish
  /-- `Q_BEGIN` (40_palette_quantizer.md R106). -/
  | qBegin
  /-- `Q_PIXEL c`, operand RGB (40_palette_quantizer.md R107). -/
  | qPixel (c : Colour)
  /-- `Q_BUILD q`, operand QEN (40_palette_quantizer.md R108). -/
  | qBuild (q : Bool)
  /-- `Q_MAP c`, operand RGB (40_palette_quantizer.md R112). -/
  | qMap (c : Colour)
  /-- `Q_RDPAL i`, operand I8 (40_palette_quantizer.md R114). -/
  | qRdpal (i : Index)
  /-- `RDREG n`, operand REG (42_control.md R191). -/
  | rdreg (n : BitVec 4)
  /-- `CLRERR` (42_control.md R192). -/
  | clrerr
  deriving DecidableEq, Repr

/-- The sixteen registers by name (10_state.md R40). -/
inductive RegName where
  | id | status | caps | lzK | lzRoot | lzWidth | lzNext | lzPrefix
  | lzCount | lzBytes | qNpix | qNdistinct | qNbuckets | qNcolors | qPsize | qGctsz
  deriving DecidableEq, Repr

/-- One line of the assembler syntax of 30_encoding.md R89, its operands as the numbers written there. -/
inductive AsmLine where
  | nop
  | lzStart (k : Nat)
  | lzIndex (i : Nat)
  | lzFinish
  | qBegin
  /-- `Q_PIXEL r, g, b` -/
  | qPixelRgb (r g b : Nat)
  /-- `Q_PIXEL 0xRRGGBB` -/
  | qPixelHex (c : Nat)
  | qBuild (q : Nat)
  /-- `Q_MAP r, g, b` -/
  | qMapRgb (r g b : Nat)
  /-- `Q_MAP 0xRRGGBB` -/
  | qMapHex (c : Nat)
  | qRdpal (i : Nat)
  /-- `RDREG n` -/
  | rdregNum (n : Nat)
  /-- `RDREG NAME` -/
  | rdregName (r : RegName)
  | clrerr
  deriving DecidableEq, Repr

/-- The pseudo-instructions of 30_encoding.md R90. -/
inductive Pseudo where
  /-- `LZ_FRAME k, i1, ..., im` -/
  | lzFrame (k : Nat) (is : List Nat)
  /-- `Q_PIXELS c1, ..., cm` -/
  | qPixels (cs : List Nat)
  /-- `Q_RDPALS P` -/
  | qRdpals (p : Nat)
  /-- `RDSTATUS` -/
  | rdstatus
  deriving DecidableEq, Repr

/-- The line a command is written as (30_encoding.md R89, the first form where there are two). -/
def Instr.toLine : Instr → AsmLine
  | .nop => .nop
  | .lzStart k => .lzStart k.toNat
  | .lzIndex i => .lzIndex i.toNat
  | .lzFinish => .lzFinish
  | .qBegin => .qBegin
  | .qPixel c => .qPixelHex c.toNat
  | .qBuild q => .qBuild q.toNat
  | .qMap c => .qMapHex c.toNat
  | .qRdpal i => .qRdpal i.toNat
  | .rdreg n => .rdregNum n.toNat
  | .clrerr => .clrerr

/-- The expansion of a pseudo-instruction (30_encoding.md R90). -/
def Pseudo.expand : Pseudo → List AsmLine
  | .lzFrame k is => .lzStart k :: (is.map AsmLine.lzIndex ++ [.lzFinish])
  | .qPixels cs => cs.map AsmLine.qPixelHex
  | .qRdpals p => (List.range p).map AsmLine.qRdpal
  | .rdstatus => [.rdregNum 1]

/-- The commands of the LZ unit (30_encoding.md R82). -/
def Instr.isLz : Instr → Bool
  | .lzStart _ => true
  | .lzIndex _ => true
  | .lzFinish => true
  | .nop => false
  | .qBegin => false
  | .qPixel _ => false
  | .qBuild _ => false
  | .qMap _ => false
  | .qRdpal _ => false
  | .rdreg _ => false
  | .clrerr => false

/-- The commands of the PQ unit (30_encoding.md R82). -/
def Instr.isPq : Instr → Bool
  | .qBegin => true
  | .qPixel _ => true
  | .qBuild _ => true
  | .qMap _ => true
  | .qRdpal _ => true
  | .nop => false
  | .lzStart _ => false
  | .lzIndex _ => false
  | .lzFinish => false
  | .rdreg _ => false
  | .clrerr => false

end Sys2Proof
end

