-- ==== Sys2Proof/WellFormed.lean ====
section
/-! DEFINITION. Which terms are well formed. An assembler line is well formed when every operand is in its field's range
(30_encoding.md R83, R89: "An operand out of its field's range (for example LZ_INDEX 256) is an assembly error"). A command
is well formed when the line it is written as is; its operands are typed by their fields, so every command is
(Sys2Proof.Laws.instr_wellFormed). -/

namespace Sys2Proof

/-- Every operand of the line fits its field (30_encoding.md R83, R89). -/
def AsmLine.wellFormed : AsmLine → Bool
  | .nop => true
  | .lzStart k => decide (k < 16)
  | .lzIndex i => decide (i < 256)
  | .lzFinish => true
  | .qBegin => true
  | .qPixelRgb r g b => decide (r < 256) && decide (g < 256) && decide (b < 256)
  | .qPixelHex c => decide (c < 2 ^ 24)
  | .qBuild q => decide (q < 2)
  | .qMapRgb r g b => decide (r < 256) && decide (g < 256) && decide (b < 256)
  | .qMapHex c => decide (c < 2 ^ 24)
  | .qRdpal i => decide (i < 256)
  | .rdregNum n => decide (n < 16)
  | .rdregName _ => true
  | .clrerr => true

/-- A pseudo-instruction is well formed when every line of its expansion is (30_encoding.md R89, R90). -/
def Pseudo.wellFormed (p : Pseudo) : Bool := p.expand.all AsmLine.wellFormed

/-- A command is well formed when the line it is written as is. -/
def Instr.wellFormed (i : Instr) : Bool := i.toLine.wellFormed

end Sys2Proof
end

