-- ==== Sys2Proof/Decode.lean ====
section
/-! DEFINITION. The encoding of 30_encoding.md: the operand fields and masks of R83, the opcode map of R82, the decoder,
total on all 2^32 words (R92), the encoder of R89, and the assembler over it. -/

namespace Sys2Proof

/-- The defined opcodes, 0x0 to 0xA (30_encoding.md R82). -/
inductive Opcode where
  | nop | lzStart | lzIndex | lzFinish | qBegin | qPixel | qBuild | qMap | qRdpal | rdreg | clrerr
  deriving DecidableEq, Repr

/-- The field `OP`, bits 31:28 (30_encoding.md R81). -/
def opField (w : Word) : BitVec 4 := w.extractLsb' 28 4

/-- The operand field `K4`, bits 3:0 (30_encoding.md R83). -/
def fieldK4 (w : Word) : BitVec 4 := w.extractLsb' 0 4

/-- The operand field `I8`, bits 7:0 (30_encoding.md R83). -/
def fieldI8 (w : Word) : Index := w.extractLsb' 0 8

/-- The operand field `RGB`, bits 23:0 (30_encoding.md R83). -/
def fieldRGB (w : Word) : Colour := w.extractLsb' 0 24

/-- The operand field `QEN`, bit 0 (30_encoding.md R83). -/
def fieldQEN (w : Word) : Bool := w.getLsbD 0

/-- The operand field `REG`, bits 3:0 (30_encoding.md R83). -/
def fieldREG (w : Word) : BitVec 4 := w.extractLsb' 0 4

/-- The opcode map; 0xB to 0xF are reserved (30_encoding.md R82, R84). -/
def Opcode.ofField (n : BitVec 4) : Option Opcode :=
  match n.toNat with
  | 0x0 => some .nop
  | 0x1 => some .lzStart
  | 0x2 => some .lzIndex
  | 0x3 => some .lzFinish
  | 0x4 => some .qBegin
  | 0x5 => some .qPixel
  | 0x6 => some .qBuild
  | 0x7 => some .qMap
  | 0x8 => some .qRdpal
  | 0x9 => some .rdreg
  | 0xA => some .clrerr
  | _ => none

/-- `OperandMask(op)`: the operand bits of an opcode (30_encoding.md R83). -/
def Opcode.operandMask : Opcode → Word
  | .lzStart => 0x0000000F
  | .rdreg => 0x0000000F
  | .lzIndex => 0x000000FF
  | .qRdpal => 0x000000FF
  | .qPixel => 0x00FFFFFF
  | .qMap => 0x00FFFFFF
  | .qBuild => 0x00000001
  | .nop => 0
  | .lzFinish => 0
  | .qBegin => 0
  | .clrerr => 0

/-- The response-bearing opcodes (30_encoding.md R82, R86). -/
def Opcode.responds : Opcode → Bool
  | .qBuild => true
  | .qMap => true
  | .qRdpal => true
  | .rdreg => true
  | .nop => false
  | .lzStart => false
  | .lzIndex => false
  | .lzFinish => false
  | .qBegin => false
  | .qPixel => false
  | .clrerr => false

/-- The command of an opcode, its operands taken verbatim from their fields (30_encoding.md R87). -/
def Opcode.instr (op : Opcode) (w : Word) : Instr :=
  match op with
  | .nop => .nop
  | .lzStart => .lzStart (fieldK4 w)
  | .lzIndex => .lzIndex (fieldI8 w)
  | .lzFinish => .lzFinish
  | .qBegin => .qBegin
  | .qPixel => .qPixel (fieldRGB w)
  | .qBuild => .qBuild (fieldQEN w)
  | .qMap => .qMap (fieldRGB w)
  | .qRdpal => .qRdpal (fieldI8 w)
  | .rdreg => .rdreg (fieldREG w)
  | .clrerr => .clrerr

/-- Why a word spells no command. -/
inductive Reject where
  /-- A reserved opcode, 0xB to 0xF (30_encoding.md R84). -/
  | reservedOpcode
  /-- A defined opcode with a reserved operand bit set (30_encoding.md R85). -/
  | reservedBits (op : Opcode)
  deriving DecidableEq, Repr

/-- What a word decodes to (30_encoding.md R92). -/
inductive Decoded where
  | command (i : Instr)
  | reject (r : Reject)
  deriving DecidableEq, Repr

/-- The bits of the operand area that `op` reserves and `w` sets: `cmd[27:0] & ~OperandMask(op)` (30_encoding.md R85). -/
def reservedBits (op : Opcode) (w : Word) : Word := w &&& ~~~op.operandMask &&& 0x0FFFFFFF

/-- The decoder (30_encoding.md R80, R84, R85, R92). -/
def decode (w : Word) : Decoded :=
  match Opcode.ofField (opField w) with
  | none => .reject .reservedOpcode
  | some op => if reservedBits op w = 0 then .command (op.instr w) else .reject (.reservedBits op)

/-- The encoder (the words of 30_encoding.md R89). -/
def encode : Instr → Word
  | .nop => 0x00000000
  | .lzStart k => 0x10000000 ||| k.setWidth 32
  | .lzIndex i => 0x20000000 ||| i.setWidth 32
  | .lzFinish => 0x30000000
  | .qBegin => 0x40000000
  | .qPixel c => 0x50000000 ||| c.setWidth 32
  | .qBuild q => 0x60000000 ||| (BitVec.ofBool q).setWidth 32
  | .qMap c => 0x70000000 ||| c.setWidth 32
  | .qRdpal i => 0x80000000 ||| i.setWidth 32
  | .rdreg n => 0x90000000 ||| n.setWidth 32
  | .clrerr => 0xA0000000

/-- The register of each number; every number 0..15 names one (10_state.md R40). -/
def RegName.ofNumber (n : BitVec 4) : RegName :=
  match n.toNat with
  | 0 => .id
  | 1 => .status
  | 2 => .caps
  | 3 => .lzK
  | 4 => .lzRoot
  | 5 => .lzWidth
  | 6 => .lzNext
  | 7 => .lzPrefix
  | 8 => .lzCount
  | 9 => .lzBytes
  | 10 => .qNpix
  | 11 => .qNdistinct
  | 12 => .qNbuckets
  | 13 => .qNcolors
  | 14 => .qPsize
  | _ => .qGctsz

/-- The number of each register (10_state.md R40). -/
def RegName.number : RegName → BitVec 4
  | .id => 0
  | .status => 1
  | .caps => 2
  | .lzK => 3
  | .lzRoot => 4
  | .lzWidth => 5
  | .lzNext => 6
  | .lzPrefix => 7
  | .lzCount => 8
  | .lzBytes => 9
  | .qNpix => 10
  | .qNdistinct => 11
  | .qNbuckets => 12
  | .qNcolors => 13
  | .qPsize => 14
  | .qGctsz => 15

/-- The colour `{r, g, b}` of three samples below 256 (30_encoding.md R89: `r<<16 | g<<8 | b`). -/
def rgbColour (r g b : Nat) : Colour := BitVec.ofNat 24 (r <<< 16 ||| g <<< 8 ||| b)

/-- The command a well-formed line stands for (30_encoding.md R89). -/
def AsmLine.toInstr : AsmLine → Instr
  | .nop => .nop
  | .lzStart k => .lzStart (BitVec.ofNat 4 k)
  | .lzIndex i => .lzIndex (BitVec.ofNat 8 i)
  | .lzFinish => .lzFinish
  | .qBegin => .qBegin
  | .qPixelRgb r g b => .qPixel (rgbColour r g b)
  | .qPixelHex c => .qPixel (BitVec.ofNat 24 c)
  | .qBuild q => .qBuild (q == 1)
  | .qMapRgb r g b => .qMap (rgbColour r g b)
  | .qMapHex c => .qMap (BitVec.ofNat 24 c)
  | .qRdpal i => .qRdpal (BitVec.ofNat 8 i)
  | .rdregNum n => .rdreg (BitVec.ofNat 4 n)
  | .rdregName r => .rdreg r.number
  | .clrerr => .clrerr

/-- The assembler: no word for a line with an operand out of range, and no truncation (30_encoding.md R89). -/
def assemble (l : AsmLine) : Option Word := if l.wellFormed then some (encode l.toInstr) else none

/-- The words of a pseudo-instruction (30_encoding.md R90). -/
def Pseudo.words (p : Pseudo) : Option (List Word) := p.expand.mapM assemble

/-- The word of `nbits` table bits, every bit above them 0 (spec/opcode_table.json numbers bit 0 as the least significant
bit of the one 32-bit word). -/
def tableWord (nbits w : Nat) : Word := BitVec.ofNat 32 (w % 2 ^ nbits)

/-- The instruction the decoder reads from a table row's bits; no instruction is longer than 32 bits (30_encoding.md R88). -/
def decodeTableWord (nbits w : Nat) : Option Instr :=
  if 32 < nbits then none
  else
    match decode (tableWord nbits w) with
    | .command i => some i
    | .reject _ => none

end Sys2Proof
end

