-- ==== Sys2Proof/Machine/State.lean ====
section
/-! DEFINITION. The state of one block: everything 10_state.md gives it (R20 to R38, R57, R58), the instance parameters of
00_scope.md R8, and the host side of the ports as plain data; the reset state of 70_reset_and_hazards.md R240; and the reasons a
step can stop. -/

namespace Sys2Proof.Machine

/-- One transfer on `lzo` (10_state.md R38). -/
structure Beat where
  data  : Byte
  last  : Bool
  abort : Bool
  deriving DecidableEq, Repr

/-- The quantizer phase `q_st` (10_state.md R33). DESIGN CHOICE (notes/assumptions/11.md): three values, since the spec's
value 3 is never reached (93_implementation_defined.md U10). -/
inductive Phase where
  | idle
  | collect
  | built
  deriving DecidableEq, Repr

/-- The five sticky error bits (10_state.md R22). -/
structure ErrBits where
  /-- `err_input` -/
  input    : Bool
  /-- `err_palette` -/
  palette  : Bool
  /-- `err_internal`; 1 means halted (60_exceptions.md R218) -/
  internal : Bool
  /-- `err_cmd` -/
  cmd      : Bool
  /-- `err_opcode` -/
  opcode   : Bool
  deriving DecidableEq, Repr

/-- One entry of the code table: the pair `(pfx, idx)` has the code `code` (10_state.md R29). -/
structure DictEntry where
  pfx  : Code
  idx  : Index
  code : Code
  deriving DecidableEq, Repr

/-- The LZ unit (10_state.md R23 to R32). -/
structure LzUnit where
  /-- `lz_act` (R23) -/
  act   : Bool
  /-- `lz_k` (R24) -/
  k     : BitVec 4
  /-- `lz_r` (R25) -/
  r     : BitVec 4
  /-- `lz_w` (R26) -/
  w     : BitVec 4
  /-- `lz_n` (R27) -/
  n     : BitVec 13
  /-- `lz_pv` (R28) -/
  pv    : Bool
  /-- `lz_pfx` (R28) -/
  pfx   : Code
  /-- `lz_dict` (R29), in the canonical form of notes/assumptions/10.md -/
  dict  : List DictEntry
  /-- `lz_acc` (R30) -/
  acc   : BitVec 19
  /-- `lz_nb` (R30) -/
  nb    : BitVec 5
  /-- `lz_blk[0..254]` (R31) -/
  blk   : Vector Byte 255
  /-- `lz_bl` (R31) -/
  bl    : BitVec 8
  /-- `lz_count` (R32) -/
  count : BitVec 32
  /-- `lz_bytes` (R32) -/
  bytes : BitVec 32
  deriving DecidableEq, Repr

/-- The PQ unit (10_state.md R33 to R37). -/
structure PqUnit where
  /-- `q_st` (R33) -/
  st      : Phase
  /-- `q_any` (R34) -/
  any     : Bool
  /-- `q_npix` (R34) -/
  npix    : BitVec 32
  /-- `q_ex[0..255]` (R35) -/
  ex      : Vector Colour 256
  /-- `q_exn` (R35) -/
  exn     : BitVec 9
  /-- `q_ovf` (R35) -/
  ovf     : Bool
  /-- `q_seen[0..255]` (R36) -/
  seen    : Vector Bool 256
  /-- `q_rep[0..255]` (R36) -/
  rep     : Vector Colour 256
  /-- `q_ord[0..255]` (R36) -/
  ord     : Vector (BitVec 8) 256
  /-- `q_bkn` (R36) -/
  bkn     : BitVec 9
  /-- `pal[0..255]` (R37) -/
  pal     : Vector Colour 256
  /-- `pal_n` (R37) -/
  palN    : BitVec 9
  /-- `pal_P` (R37) -/
  palP    : BitVec 9
  /-- `q_exact` (R37) -/
  isExact : Bool
  deriving DecidableEq, Repr

/-- What the host does at the ports (10_state.md R39, 70_reset_and_hazards.md R257). -/
inductive HostEvent where
  /-- The host offers a command word (`cmd_valid` high). -/
  | command (w : Word)
  /-- The host takes one beat from `lzo` (`lzo_ready` high). -/
  | takeBeat
  /-- The host takes one word from `rsp` (`rsp_ready` high). -/
  | takeWord
  /-- `rst_n` is low at a rising edge of `clk` (70_reset_and_hazards.md R240). -/
  | resetEdge
  deriving DecidableEq, Repr

/-- The state of one block and of the host's side of its ports. -/
structure State where
  /-- The instance parameters (00_scope.md R8); no step writes them (42_control.md R193). -/
  params : Params
  err    : ErrBits
  lz     : LzUnit
  pq     : PqUnit
  /-- `lzo`: the beats the host has not consumed (10_state.md R38), oldest first. -/
  lzo    : List Beat
  /-- `rsp`: the words the host has not consumed (10_state.md R38), oldest first. -/
  rsp    : List Word
  /-- What the host does next, oldest first. The model's own field (notes/assumptions/1.md). -/
  port   : List HostEvent
  deriving DecidableEq, Repr

/-- The reasons a step ends in a fault: none. 60_exceptions.md R221: no trap exists; R231: a recorded error is an ordinary
outcome; `ErrInternal` is the halted state of R218, which the model reaches as a next state (notes/assumptions/7.md). Nobody
raises a fault. -/
inductive Fault where
  deriving DecidableEq, Repr

/-- The reasons a step is refused. No arm of `exec` is refused in this model. -/
inductive Refusal where
  /-- Raised by an arm of `exec` whose instruction has no meaning yet. Safe: the run stops. No arm raises it. -/
  | notModelled (mnemonic : String)
  deriving DecidableEq, Repr

/-- The LZ unit after reset (70_reset_and_hazards.md R240). DESIGN CHOICE (notes/assumptions/6.md): `lz_blk` holds 0, where R240
leaves it unspecified. -/
def LzUnit.reset : LzUnit where
  act := false
  k := 0
  r := 0
  w := 0
  n := 0
  pv := false
  pfx := 0
  dict := []
  acc := 0
  nb := 0
  blk := Vector.replicate 255 0
  bl := 0
  count := 0
  bytes := 0

/-- The PQ unit after reset (70_reset_and_hazards.md R240). DESIGN CHOICE (notes/assumptions/6.md): `q_ex`, `q_rep`, `q_ord` and
`pal` hold 0, where R240 leaves them unspecified. -/
def PqUnit.reset : PqUnit where
  st := .idle
  any := false
  npix := 0
  ex := Vector.replicate 256 0
  exn := 0
  ovf := false
  seen := Vector.replicate 256 false
  rep := Vector.replicate 256 0
  ord := Vector.replicate 256 0
  bkn := 0
  pal := Vector.replicate 256 0
  palN := 0
  palP := 0
  isExact := false

/-- Every error bit 0 (10_state.md R22). -/
def ErrBits.reset : ErrBits where
  input := false
  palette := false
  internal := false
  cmd := false
  opcode := false

/-- The reset state of a block with the parameters `p` (70_reset_and_hazards.md R240). -/
def State.resetFor (p : Params) : State where
  params := p
  err := ErrBits.reset
  lz := LzUnit.reset
  pq := PqUnit.reset
  lzo := []
  rsp := []
  port := []

/-- The machine right after reset, with the default parameters (70_reset_and_hazards.md R240, 00_scope.md R8). -/
def State.reset : State := State.resetFor Params.default

end Sys2Proof.Machine
end

