-- ==== Sys2Proof/Machine/Operands.lean ====
section
/-! DEFINITION. Operand and operand-value computations: the channels of a colour (00_scope.md R13), the legal palette exponents
(41_lzw_encoder.md R160), the derived codes of a frame (R140), the bucket, distance and palette-size functions
(40_palette_quantizer.md R101, R102, R104) and the nearest-colour search (R112). -/

namespace Sys2Proof.Machine

/-- The channel R, `c[23:16]` (00_scope.md R13). -/
def red (c : Colour) : BitVec 8 := c.extractLsb' 16 8

/-- The channel G, `c[15:8]` (00_scope.md R13). -/
def green (c : Colour) : BitVec 8 := c.extractLsb' 8 8

/-- The channel B, `c[7:0]` (00_scope.md R13). -/
def blue (c : Colour) : BitVec 8 := c.extractLsb' 0 8

/-- `Bucket(c) = { c[23:21], c[15:13], c[7:6] }` (40_palette_quantizer.md R101). -/
def bucket (c : Colour) : BitVec 8 := c.extractLsb' 21 3 ++ c.extractLsb' 13 3 ++ c.extractLsb' 6 2

/-- The square of the difference of two samples, over the integers (40_palette_quantizer.md R102). -/
def sqDiff (a b : BitVec 8) : Nat := (((a.toNat : Int) - (b.toNat : Int)) ^ 2).toNat

/-- `D(a, b)`, exact (40_palette_quantizer.md R102). -/
def colourDist (a b : Colour) : Nat :=
  sqDiff (red a) (red b) + sqDiff (green a) (green b) + sqDiff (blue a) (blue b)

/-- Double `p` until it reaches `n`, at most `fuel` times. -/
def doubleUpTo (n : Nat) : Nat → Nat → Nat
  | 0, p => p
  | fuel + 1, p => if n ≤ p then p else doubleUpTo n fuel (2 * p)

/-- `RoundP(n)`: 2 for `n <= 2`, else the least power of two `>= n` (40_palette_quantizer.md R104). DESIGN CHOICE
(notes/assumptions/16.md): 256 for `n > 256`, where the spec gives no value and no reachable state asks. -/
def roundP (n : Nat) : Nat := doubleUpTo n 7 Config.minPalette

/-- The search of 40_palette_quantizer.md R112 from index `i` on, with the best index and distance so far: the comparison is
strict, so ties keep the lower index. -/
def nearestFrom (c : Colour) (best bd i : Nat) : List Colour → Nat
  | [] => best
  | e :: es =>
    if colourDist c e < bd then nearestFrom c i (colourDist c e) (i + 1) es
    else nearestFrom c best bd (i + 1) es

/-- `k` is a legal palette exponent, 1..8 (30_encoding.md R83, 41_lzw_encoder.md R160). -/
def legalExponent (k : BitVec 4) : Bool := decide (k.toNat ≠ 0) && decide (k.toNat ≤ 8)

/-- The root width `r = max(k, LZW_MIN_ROOT)` (41_lzw_encoder.md R140). -/
def rootWidth (m : MinRoot) (k : Nat) : Nat := max k m.toNat

/-- The Clear code `2^r` (41_lzw_encoder.md R140). -/
def clearCode (r : Nat) : Nat := 2 ^ r

/-- The End code `2^r + 1` (41_lzw_encoder.md R140). -/
def endCode (r : Nat) : Nat := 2 ^ r + 1

/-- The first code a table insertion takes, `2^r + 2` (41_lzw_encoder.md R140). -/
def firstFree (r : Nat) : Nat := 2 ^ r + 2

end Sys2Proof.Machine
end

