-- ==== Sys2Proof/Machine/Flags.lean ====
section
/-! DEFINITION. The error kinds and their `STATUS` bits (60_exceptions.md R211), the `STATUS` word (10_state.md R42), the `err`
output (60_exceptions.md R217) and the output signals of 10_state.md R39. -/

namespace Sys2Proof.Machine

/-- The error kinds (60_exceptions.md R211). -/
inductive ErrKind where
  | input
  | palette
  | internal
  | cmd
  | opcode
  deriving DecidableEq, Repr

/-- The code of a kind: the number of its bit in `STATUS` (60_exceptions.md R211). -/
def ErrKind.code : ErrKind → Nat
  | .input => 8
  | .palette => 9
  | .internal => 10
  | .cmd => 11
  | .opcode => 12

/-- The bit of a kind. -/
def ErrBits.bit (e : ErrBits) : ErrKind → Bool
  | .input => e.input
  | .palette => e.palette
  | .internal => e.internal
  | .cmd => e.cmd
  | .opcode => e.opcode

/-- Set the bit of a kind; the others stay (60_exceptions.md R210: errors accumulate). -/
def ErrBits.set (e : ErrBits) : ErrKind → ErrBits
  | .input => { e with input := true }
  | .palette => { e with palette := true }
  | .internal => { e with internal := true }
  | .cmd => { e with cmd := true }
  | .opcode => { e with opcode := true }

/-- Clear the recoverable bits; `err_internal` stays (42_control.md R192). -/
def ErrBits.clearRecoverable (e : ErrBits) : ErrBits :=
  { e with input := false, palette := false, cmd := false, opcode := false }

/-- The `err` output: the OR of the five bits (60_exceptions.md R217). -/
def ErrBits.any (e : ErrBits) : Bool := e.input || e.palette || e.internal || e.cmd || e.opcode

/-- The two bits of `q_st` (10_state.md R33). -/
def Phase.bits : Phase → BitVec 2
  | .idle => 0
  | .collect => 1
  | .built => 2

/-- The `STATUS` word, bit 31 first; reserved bits read 0 (10_state.md R42). -/
def statusWord (e : ErrBits) (st : Phase) (isExact pv act : Bool) : Word :=
  0#19 ++ BitVec.ofBool e.opcode ++ BitVec.ofBool e.cmd ++ BitVec.ofBool e.internal ++ BitVec.ofBool e.palette
    ++ BitVec.ofBool e.input ++ 0#3 ++ BitVec.ofBool isExact ++ st.bits ++ BitVec.ofBool pv ++ BitVec.ofBool act

/-- The `err` output of the block (10_state.md R39, 60_exceptions.md R217). -/
def State.errOut (s : State) : Bool := s.err.any

/-- `lzo_valid`: a beat is waiting (10_state.md R39). -/
def State.lzoValid (s : State) : Bool := !s.lzo.isEmpty

/-- `lzo_data`, `lzo_last`, `lzo_abort`: the oldest beat (10_state.md R39). -/
def State.lzoFront (s : State) : Option Beat := s.lzo.head?

/-- `rsp_valid`: a word is waiting (10_state.md R39). -/
def State.rspValid (s : State) : Bool := !s.rsp.isEmpty

/-- `rsp_data`: the oldest word (10_state.md R39). -/
def State.rspFront (s : State) : Option Word := s.rsp.head?

/-- `n` entries fit a buffer of the given depth (70_reset_and_hazards.md R250). -/
def fitsDepth (depth : Option PNat) (n : Nat) : Bool :=
  match depth with
  | none => true
  | some d => decide (n ≤ d.val)

/-- `cmd_ready`: no earlier command still waits for room in an output buffer. A command has completed when all it appended
is in the buffers, that is, when no stream holds more than `OUT_DEPTH` entries. DEDUCED from 70_reset_and_hazards.md R250
(notes/assumptions/4.md). -/
def State.cmdReady (s : State) : Bool :=
  fitsDepth s.params.outDepth s.lzo.length && fitsDepth s.params.outDepth s.rsp.length

end Sys2Proof.Machine
end

