-- ==== Sys2Proof/Machine/Ops.lean ====
section
/-! DEFINITION. The shared operations over the state: recording an error (the block's only exception entry,
60_exceptions.md R211, R221) and clearing the recoverable ones (42_control.md R192, the nearest thing to a return, R222); the two
output streams; the code table; and the gate of the halted state (60_exceptions.md R218). -/

namespace Sys2Proof.Machine

/-! ### Errors -/

/-- `raise E`: set the sticky bit of `E` and nothing else; no control transfer happens (60_exceptions.md R210, R211). -/
def raise (e : ErrKind) (s : State) : State := { s with err := s.err.set e }

/-- Clear the recoverable error bits (42_control.md R192). -/
def clearErrors (s : State) : State := { s with err := s.err.clearRecoverable }

/-! ### Output streams -/

/-- `OutBeat(d, last, abort)` (41_lzw_encoder.md R143). -/
def outBeat (b : Beat) (s : State) : State :=
  { s with lzo := s.lzo ++ [b], lz := { s.lz with bytes := s.lz.bytes + 1 } }

/-- A data beat: neither last nor abort. -/
def dataBeat (d : Byte) : Beat := { data := d, last := false, abort := false }

/-- The zero-length terminator `(0x00, 1, 0)` (41_lzw_encoder.md R148). -/
def terminatorBeat : Beat := { data := 0, last := true, abort := false }

/-- The abort beat `(0x00, 1, 1)` (41_lzw_encoder.md R147). -/
def abortBeat : Beat := { data := 0, last := true, abort := true }

/-- `for i: OutBeat(b_i, 0, 0)`, in order (41_lzw_encoder.md R144, R148). -/
def outBytes : List Byte → State → State
  | [], s => s
  | d :: ds, s => outBytes ds (outBeat (dataBeat d) s)

/-- `Respond(v)` (30_encoding.md R86). -/
def respond (v : Word) (s : State) : State := { s with rsp := s.rsp ++ [v] }

/-- Answer with the failure word (30_encoding.md R86). -/
def respondFailure (s : State) : State := respond Config.failureWord s

/-! ### The code table

A finite map held as a list of entries with strictly rising keys, so that equal maps are equal lists
(notes/assumptions/10.md). -/

/-- The key of a pair `(prefix, index)`. -/
def dictKey (p : Code) (k : Index) : Nat := p.toNat * 256 + k.toNat

/-- The key of an entry. -/
def DictEntry.key (e : DictEntry) : Nat := dictKey e.pfx e.idx

/-- Look a pair up; exact (10_state.md R29). -/
def dictFind (p : Code) (k : Index) : List DictEntry → Option Code
  | [] => none
  | e :: es => if e.pfx = p ∧ e.idx = k then some e.code else dictFind p k es

/-- Map the pair of `e` to the code of `e`, whatever it was mapped to before, keeping the keys rising. -/
def dictInsert (e : DictEntry) : List DictEntry → List DictEntry
  | [] => [e]
  | x :: xs =>
    if e.key < x.key then e :: x :: xs
    else if e.key = x.key then e :: xs
    else x :: dictInsert e xs

/-- The canonical form of a code table: keys strictly rising. -/
abbrev Dict.wf (d : List DictEntry) : Prop := (d.map DictEntry.key).Pairwise (· < ·)

/-! ### The halted state -/

/-- Run `go` when the block is not halted; in the halted state the command has the effect `halted` instead
(60_exceptions.md R218). -/
def unlessHalted (halted go : State → State) (s : State) : State :=
  if s.err.internal then halted s else go s

/-- A command that has no effect in the halted state (60_exceptions.md R218). -/
def haltedNothing (s : State) : State := s

end Sys2Proof.Machine
end

