-- ==== Sys2Proof/Machine/Control.lean ====
section
/-! DEFINITION. The control commands (42_control.md section 1): `NOP`, `RDREG`, `CLRERR`; and the register map of 10_state.md R40 to
R55. -/

namespace Sys2Proof.Machine

/-- `CAPS`: `[3:0] = LZW_MIN_ROOT`, `[7:4] = 12`, `[16:8] = 256` (10_state.md R43). -/
def capsWord (p : Params) : Word :=
  Word.ofNat (p.minRoot.toNat + Config.maxCodeWidth * 2 ^ 4 + Config.maxColors * 2 ^ 8)

/-- `Q_GCTSZ`: `log2(pal_P) - 1` in bits 2:0 when a palette is built, else 0 (10_state.md R44). -/
def gctszWord (q : PqUnit) : Word :=
  if q.st = .built then (BitVec.ofNat 3 (Nat.log2 q.palP.toNat - 1)).setWidth 32 else 0

/-- The view of each register (10_state.md R40 to R55). -/
def regValue (s : State) : RegName → Word
  | .id => Config.idValue
  | .status => statusWord s.err s.pq.st s.pq.isExact s.lz.pv s.lz.act
  | .caps => capsWord s.params
  | .lzK => s.lz.k.setWidth 32
  | .lzRoot => s.lz.r.setWidth 32
  | .lzWidth => s.lz.w.setWidth 32
  | .lzNext => s.lz.n.setWidth 32
  | .lzPrefix => BitVec.ofBool s.lz.pv ++ 0#19 ++ s.lz.pfx
  | .lzCount => s.lz.count
  | .lzBytes => s.lz.bytes
  | .qNpix => s.pq.npix
  | .qNdistinct => BitVec.ofBool s.pq.ovf ++ 0#22 ++ s.pq.exn
  | .qNbuckets => s.pq.bkn.setWidth 32
  | .qNcolors => s.pq.palN.setWidth 32
  | .qPsize => s.pq.palP.setWidth 32
  | .qGctsz => gctszWord s.pq

/-- `RDREG n`, halted or not: it always answers the register (42_control.md R191, 60_exceptions.md R218). -/
def readRegister (n : BitVec 4) (s : State) : State := respond (regValue s (RegName.ofNumber n)) s

/-- `NOP`: no state change, no beat, no response (42_control.md R190), halted or not. -/
def execNop (s : State) : Host.Outcome State Fault Refusal := .next s

/-- `RDREG n` (42_control.md R191; halted: 60_exceptions.md R218). -/
def execRdreg (n : BitVec 4) (s : State) : Host.Outcome State Fault Refusal :=
  .next (unlessHalted (readRegister n) (readRegister n) s)

/-- `CLRERR` (42_control.md R192; halted: 60_exceptions.md R218). -/
def execClrerr (s : State) : Host.Outcome State Fault Refusal :=
  .next (unlessHalted haltedNothing clearErrors s)

end Sys2Proof.Machine
end

