-- ==== Sys2Proof/Machine/LzPrims.lean ====
section
/-! DEFINITION. The LZ primitives of 41_lzw_encoder.md section 2, with the internal checks of R152 and the early end of a command that
60_exceptions.md R213 gives a failed one. -/

namespace Sys2Proof.Machine

/-- How a primitive leaves the command it runs in: going on, or ended by `ErrInternal` ("the command ends here, including any
primitive or loop it was inside", 60_exceptions.md R213). -/
inductive Progress where
  | going (s : State)
  | ended (s : State)
  deriving DecidableEq, Repr

/-- Go on with `f` unless the command has ended. -/
def Progress.andThen (p : Progress) (f : State → Progress) : Progress :=
  match p with
  | .going s => f s
  | .ended s => .ended s

/-- The state, either way. -/
def Progress.state : Progress → State
  | .going s => s
  | .ended s => s

/-- `Abort()` (41_lzw_encoder.md R147). -/
def abortFrame (s : State) : State :=
  let s1 := outBeat abortBeat s
  { s1 with lz := { s1.lz with act := false, pv := false, acc := 0, nb := 0, bl := 0 } }

/-- `raise ErrInternal` (60_exceptions.md R213). -/
def internalError (s : State) : Progress :=
  let s1 := raise .internal s
  .ended (if s1.lz.act then abortFrame s1 else s1)

/-- The waiting data bytes, `lz_blk[0 .. lz_bl - 1]` (10_state.md R31). -/
def LzUnit.pending (l : LzUnit) : List Byte := l.blk.toList.take l.bl.toNat

/-- Send the block buffer as one sub-block: its length, its bytes, and the buffer is empty (41_lzw_encoder.md R144, R148). -/
def sendBlock (s : State) : State :=
  let s1 := outBytes (s.lz.bl :: s.lz.pending) s
  { s1 with lz := { s1.lz with bl := 0 } }

/-- `PushByte(b)` (41_lzw_encoder.md R144). -/
def pushByte (b : Byte) (s : State) : Progress :=
  if h : s.lz.bl.toNat < Config.maxBlock then
    let s1 := { s with lz := { s.lz with blk := s.lz.blk.set s.lz.bl.toNat b h, bl := s.lz.bl + 1 } }
    .going (if s1.lz.bl.toNat = Config.maxBlock then sendBlock s1 else s1)
  else internalError s

/-- The low byte of the bit buffer, `lz_acc[7:0]`. -/
def LzUnit.lowByte (l : LzUnit) : Byte := l.acc.extractLsb' 0 8

/-- Take one byte off the bit buffer (41_lzw_encoder.md R142). -/
def shiftByte (s : State) : State := { s with lz := { s.lz with acc := s.lz.acc >>> 8, nb := s.lz.nb - 8 } }

/-- The loop of `Emit`: `while lz_nb >= 8` (41_lzw_encoder.md R142). A 5-bit `lz_nb` allows at most three turns, so
`fuel = 3` is the whole loop. -/
def drainBytes : Nat → State → Progress
  | 0, s => .going s
  | fuel + 1, s =>
    if 8 ≤ s.lz.nb.toNat then
      (pushByte s.lz.lowByte s).andThen fun s1 => drainBytes fuel (shiftByte s1)
    else .going s

/-- `lz_acc <- lz_acc | (c << lz_nb)`; `lz_nb <- lz_nb + w` (41_lzw_encoder.md R142), each cut to its register's width. -/
def addBits (c w : Nat) (s : State) : State :=
  { s with lz := { s.lz with
      acc := s.lz.acc ||| BitVec.ofNat 19 (c <<< s.lz.nb.toNat), nb := s.lz.nb + BitVec.ofNat 5 w } }

/-- `Emit(c, w)` (41_lzw_encoder.md R142), with the check of R152. -/
def emit (c w : Nat) (s : State) : Progress :=
  if 2 ^ w ≤ c ∨ Config.maxCodeWidth < w then internalError s
  else drainBytes 3 (addBits c w s)

/-- `WidthStep()` (41_lzw_encoder.md R145). -/
def widthStep (s : State) : State :=
  if 2 ^ s.lz.w.toNat ≤ s.lz.n.toNat ∧ s.lz.w.toNat < Config.maxCodeWidth then
    { s with lz := { s.lz with w := s.lz.w + 1 } }
  else s

/-- The table reset of `Insert`: the table empty, `lz_n` and `lz_w` initial (41_lzw_encoder.md R146). -/
def resetTable (s : State) : State :=
  { s with lz := { s.lz with
      dict := [], n := BitVec.ofNat 13 (firstFree s.lz.r.toNat), w := s.lz.r + 1 } }

/-- The insertion proper: `lz_dict[(p, K)] <- lz_n`; `lz_n <- lz_n + 1` (41_lzw_encoder.md R146). -/
def addEntry (p : Code) (k : Index) (s : State) : State :=
  { s with lz := { s.lz with
      dict := dictInsert { pfx := p, idx := k, code := s.lz.n.setWidth 12 } s.lz.dict, n := s.lz.n + 1 } }

/-- `Insert(p, K)` (41_lzw_encoder.md R146), with the check of R152: the insertion, and on a full table the Clear code and the
reset. -/
def insertPair (p : Code) (k : Index) (s : State) : Progress :=
  if Config.tableSize ≤ s.lz.n.toNat then internalError s
  else
    let s1 := addEntry p k s
    if s1.lz.n.toNat = Config.tableSize then
      (emit (clearCode s1.lz.r.toNat) s1.lz.w.toNat s1).andThen fun s2 => .going (resetTable s2)
    else .going s1

/-- The first part of `FinalFlush()`: the last, zero-padded byte (41_lzw_encoder.md R148, 20_memory.md R63). -/
def flushBits (s : State) : Progress :=
  if s.lz.nb.toNat = 0 then .going s
  else (pushByte s.lz.lowByte s).andThen fun s1 => .going { s1 with lz := { s1.lz with acc := 0, nb := 0 } }

/-- The second part of `FinalFlush()`: the last sub-block (41_lzw_encoder.md R148). -/
def flushBlock (s : State) : State := if s.lz.bl.toNat = 0 then s else sendBlock s

/-- `FinalFlush()` (41_lzw_encoder.md R148). -/
def finalFlush (s : State) : Progress :=
  (flushBits s).andThen fun s1 => .going (outBeat terminatorBeat (flushBlock s1))

end Sys2Proof.Machine
end

