-- ==== Sys2Proof/Machine/Lz.lean ====
section
/-! DEFINITION. The LZ commands (41_lzw_encoder.md section 5): `LZ_START`, `LZ_INDEX`, `LZ_FINISH`. -/

namespace Sys2Proof.Machine

/-- The state of a newly opened frame with palette exponent `k`, before anything is sent (41_lzw_encoder.md R160). -/
def openFrame (k : BitVec 4) (s : State) : State :=
  let r := rootWidth s.params.minRoot k.toNat
  { s with lz := { s.lz with
      act := true, k := k, r := BitVec.ofNat 4 r, w := BitVec.ofNat 4 (r + 1), n := BitVec.ofNat 13 (firstFree r),
      dict := [], pv := false, pfx := 0, acc := 0, nb := 0, bl := 0, count := 0, bytes := 0 } }

/-- The beats and bits that open a frame: the LZW minimum code size byte and the Clear code (41_lzw_encoder.md R160). -/
def sendHeader (s : State) : Progress :=
  emit (clearCode s.lz.r.toNat) s.lz.w.toNat (outBeat (dataBeat (s.lz.r.setWidth 8)) s)

/-- `LZ_START k` in a block that is not halted (41_lzw_encoder.md R160). -/
def lzStart (k : BitVec 4) (s : State) : State :=
  if s.lz.act then raise .cmd s
  else if legalExponent k then (sendHeader (openFrame k s)).state
  else raise .input s

/-- Set the matched prefix. -/
def setPrefix (p : Code) (s : State) : State := { s with lz := { s.lz with pfx := p } }

/-- The first index of a frame is the whole prefix (41_lzw_encoder.md R161). -/
def firstIndex (i : Index) (s : State) : State := { s with lz := { s.lz with pfx := i.setWidth 12, pv := true } }

/-- The match does not extend: emit the prefix, step the width, insert, and the index is the new prefix
(41_lzw_encoder.md R161). -/
def emitPrefix (i : Index) (s : State) : Progress :=
  (emit s.lz.pfx.toNat s.lz.w.toNat s).andThen fun s1 =>
    (insertPair s.lz.pfx i (widthStep s1)).andThen fun s2 => .going (setPrefix (i.setWidth 12) s2)

/-- `lz_count <- lz_count + 1 mod 2^32` (41_lzw_encoder.md R161). -/
def countIndex (s : State) : State := { s with lz := { s.lz with count := s.lz.count + 1 } }

/-- Consume an accepted index (41_lzw_encoder.md R161). -/
def consumeIndex (i : Index) (s : State) : State :=
  if s.lz.pv then
    match dictFind s.lz.pfx i s.lz.dict with
    | some c => setPrefix c s
    | none => (emitPrefix i s).state
  else firstIndex i s

/-- `LZ_INDEX i` in a block that is not halted (41_lzw_encoder.md R161). -/
def lzIndex (i : Index) (s : State) : State :=
  if s.lz.act then
    if 2 ^ s.lz.k.toNat ≤ i.toNat then abortFrame (raise .input s)
    else consumeIndex i (countIndex s)
  else raise .cmd s

/-- `lz_act <- 0`; `lz_pv <- 0` (41_lzw_encoder.md R163). -/
def closeFrame (s : State) : State := { s with lz := { s.lz with act := false, pv := false } }

/-- The last prefix code, the width step, the End code and the final flush (41_lzw_encoder.md R163). -/
def sendTrailer (s : State) : Progress :=
  (emit s.lz.pfx.toNat s.lz.w.toNat s).andThen fun s1 =>
    let s2 := widthStep s1
    (emit (endCode s2.lz.r.toNat) s2.lz.w.toNat s2).andThen fun s3 =>
      (finalFlush s3).andThen fun s4 => .going (closeFrame s4)

/-- `LZ_FINISH` in a block that is not halted (41_lzw_encoder.md R163). -/
def lzFinish (s : State) : State :=
  if s.lz.act then
    if s.lz.pv then (sendTrailer s).state
    else abortFrame (raise .input s)
  else raise .cmd s

/-- `LZ_START k` (41_lzw_encoder.md R160; halted: 60_exceptions.md R218). -/
def execLzStart (k : BitVec 4) (s : State) : Host.Outcome State Fault Refusal :=
  .next (unlessHalted haltedNothing (lzStart k) s)

/-- `LZ_INDEX i` (41_lzw_encoder.md R161; halted: 60_exceptions.md R218). -/
def execLzIndex (i : Index) (s : State) : Host.Outcome State Fault Refusal :=
  .next (unlessHalted haltedNothing (lzIndex i) s)

/-- `LZ_FINISH` (41_lzw_encoder.md R163; halted: 60_exceptions.md R218). -/
def execLzFinish (s : State) : Host.Outcome State Fault Refusal :=
  .next (unlessHalted haltedNothing lzFinish s)

end Sys2Proof.Machine
end

