-- ==== Sys2Proof/Machine/Pq.lean ====
section
/-! DEFINITION. The PQ commands (40_palette_quantizer.md section 2): `Q_BEGIN`, `Q_PIXEL`, `Q_BUILD`, `Q_MAP`, `Q_RDPAL`. -/

namespace Sys2Proof.Machine

/-- The collected distinct colours, `q_ex[0 .. q_exn - 1]` (10_state.md R35). -/
def PqUnit.colours (q : PqUnit) : List Colour := q.ex.toList.take q.exn.toNat

/-- The occupied buckets in order of first occurrence, `q_ord[0 .. q_bkn - 1]` (10_state.md R36). -/
def PqUnit.buckets (q : PqUnit) : List (BitVec 8) := q.ord.toList.take q.bkn.toNat

/-- The real palette entries, `pal[0 .. pal_n - 1]` (10_state.md R37). -/
def PqUnit.entries (q : PqUnit) : List Colour := q.pal.toList.take q.palN.toNat

/-- The flag of bucket `b`, `q_seen[b]` (10_state.md R36). -/
def PqUnit.seenAt (q : PqUnit) (b : BitVec 8) : Bool := q.seen[b.toNat]'b.isLt

/-- The representative of bucket `b`, `q_rep[b]` (10_state.md R36). -/
def PqUnit.repAt (q : PqUnit) (b : BitVec 8) : Colour := q.rep[b.toNat]'b.isLt

/-- The unit after `Q_BEGIN` (40_palette_quantizer.md R106). -/
def PqUnit.begun (q : PqUnit) : PqUnit :=
  { q with
    st := .collect, any := false, npix := 0, exn := 0, ovf := false, seen := Vector.replicate 256 false, bkn := 0,
    palN := 0, palP := 0, isExact := false }

/-- The exact-colour list of `Q_PIXEL` (40_palette_quantizer.md R107, 10_state.md R35). -/
def PqUnit.collectColour (c : Colour) (q : PqUnit) : PqUnit :=
  if c ∈ q.colours then q
  else if h : q.exn.toNat < Config.maxColors then
    { q with ex := q.ex.set q.exn.toNat c h, exn := q.exn + 1 }
  else { q with ovf := true }

/-- The bucket table of `Q_PIXEL` (40_palette_quantizer.md R107, 10_state.md R36). A write to `q_ord` at or past entry 256,
which no reachable state makes, is dropped (DESIGN CHOICE, notes/assumptions/9.md). -/
def PqUnit.collectBucket (c : Colour) (q : PqUnit) : PqUnit :=
  let b := bucket c
  if q.seenAt b then q
  else
    { q with
      seen := q.seen.set b.toNat true b.isLt, rep := q.rep.set b.toNat c b.isLt,
      ord := q.ord.setIfInBounds q.bkn.toNat b, bkn := q.bkn + 1 }

/-- The unit after an accepted `Q_PIXEL c` (40_palette_quantizer.md R107). -/
def PqUnit.collected (c : Colour) (q : PqUnit) : PqUnit :=
  PqUnit.collectBucket c (PqUnit.collectColour c { q with any := true, npix := q.npix + 1 })

/-- `pal[i] <- q_ex[i]` for `i < q_exn`; `pal_n <- q_exn`; `q_exact <- 1` (40_palette_quantizer.md R108, R109). -/
def PqUnit.exactPalette (q : PqUnit) : PqUnit :=
  { q with
    pal := Vector.ofFn fun i : Fin 256 => if i.val < q.exn.toNat then q.ex[i.val] else q.pal[i.val],
    palN := q.exn, isExact := true }

/-- `pal[i] <- q_rep[q_ord[i]]` for `i < q_bkn`; `pal_n <- q_bkn`; `q_exact <- 0` (40_palette_quantizer.md R108, R110). -/
def PqUnit.quantizedPalette (q : PqUnit) : PqUnit :=
  { q with
    pal := Vector.ofFn fun i : Fin 256 => if i.val < q.bkn.toNat then q.repAt q.ord[i.val] else q.pal[i.val],
    palN := q.bkn, isExact := false }

/-- `pal_P <- RoundP(pal_n)`; `q_st <- BUILT` (40_palette_quantizer.md R108). -/
def PqUnit.finishBuild (q : PqUnit) : PqUnit :=
  { q with palP := BitVec.ofNat 9 (roundP q.palN.toNat), st := .built }

/-- The `Q_BUILD` response word: `pal_n` in bits 8:0, `pal_P` in bits 24:16, `q_exact` in bit 28
(40_palette_quantizer.md R111). -/
def PqUnit.buildResponse (q : PqUnit) : Word :=
  q.palN.setWidth 32 ||| (q.palP.setWidth 32 <<< 16) ||| ((BitVec.ofBool q.isExact).setWidth 32 <<< 28)

/-- The palette index of a colour (40_palette_quantizer.md R112): the search starts at entry 0 and goes on over the entries
1 .. pal_n - 1. -/
def PqUnit.nearest (q : PqUnit) (c : Colour) : Nat :=
  nearestFrom c 0 (colourDist c q.pal[0]) 1 (q.entries.drop 1)

/-- `Q_BEGIN` in a block that is not halted (40_palette_quantizer.md R106). -/
def qBegin (s : State) : State := { s with pq := s.pq.begun }

/-- `Q_PIXEL c` in a block that is not halted (40_palette_quantizer.md R107). -/
def qPixel (c : Colour) (s : State) : State :=
  if s.pq.st = .collect then { s with pq := s.pq.collected c }
  else raise .cmd s

/-- A failing build: PQ returns to IDLE and the failure word is sent (40_palette_quantizer.md R108). -/
def failBuild (e : ErrKind) (s : State) : State :=
  respondFailure { raise e s with pq := { s.pq with st := .idle } }

/-- A succeeding build: the palette is kept and its response word sent (40_palette_quantizer.md R108, R111). -/
def keepPalette (q : PqUnit) (s : State) : State :=
  respond q.finishBuild.buildResponse { s with pq := q.finishBuild }

/-- `Q_BUILD q` in a block that is not halted (40_palette_quantizer.md R108). -/
def qBuild (q : Bool) (s : State) : State :=
  if s.pq.st = .collect then
    if s.pq.any then
      if s.pq.ovf then
        if q then keepPalette s.pq.quantizedPalette s else failBuild .palette s
      else keepPalette s.pq.exactPalette s
    else failBuild .input s
  else respondFailure (raise .cmd s)

/-- `Q_MAP c` in a block that is not halted (40_palette_quantizer.md R112). -/
def qMap (c : Colour) (s : State) : State :=
  if s.pq.st = .built then respond (Word.ofNat (s.pq.nearest c)) s
  else respondFailure (raise .cmd s)

/-- The word `Q_RDPAL i` answers: the entry, or black padding (40_palette_quantizer.md R114). -/
def PqUnit.entryWord (q : PqUnit) (i : Index) : Word :=
  if i.toNat < q.palN.toNat then (q.pal[i.toNat]'i.isLt).setWidth 32 else 0

/-- `Q_RDPAL i` in a block that is not halted (40_palette_quantizer.md R114). -/
def qRdpal (i : Index) (s : State) : State :=
  if s.pq.st = .built then respond (s.pq.entryWord i) s
  else respondFailure (raise .cmd s)

/-- `Q_BEGIN` (40_palette_quantizer.md R106; halted: 60_exceptions.md R218). -/
def execQBegin (s : State) : Host.Outcome State Fault Refusal :=
  .next (unlessHalted haltedNothing qBegin s)

/-- `Q_PIXEL c` (40_palette_quantizer.md R107; halted: 60_exceptions.md R218). -/
def execQPixel (c : Colour) (s : State) : Host.Outcome State Fault Refusal :=
  .next (unlessHalted haltedNothing (qPixel c) s)

/-- `Q_BUILD q` (40_palette_quantizer.md R108; halted: 60_exceptions.md R218). -/
def execQBuild (q : Bool) (s : State) : Host.Outcome State Fault Refusal :=
  .next (unlessHalted respondFailure (qBuild q) s)

/-- `Q_MAP c` (40_palette_quantizer.md R112; halted: 60_exceptions.md R218). -/
def execQMap (c : Colour) (s : State) : Host.Outcome State Fault Refusal :=
  .next (unlessHalted respondFailure (qMap c) s)

/-- `Q_RDPAL i` (40_palette_quantizer.md R114; halted: 60_exceptions.md R218). -/
def execQRdpal (i : Index) (s : State) : Host.Outcome State Fault Refusal :=
  .next (unlessHalted respondFailure (qRdpal i) s)

end Sys2Proof.Machine
end

