-- ==== Sys2Proof/Machine/Dispatch.lean ====
section
/-! DEFINITION. The one dispatch from a command to its meaning (30_encoding.md R80, R82). -/

namespace Sys2Proof.Machine

def exec (i : Instr) (s : State) : Host.Outcome State Fault Refusal :=
  match i with
  | .nop => Sys2Proof.Machine.execNop s
  | .lzStart k => Sys2Proof.Machine.execLzStart k s
  | .lzIndex x => Sys2Proof.Machine.execLzIndex x s
  | .lzFinish => Sys2Proof.Machine.execLzFinish s
  | .qBegin => Sys2Proof.Machine.execQBegin s
  | .qPixel c => Sys2Proof.Machine.execQPixel c s
  | .qBuild q => Sys2Proof.Machine.execQBuild q s
  | .qMap c => Sys2Proof.Machine.execQMap c s
  | .qRdpal x => Sys2Proof.Machine.execQRdpal x s
  | .rdreg n => Sys2Proof.Machine.execRdreg n s
  | .clrerr => Sys2Proof.Machine.execClrerr s

end Sys2Proof.Machine
end

