-- ==== Sys2Proof/Machine/Port.lean ====
section
/-! DEFINITION. The ports (10_state.md R39): which of the host's events comes next, and what each does. A command word is decoded and
executed (30_encoding.md R80), or rejected (R84, R85); the host takes a beat or a word (10_state.md R38); reset
(70_reset_and_hazards.md R240); and the idle block (60_exceptions.md R230). -/

namespace Sys2Proof.Machine

/-- A rejected word answers when its opcode is response-bearing (30_encoding.md R84, R85). -/
def rejectResponds : Reject → Bool
  | .reservedOpcode => false
  | .reservedBits op => op.responds

/-- The effect of a word that spells no command: `ErrOpcode`, and the failure word for a response-bearing opcode
(30_encoding.md R84, R85); in the halted state no error is set (60_exceptions.md R218). -/
def rejectWord (r : Reject) (s : State) : State :=
  let s1 := if s.err.internal then s else raise .opcode s
  if rejectResponds r then respondFailure s1 else s1

/-- `Step(cmd)` (30_encoding.md R80). -/
def acceptWord (w : Word) (s : State) : Host.Outcome State Fault Refusal :=
  match decode w with
  | .command i => exec i s
  | .reject r => .next (rejectWord r s)

/-- The reset state, for the same parameters; what the host does afterwards stays (70_reset_and_hazards.md R240). DESIGN CHOICE
(notes/assumptions/21.md): a command that still waits for `cmd_ready` at the reset edge is not accepted at that edge and has no
effect there, but the host goes on offering it, so it stays in `port` and is accepted after the reset. -/
def resetBlock (s : State) : State := { State.resetFor s.params with port := s.port }

/-- The host takes the oldest beat; no transfer happens when `lzo_valid` is low (10_state.md R38, R39). -/
def takeBeat (s : State) : State := { s with lzo := s.lzo.drop 1 }

/-- The host takes the oldest word; no transfer happens when `rsp_valid` is low (10_state.md R38, R39). -/
def takeWord (s : State) : State := { s with rsp := s.rsp.drop 1 }

/-- The oldest event that is no command, and the list without it: the host's other ports go on while a command waits. The waiting
commands stay offered, in their order, behind an output taken (notes/assumptions/5.md) and behind a reset edge (DESIGN CHOICE,
notes/assumptions/21.md). -/
def splitOther : List HostEvent → Option (HostEvent × List HostEvent)
  | [] => none
  | .command w :: es => (splitOther es).map fun p => (p.1, .command w :: p.2)
  | e :: es => some (e, es)

/-- The next event to serve and the events left: the oldest, but a command waits while `cmd_ready` is low
(70_reset_and_hazards.md R250; notes/assumptions/5.md and, for a reset edge, 21.md). -/
def nextEvent (ready : Bool) : List HostEvent → Option (HostEvent × List HostEvent)
  | [] => none
  | .command w :: es => if ready then some (.command w, es) else splitOther (.command w :: es)
  | e :: es => some (e, es)

/-- Serve one event. -/
def serve (e : HostEvent) (s : State) : Host.Outcome State Fault Refusal :=
  match e with
  | .command w => acceptWord w s
  | .takeBeat => .next (takeBeat s)
  | .takeWord => .next (takeWord s)
  | .resetEdge => .next (resetBlock s)

/-- One step of the ports: the next event is served; with none, the block idles and keeps its state
(60_exceptions.md R230). -/
def servePort (s : State) : Host.Outcome State Fault Refusal :=
  match nextEvent s.cmdReady s.port with
  | none => .next s
  | some (e, es) => serve e { s with port := es }

/-- `s` with the word offered next at the command port. -/
def offerWord (w : Word) (s : State) : State := { s with port := .command w :: s.port }

end Sys2Proof.Machine
end

