-- ==== Sys2Proof/Machine/Step.lean ====
section
/-! DEFINITION. One step of the machine: one event of the host's, which for a command word is one accepted command executed
atomically (00_scope.md R10, 30_encoding.md R80). -/

namespace Sys2Proof.Machine

/-- One step (00_scope.md R10). -/
def step (s : State) : Host.Outcome State Fault Refusal := servePort s

/-- `s` with a table row's word offered next at the command port, which is where this machine gets its next command
(10_state.md R21, 20_memory.md R61; notes/assumptions/2.md). -/
def State.withFetchWord (s : State) (nbits w : Nat) : State := offerWord (tableWord nbits w) s

end Sys2Proof.Machine
end

