-- ==== Sys2Proof/Machine/Functional.lean ====
section
/-! DEFINITION. The functional form of one frame (41_lzw_encoder.md section 4), written from R149 and R153 to R156 and independent of the
machine's own operations: the code sequence, the packed bytes, the sub-blocks and the beats of a whole index stream; and the
reference decoder of 95_test_vectors.md section 4, a checking aid that is no part of the block. -/

namespace Sys2Proof.Machine

/-- A code with the width it is written with (41_lzw_encoder.md R153). -/
structure WideCode where
  code  : Nat
  width : Nat
  deriving DecidableEq, Repr

/-- A code table as pairs in any order: `((prefix, index), code)` (41_lzw_encoder.md R153). -/
abbrev Table := List ((Nat × Nat) × Nat)

/-- `if n >= 2^w and w < 12: w <- w + 1` (41_lzw_encoder.md R153). -/
def grownWidth (w n : Nat) : Nat := if 2 ^ w ≤ n ∧ w < Config.maxCodeWidth then w + 1 else w

/-- The loop of `LzwCodes` with its width, next code, table and prefix, over the indices still to come, and the two codes
after it (41_lzw_encoder.md R153). -/
def lzwLoop (r w n : Nat) (dict : Table) (pfx : Nat) : List Nat → List WideCode
  | [] => [⟨pfx, w⟩, ⟨endCode r, grownWidth w n⟩]
  | x :: xs =>
    match dict.lookup (pfx, x) with
    | some c => lzwLoop r w n dict c xs
    | none =>
      ⟨pfx, w⟩ ::
        if n + 1 = Config.tableSize then
          ⟨clearCode r, grownWidth w n⟩ :: lzwLoop r (r + 1) (firstFree r) [] x xs
        else lzwLoop r (grownWidth w n) (n + 1) (((pfx, x), n) :: dict) x xs

/-- `LzwCodes(xs, k)` (41_lzw_encoder.md R153); defined for a non-empty `xs`, empty otherwise. -/
def lzwCodes (m : MinRoot) (k : Nat) : List Nat → List WideCode
  | [] => []
  | x :: xs =>
    let r := rootWidth m k
    ⟨clearCode r, r + 1⟩ :: lzwLoop r (r + 1) (firstFree r) [] x xs

/-- The bits of a code, bit 0 first (20_memory.md R62). -/
def WideCode.bits (c : WideCode) : List Bool := (List.range c.width).map c.code.testBit

/-- The bit string of a code sequence (41_lzw_encoder.md R154). -/
def codeBits (cs : List WideCode) : List Bool := cs.flatMap WideCode.bits

/-- The number of a bit list, bit 0 first. -/
def numOfBits : List Bool → Nat
  | [] => 0
  | b :: bs => b.toNat + 2 * numOfBits bs

/-- `ceil(n / d)`. -/
def ceilDiv (n d : Nat) : Nat := (n + d - 1) / d

/-- The packed bytes of a bit string, the last one padded with zeros (41_lzw_encoder.md R154). -/
def packBits (bits : List Bool) : List Byte :=
  (List.range (ceilDiv bits.length 8)).map fun i => BitVec.ofNat 8 (numOfBits ((bits.drop (8 * i)).take 8))

/-- `Pack(cs)` (41_lzw_encoder.md R154). -/
def pack (cs : List WideCode) : List Byte := packBits (codeBits cs)

/-- `Blocks(bs)` (41_lzw_encoder.md R155). -/
def blocks (bs : List Byte) : List Byte :=
  (List.range (ceilDiv bs.length Config.maxBlock)).flatMap fun i =>
    let chunk := (bs.drop (Config.maxBlock * i)).take Config.maxBlock
    BitVec.ofNat 8 chunk.length :: chunk

/-- `FrameBeats(xs, k)` (41_lzw_encoder.md R156). -/
def frameBeats (m : MinRoot) (k : Nat) (xs : List Nat) : List Beat :=
  ⟨BitVec.ofNat 8 (rootWidth m k), false, false⟩ ::
    ((blocks (pack (lzwCodes m k xs))).map (fun b => ⟨b, false, false⟩) ++ [⟨0, true, false⟩])

/-- The width law: the width of the code written after `j` data codes of a table generation (41_lzw_encoder.md R149). -/
def lawWidth (r j : Nat) : Nat := min 12 (max (r + 1) (bitlen (2 ^ r + 1 + j)))

/-- The widths of a code sequence follow the width law, `j` data codes into a generation; a Clear opens the next one
(41_lzw_encoder.md R149). -/
def widthsFollowLaw (r : Nat) : Nat → List WideCode → Bool
  | _, [] => true
  | j, c :: cs =>
    decide (c.width = lawWidth r j) && widthsFollowLaw r (if c.code = clearCode r then 0 else j + 1) cs

/-! ### The reference decoder (95_test_vectors.md section 4) -/

/-- The sub-blocks' data bytes: a length byte, that many bytes, and so on to the length 0, after which no byte remains. -/
def subBlockData : Nat → List Nat → Option (List Nat)
  | 0, _ => none
  | _ + 1, [] => none
  | fuel + 1, len :: rest =>
    if len = 0 then (if rest = [] then some [] else none)
    else if rest.length < len then none
    else (subBlockData fuel (rest.drop len)).map (rest.take len ++ ·)

/-- The bits of bytes, bit 0 of the first byte first. -/
def bytesBits (bs : List Nat) : List Bool := bs.flatMap fun b => (List.range 8).map b.testBit

/-- The state of the decoder: width, next free code, table of strings, previous code. -/
structure DecState where
  w    : Nat
  nxt  : Nat
  tab  : List (Nat × List Nat)
  prev : Option Nat

/-- `Init()` of the decoder. -/
def DecState.init (r : Nat) : DecState where
  w := r + 1
  nxt := firstFree r
  tab := (List.range (clearCode r)).map fun c => (c, [c])
  prev := none

/-- The string of a code. -/
def DecState.str (d : DecState) (c : Nat) : Option (List Nat) := d.tab.lookup c

/-- The string a data code stands for: an entry, or the entry about to be added (the KwKwK case). -/
def DecState.entry (d : DecState) (code : Nat) : Option (List Nat) :=
  match d.prev with
  | none => d.str code
  | some p =>
    if code < d.nxt ∧ (d.str code).isSome then d.str code
    else if code = d.nxt then
      match d.str p with
      | some (x :: ys) => some (x :: ys ++ [x])
      | _ => none
    else none

/-- The decoder after a data code with the string `ent`: the new entry, and the width. -/
def DecState.after (d : DecState) (code : Nat) (ent : List Nat) : DecState :=
  let d1 : DecState :=
    match d.prev with
    | none => d
    | some p =>
      if d.nxt < Config.tableSize then
        { d with tab := (d.nxt, (d.str p).getD [] ++ ent.take 1) :: d.tab, nxt := d.nxt + 1 }
      else d
  { d1 with prev := some code, w := grownWidth d1.w d1.nxt }

/-- The decoder's loop over the bits, `pos` of them read already; it answers the indices and the bits read. -/
def decodeLoop (r : Nat) : Nat → DecState → Nat → List Bool → Option (List Nat × Nat)
  | 0, _, _, _ => none
  | fuel + 1, d, pos, bits =>
    if bits.length < d.w then none
    else
      let code := numOfBits (bits.take d.w)
      let rest := bits.drop d.w
      let pos' := pos + d.w
      if code = clearCode r then decodeLoop r fuel (DecState.init r) pos' rest
      else if code = endCode r then some ([], pos')
      else
        match d.entry code with
        | none => none
        | some ent => (decodeLoop r fuel (d.after code ent) pos' rest).map fun p => (ent ++ p.1, p.2)

/-- `Decode(bytes)` of one frame's data bytes (95_test_vectors.md section 4). -/
def refDecode (bytes : List Nat) : Option (List Nat) :=
  match bytes with
  | [] => none
  | r :: rest =>
    match subBlockData (rest.length + 1) rest with
    | none => none
    | some data =>
      let bits := bytesBits data
      match decodeLoop r (bits.length + 1) (DecState.init r) 0 bits with
      | none => none
      | some (out, pos) => if ceilDiv pos 8 = data.length then some out else none

end Sys2Proof.Machine
end

