-- ==== Sys2Proof/Safety.lean ====
section
/-! DEFINITION. What the claims about runs are stated in: clean states (70_reset_and_hazards.md R244), the reset table (R240), the
invariant of every reachable state (41_lzw_encoder.md R150, 40_palette_quantizer.md R105, 10_state.md), what of a state no output
depends on (93_implementation_defined.md U1), runs of commands, and successful runs (70_reset_and_hazards.md R256). -/

namespace Sys2Proof.Machine

/-! ### States -/

/-- The halted state (60_exceptions.md R218). -/
abbrev State.halted (s : State) : Prop := s.err.internal = true

/-- The block is not halted. -/
abbrev State.running (s : State) : Prop := s.err.internal = false

/-- A clean state (70_reset_and_hazards.md R244). -/
def State.clean (s : State) : Bool :=
  !s.err.any && !s.lz.act && decide (s.pq.st = .idle) && s.lzo.isEmpty && s.rsp.isEmpty

/-- The reset table, for every field it gives a value; the arrays it leaves unspecified are not mentioned
(70_reset_and_hazards.md R240). -/
structure ResetTable (t : State) : Prop where
  errors      : t.err = ErrBits.reset
  act         : t.lz.act = false
  k           : t.lz.k = 0
  r           : t.lz.r = 0
  w           : t.lz.w = 0
  n           : t.lz.n = 0
  pv          : t.lz.pv = false
  pfx         : t.lz.pfx = 0
  dict        : t.lz.dict = []
  acc         : t.lz.acc = 0
  nb          : t.lz.nb = 0
  bl          : t.lz.bl = 0
  count       : t.lz.count = 0
  bytes       : t.lz.bytes = 0
  st          : t.pq.st = .idle
  any         : t.pq.any = false
  npix        : t.pq.npix = 0
  exn         : t.pq.exn = 0
  ovf         : t.pq.ovf = false
  seen        : ∀ b : BitVec 8, t.pq.seenAt b = false
  bkn         : t.pq.bkn = 0
  palN        : t.pq.palN = 0
  palP        : t.pq.palP = 0
  isExact     : t.pq.isExact = false
  lzo         : t.lzo = []
  rsp         : t.rsp = []
  lzoValid    : t.lzoValid = false
  rspValid    : t.rspValid = false
  errOut      : t.errOut = false

/-! ### The invariant -/

/-- The invariant of the LZ unit between commands (41_lzw_encoder.md R150; 10_state.md R24 to R31). -/
structure LzInv (p : Params) (l : LzUnit) : Prop where
  /-- The exponent of an open frame is legal (10_state.md R24). -/
  exponent   : l.act = true → 1 ≤ l.k.toNat ∧ l.k.toNat ≤ 8
  /-- The root width of an open frame (10_state.md R25). -/
  root       : l.act = true → l.r.toNat = rootWidth p.minRoot l.k.toNat
  /-- `2^r + 2 <= lz_n <= 4095` (41_lzw_encoder.md R150). -/
  nextRange  : l.act = true → firstFree l.r.toNat ≤ l.n.toNat ∧ l.n.toNat ≤ 4095
  /-- `lz_n <= 2^lz_w` (41_lzw_encoder.md R150). -/
  nextFits   : l.act = true → l.n.toNat ≤ 2 ^ l.w.toNat
  /-- `r + 1 <= lz_w <= 12` (41_lzw_encoder.md R150). -/
  widthRange : l.act = true → l.r.toNat + 1 ≤ l.w.toNat ∧ l.w.toNat ≤ 12
  /-- A prefix is valid only in an open frame (10_state.md R28). -/
  pvOpen     : l.pv = true → l.act = true
  /-- `lz_pv = 1` implies `lz_pfx < lz_n` (41_lzw_encoder.md R150). -/
  pfxRange   : l.pv = true → l.pfx.toNat < l.n.toNat
  /-- A valid prefix is an index of the frame or an inserted code: never Clear nor End (41_lzw_encoder.md R141). -/
  pfxData    : l.pv = true → l.pfx.toNat < 2 ^ l.k.toNat ∨ firstFree l.r.toNat ≤ l.pfx.toNat
  /-- `lz_nb <= 7` (41_lzw_encoder.md R150). -/
  nbRange    : l.nb.toNat ≤ 7
  /-- `lz_acc < 2^lz_nb` (41_lzw_encoder.md R150). -/
  accRange   : l.acc.toNat < 2 ^ l.nb.toNat
  /-- `lz_bl <= 254` (41_lzw_encoder.md R150). -/
  blRange    : l.bl.toNat ≤ 254
  /-- The code table is in canonical form (notes/assumptions/10.md). -/
  dictWf     : Dict.wf l.dict
  /-- Each entry's code lies in `2^r + 2 .. lz_n - 1` (10_state.md R29). -/
  dictCodes  : l.act = true → ∀ e ∈ l.dict, firstFree l.r.toNat ≤ e.code.toNat ∧ e.code.toNat < l.n.toNat
  /-- No two entries have one code (41_lzw_encoder.md R141). -/
  dictOnce   : l.act = true → (l.dict.map DictEntry.code).Nodup
  /-- The table holds one entry for each code from `2^r + 2` to `lz_n - 1` (10_state.md R29). -/
  dictSize   : l.act = true → l.dict.length + firstFree l.r.toNat = l.n.toNat

/-- The invariant of the PQ unit between commands (10_state.md R33 to R37; 40_palette_quantizer.md R105, R107). -/
structure PqInv (q : PqUnit) : Prop where
  /-- `q_exn` counts at most 256 colours (10_state.md R35). -/
  exnRange    : q.exn.toNat ≤ 256
  /-- After an overflow the list holds 256 colours (10_state.md R35, R52). -/
  ovfFull     : q.ovf = true → q.exn.toNat = 256
  /-- The listed colours are distinct (10_state.md R35). -/
  coloursOnce : q.colours.Nodup
  /-- `q_bkn` counts at most 256 buckets (10_state.md R36). -/
  bknRange    : q.bkn.toNat ≤ 256
  /-- The listed buckets are distinct (10_state.md R36). -/
  bucketsOnce : q.buckets.Nodup
  /-- A bucket is listed exactly when it is seen (10_state.md R36). -/
  seenListed  : ∀ b : BitVec 8, q.seenAt b = true ↔ b ∈ q.buckets
  /-- The representative of a seen bucket lies in it (10_state.md R36). -/
  repInBucket : ∀ b : BitVec 8, q.seenAt b = true → bucket (q.repAt b) = b
  /-- The bucket of every listed colour is seen (40_palette_quantizer.md R107). -/
  colourSeen  : ∀ c ∈ q.colours, q.seenAt (bucket c) = true
  /-- `q_any` says that a colour is listed (10_state.md R34, 40_palette_quantizer.md R107). -/
  anyListed   : q.any = true ↔ 0 < q.exn.toNat
  /-- Once a colour is listed, a bucket is (40_palette_quantizer.md R107). -/
  anyBucket   : q.any = true → 0 < q.bkn.toNat
  /-- `1 <= pal_n <= 256` of a built palette (40_palette_quantizer.md R105). -/
  palNRange   : q.st = .built → 1 ≤ q.palN.toNat ∧ q.palN.toNat ≤ 256
  /-- `pal_P = RoundP(pal_n)` of a built palette (40_palette_quantizer.md R105). -/
  palPValue   : q.st = .built → q.palP.toNat = roundP q.palN.toNat
  /-- The entries of a built palette are distinct (40_palette_quantizer.md R105). -/
  entriesOnce : q.st = .built → q.entries.Nodup
  /-- With no palette built, `pal_n`, `pal_P` and `q_exact` are 0 (10_state.md R37). -/
  unbuilt     : q.st ≠ .built → q.palN = 0 ∧ q.palP = 0 ∧ q.isExact = false

/-- The invariant of every reachable state: not halted (41_lzw_encoder.md R152), and both units' invariants. -/
structure State.Inv (s : State) : Prop where
  notHalted : s.err.internal = false
  lzInv     : LzInv s.params s.lz
  pqInv     : PqInv s.pq

/-! ### What no output depends on -/

/-- Two LZ units that differ at most in `lz_blk` at and above `lz_bl` (10_state.md R31). -/
structure LzUnit.SameUsed (l m : LzUnit) : Prop where
  others  : { l with blk := m.blk } = m
  pending : l.pending = m.pending

/-- Two PQ units that differ at most in `q_ex` at and above `q_exn`, in `q_rep` of buckets not seen, in `q_ord` at and above
`q_bkn`, and in `pal` at and above `pal_n` (10_state.md R35 to R37). -/
structure PqUnit.SameUsed (q u : PqUnit) : Prop where
  others  : { q with ex := u.ex, rep := u.rep, ord := u.ord, pal := u.pal } = u
  colours : q.colours = u.colours
  reps    : ∀ b : BitVec 8, q.seenAt b = true → q.repAt b = u.repAt b
  buckets : q.buckets = u.buckets
  entries : q.entries = u.entries

/-- Two states that differ at most in array entries that no rule reads (93_implementation_defined.md U1). -/
structure State.SameUsed (s t : State) : Prop where
  params : s.params = t.params
  err    : s.err = t.err
  lz     : s.lz.SameUsed t.lz
  pq     : s.pq.SameUsed t.pq
  lzo    : s.lzo = t.lzo
  rsp    : s.rsp = t.rsp
  port   : s.port = t.port

/-! ### Bits not sent yet -/

/-- The bits of a byte, bit 0 first. -/
def byteBits (b : Byte) : List Bool := (List.range 8).map b.getLsbD

/-- The packed bits the LZ unit holds back, oldest first: the bytes of the block buffer, then the bit buffer
(10_state.md R58). -/
def LzUnit.pendingBits (l : LzUnit) : List Bool :=
  l.pending.flatMap byteBits ++ (List.range l.nb.toNat).map l.acc.getLsbD

/-! ### Runs -/

/-- Execute commands one after the other (20_memory.md R72). -/
def runInstrs : List Instr → State → Host.Outcome State Fault Refusal
  | [], s => .next s
  | i :: is, s =>
    match exec i s with
    | .next t => runInstrs is t
    | .fault r => .fault r
    | .refused r => .refused r

/-- The commands of one LZ frame (30_encoding.md R90, `LZ_FRAME`). -/
def frameInstrs (k : BitVec 4) (xs : List Index) : List Instr :=
  .lzStart k :: (xs.map Instr.lzIndex ++ [.lzFinish])

/-- The commands that collect pixels and build a palette (40_palette_quantizer.md R100). -/
def paletteInstrs (cs : List Colour) (q : Bool) : List Instr :=
  .qBegin :: (cs.map Instr.qPixel ++ [.qBuild q])

/-- The first of each class of elements with equal `f`, in order of first occurrence (40_palette_quantizer.md R109, R110). -/
def firstOccurrences {β : Type} [DecidableEq β] (f : Colour → β) (cs : List Colour) : List Colour :=
  cs.foldl (fun acc c => if acc.any (fun d => decide (f d = f c)) then acc else acc ++ [c]) []

/-- What a run shows: the beats and words the host consumed, how many frames were opened, and the state at its end. -/
structure RunRecord where
  beats  : List Beat
  words  : List Word
  opened : Nat
  final  : State
  deriving DecidableEq, Repr

/-- The beats the host consumes in the next step: the oldest one when it takes a beat and one is waiting. -/
def State.beatTaken (s : State) : List Beat :=
  match nextEvent s.cmdReady s.port with
  | some (.takeBeat, _) => s.lzo.take 1
  | _ => []

/-- The words the host consumes in the next step. -/
def State.wordTaken (s : State) : List Word :=
  match nextEvent s.cmdReady s.port with
  | some (.takeWord, _) => s.rsp.take 1
  | _ => []

/-- The record of `n` steps; none when a step stops. -/
def record : Nat → State → Option RunRecord
  | 0, s => some { beats := [], words := [], opened := 0, final := s }
  | n + 1, s =>
    match step s with
    | .next t =>
      (record n t).map fun r =>
        { r with
          beats := s.beatTaken ++ r.beats, words := s.wordTaken ++ r.words,
          opened := (if !s.lz.act && t.lz.act then 1 else 0) + r.opened }
    | .fault _ => none
    | .refused _ => none

/-- The run has ended: nothing is left for the host to do, and it has consumed every beat and word
(70_reset_and_hazards.md R256). -/
def RunRecord.ended (r : RunRecord) : Bool :=
  r.final.port.isEmpty && r.final.lzo.isEmpty && r.final.rsp.isEmpty

/-- A successful run (70_reset_and_hazards.md R256): at its end every error bit is 0, no frame is open, and every frame the host
opened was closed by a consumed final beat with `last = 1` and `abort = 0`. -/
def RunRecord.successful (r : RunRecord) : Bool :=
  r.ended && !r.final.err.any && !r.final.lz.act && r.beats.all (fun b => !b.abort)
    && decide ((r.beats.filter fun b => b.last && !b.abort).length = r.opened)

/-! ### Rules stated once for the claims -/

/-- The phase in which a command is legal (60_exceptions.md R214). -/
def legalPhase (i : Instr) (s : State) : Bool :=
  match i with
  | .lzStart _ => !s.lz.act
  | .lzIndex _ => s.lz.act
  | .lzFinish => s.lz.act
  | .qPixel _ => decide (s.pq.st = .collect)
  | .qBuild _ => decide (s.pq.st = .collect)
  | .qMap _ => decide (s.pq.st = .built)
  | .qRdpal _ => decide (s.pq.st = .built)
  | .qBegin => true
  | .nop => true
  | .rdreg _ => true
  | .clrerr => true

/-- The value check of a command in its legal phase: the error it raises, if any (60_exceptions.md R216, items 5 and 6). -/
def valueError (i : Instr) (s : State) : Option ErrKind :=
  match i with
  | .lzStart k => if 1 ≤ k.toNat ∧ k.toNat ≤ 8 then none else some .input
  | .lzIndex x => if x.toNat < 2 ^ s.lz.k.toNat then none else some .input
  | .lzFinish => if s.lz.pv then none else some .input
  | .qBuild q =>
    if s.pq.any = false then some .input else if s.pq.ovf = true ∧ q = false then some .palette else none
  | _ => none

/-- The one error an accepted word raises in a block that is not halted, in the order of 60_exceptions.md R216. -/
def errorOf (w : Word) (s : State) : Option ErrKind :=
  match decode w with
  | .reject _ => some .opcode
  | .command i => if legalPhase i s then valueError i s else some .cmd

/-- The bits of `v` from bit `lo` on, `n` of them, are the number `x`. -/
def hasField (v : Word) (lo n x : Nat) : Prop := (v.extractLsb' lo n).toNat = x

/-- The channels of a colour as numbers (00_scope.md R13). -/
def channels (c : Colour) : Nat × Nat × Nat := (c.toNat / 2 ^ 16, c.toNat / 2 ^ 8 % 2 ^ 8, c.toNat % 2 ^ 8)

/-- 40_palette_quantizer.md R111: the fields of a `Q_BUILD` response word. -/
def isBuildResponse (v : Word) (q : PqUnit) : Prop :=
  hasField v 0 9 q.palN.toNat ∧ hasField v 9 7 0 ∧ hasField v 16 9 q.palP.toNat ∧ hasField v 25 3 0 ∧
    v.getLsbD 28 = q.isExact ∧ hasField v 29 3 0

/-- The state after `Abort()` with `ErrInput` recorded (41_lzw_encoder.md R147, R161, R163). -/
def abortedState (s : State) : State :=
  { s with
    err := { s.err with input := true },
    lzo := s.lzo ++ [{ data := 0, last := true, abort := true }],
    lz := { s.lz with act := false, pv := false, acc := 0, nb := 0, bl := 0, bytes := s.lz.bytes + 1 } }

/-- `t` holds and has sent the packed bits of `s` followed by `bits`: at most one full sub-block of 255 bytes was sent, behind its length
byte, and `lz_bytes` counts its beats (41_lzw_encoder.md R142, R143, R144; 20_memory.md R62). -/
def bitsAppended (s t : State) (bits : List Bool) : Prop :=
  ∃ bytes : List Byte,
    bytes.flatMap byteBits ++ t.lz.pendingBits = s.lz.pendingBits ++ bits ∧
    ((bytes = [] ∧ t.lzo = s.lzo ∧ t.lz.bytes = s.lz.bytes) ∨
     (bytes.length = 255 ∧ t.lzo = s.lzo ++ ((255 : Byte) :: bytes).map (fun b => { data := b, last := false, abort := false }) ∧
      t.lz.bytes = s.lz.bytes + 256))

end Sys2Proof.Machine
end

