-- ==== Sys2Proof/Certificates/Slice0/Obligations.lean ====
section
/-! DEFINITION. The statements for the provers, each with the rule of spec/ it formalises or rests on. -/

open Sys2Proof Sys2Proof.Machine

/-! ### Encoding (30_encoding.md) -/

/-- Decode and encode agree: the word of every command, with every operand at every value its field admits, decodes to that
command (R82, R83, R87, R89). -/
def Obligations.DecodeOfEncodeIsTheCommand : Prop :=
  ∀ i : Instr, decode (encode i) = .command i

/-- A command word is the word of the command it decodes to: each command has one word (R82, R83, R88, R89). -/
def Obligations.EncodeOfDecodedCommandIsTheWord : Prop :=
  ∀ (w : Word) (i : Instr), decode w = .command i → encode i = w

/-- R92: every word with opcode 0xB..0xF is a reserved-opcode error; a word with opcode 0x0..0xA is a reserved-bit error when it sets
a bit of its operand area that its opcode's mask does not hold, and otherwise it is one command. -/
def Obligations.DecodeIsTotalOnAllWords : Prop :=
  ∀ w : Word,
    (11 ≤ (opField w).toNat ∧ decode w = .reject .reservedOpcode) ∨
    (∃ op : Opcode, (opField w).toNat ≤ 10 ∧ Opcode.ofField (opField w) = some op ∧
      ((∃ j : Nat, j < 28 ∧ w.getLsbD j = true ∧ op.operandMask.getLsbD j = false) ∧
          decode w = .reject (.reservedBits op)
       ∨ (∀ j : Nat, j < 28 → w.getLsbD j = true → op.operandMask.getLsbD j = true) ∧
          ∃! i : Instr, decode w = .command i))

/-- Words written out from the spec's encodings (R82, R89 and 95_test_vectors.md) decode to the commands they stand for. -/
def Obligations.SpecWordsDecode : Prop :=
  decode 0x00000000 = .command .nop ∧ decode 0x10000002 = .command (.lzStart 2) ∧
  decode 0x200000FF = .command (.lzIndex 255) ∧ decode 0x30000000 = .command .lzFinish ∧
  decode 0x40000000 = .command .qBegin ∧ decode 0x50123456 = .command (.qPixel 0x123456) ∧
  decode 0x60000001 = .command (.qBuild true) ∧ decode 0x60000000 = .command (.qBuild false) ∧
  decode 0x70640000 = .command (.qMap 0x640000) ∧ decode 0x80000001 = .command (.qRdpal 1) ∧
  decode 0x9000000F = .command (.rdreg 15) ∧ decode 0xA0000000 = .command .clrerr ∧
  decode 0xB0000000 = .reject .reservedOpcode ∧ decode 0x71000000 = .reject (.reservedBits .qMap) ∧
  decode 0x00000001 = .reject (.reservedBits .nop)

/-- R89: an operand out of its field's range is an assembly error, with no word, for every operand of every form; a line in range has the
word of R89's table, which decodes to the command the line stands for. -/
def Obligations.AssemblerGivesTheTableWords : Prop :=
  (∀ l : AsmLine, l.wellFormed = false → assemble l = none) ∧
  (∀ l : AsmLine, l.wellFormed = true → ∃ w : Word, assemble l = some w ∧ decode w = .command l.toInstr) ∧
  assemble .nop = some 0x00000000 ∧
  (∀ k < 16, assemble (.lzStart k) = some (Word.ofNat (0x10000000 ||| k))) ∧
  (∀ i < 256, assemble (.lzIndex i) = some (Word.ofNat (0x20000000 ||| i))) ∧
  assemble .lzFinish = some 0x30000000 ∧ assemble .qBegin = some 0x40000000 ∧
  (∀ r < 256, ∀ g < 256, ∀ b < 256,
    assemble (.qPixelRgb r g b) = some (Word.ofNat (0x50000000 ||| r <<< 16 ||| g <<< 8 ||| b)) ∧
    assemble (.qMapRgb r g b) = some (Word.ofNat (0x70000000 ||| r <<< 16 ||| g <<< 8 ||| b))) ∧
  (∀ c < 2 ^ 24,
    assemble (.qPixelHex c) = some (Word.ofNat (0x50000000 ||| c)) ∧
    assemble (.qMapHex c) = some (Word.ofNat (0x70000000 ||| c))) ∧
  (∀ q < 2, assemble (.qBuild q) = some (Word.ofNat (0x60000000 ||| q))) ∧
  (∀ i < 256, assemble (.qRdpal i) = some (Word.ofNat (0x80000000 ||| i))) ∧
  (∀ n < 16, assemble (.rdregNum n) = some (Word.ofNat (0x90000000 ||| n))) ∧
  (∀ r : RegName, assemble (.rdregName r) = some (Word.ofNat (0x90000000 ||| r.number.toNat)) ∧
    RegName.ofNumber r.number = r) ∧
  assemble .clrerr = some 0xA0000000 ∧
  (∀ k, 16 ≤ k → assemble (.lzStart k) = none) ∧
  (∀ i, 256 ≤ i → assemble (.lzIndex i) = none) ∧
  (∀ r g b, 256 ≤ r ∨ 256 ≤ g ∨ 256 ≤ b → assemble (.qPixelRgb r g b) = none ∧ assemble (.qMapRgb r g b) = none) ∧
  (∀ c, 2 ^ 24 ≤ c → assemble (.qPixelHex c) = none ∧ assemble (.qMapHex c) = none) ∧
  (∀ q, 2 ≤ q → assemble (.qBuild q) = none) ∧
  (∀ i, 256 ≤ i → assemble (.qRdpal i) = none) ∧
  (∀ n, 16 ≤ n → assemble (.rdregNum n) = none)

/-- R90: the words of the four pseudo-instructions. -/
def Obligations.PseudoInstructionsExpand : Prop :=
  (∀ k < 16, ∀ is : List Nat, (∀ i ∈ is, i < 256) →
    (Pseudo.lzFrame k is).words =
      some (Word.ofNat (0x10000000 ||| k) :: (is.map fun i => Word.ofNat (0x20000000 ||| i)) ++ [0x30000000])) ∧
  (∀ cs : List Nat, (∀ c ∈ cs, c < 2 ^ 24) →
    (Pseudo.qPixels cs).words = some (cs.map fun c => Word.ofNat (0x50000000 ||| c))) ∧
  (∀ p ≤ 256, (Pseudo.qRdpals p).words = some ((List.range p).map fun i => Word.ofNat (0x80000000 ||| i))) ∧
  Pseudo.rdstatus.words = some [0x90000001]

/-! ### The step and the ports -/

/-- A step runs the decoded command: with the word of a command next at the command port and `cmd_ready` high, the step is `exec` of
that command at the state without the word (00_scope.md R10, 30_encoding.md R80); with any word there, it is the acceptance of
that word. That the host's words stand in the list `port` is the model's form (notes/assumptions/1.md). -/
def Obligations.StepRunsTheDecodedCommand : Prop :=
  (∀ (s : State) (w : Word) (i : Instr) (rest : List HostEvent),
    s.port = .command w :: rest → s.cmdReady = true → decode w = .command i →
    step s = exec i { s with port := rest }) ∧
  (∀ (s : State) (w : Word) (rest : List HostEvent),
    s.port = .command w :: rest → s.cmdReady = true → step s = acceptWord w { s with port := rest })

/-- 30_encoding.md R84: a word with a reserved opcode spells no command; accepted, it sets `err_opcode`, changes nothing else, and appends
no beat and no word. -/
def Obligations.ReservedOpcodeOnlySetsErrOpcode : Prop :=
  ∀ (s : State) (w : Word), s.running → 0xB ≤ (opField w).toNat →
    (∀ i : Instr, decode w ≠ .command i) ∧
    acceptWord w s = .next { s with err := { s.err with opcode := true } }

/-- 30_encoding.md R85: a word with a defined opcode and a reserved operand bit set raises `ErrOpcode`, with no other effect, except
that a response-bearing opcode (0x6 to 0x9) still appends the failure word. -/
def Obligations.ReservedBitOnlySetsErrOpcode : Prop :=
  ∀ (s : State) (w : Word) (op : Opcode) (j : Nat), s.running →
    Opcode.ofField (opField w) = some op → j < 28 → w.getLsbD j = true → op.operandMask.getLsbD j = false →
    acceptWord w s = .next { s with
      err := { s.err with opcode := true },
      rsp := if 6 ≤ (opField w).toNat ∧ (opField w).toNat ≤ 9 then s.rsp ++ [0xFFFFFFFF] else s.rsp }

/-- 60_exceptions.md R218: `HaltedStep`. In the halted state an accepted `RDREG` answers the register, or the failure word when
`cmd[27:4]` is not 0; opcodes 0x6, 0x7, 0x8 answer the failure word; every other word has no effect. No state changes, no error
bit is set and no beat is appended. Only reset leaves the state, and reset does. -/
def Obligations.HaltedBlockOnlyAnswers : Prop :=
  ∀ s : State, s.halted →
    (∀ w : Word, acceptWord w s = .next { s with
      rsp :=
        if opField w = 0x9#4 then
          if w.extractLsb' 4 24 = 0#24 then s.rsp ++ [regValue s (RegName.ofNumber (w.extractLsb' 0 4))]
          else s.rsp ++ [0xFFFFFFFF]
        else if opField w = 0x6#4 ∨ opField w = 0x7#4 ∨ opField w = 0x8#4 then s.rsp ++ [0xFFFFFFFF]
        else s.rsp }) ∧
    (∀ t : State, step s = .next t → (t.running ↔ ∃ rest, nextEvent s.cmdReady s.port = some (.resetEdge, rest)))

/-- 60_exceptions.md R230: with no event offered the block is idle and all of its state is kept (`port`: notes/assumptions/1.md). -/
def Obligations.IdleBlockKeepsItsState : Prop :=
  ∀ s : State, s.port = [] → step s = .next s

/-- 70_reset_and_hazards.md R240: a clock edge with `rst_n` low gives every field its value of the reset table, from any state, the
halted one included, and discards every beat and word not consumed; the parameters stay (42_control.md R193), and so does what
the host does next (notes/assumptions/13.md). The machine's reset state meets the same table. -/
def Obligations.ResetGivesTheResetTable : Prop :=
  ResetTable State.reset ∧
  ∀ (s : State) (rest : List HostEvent), s.port = .resetEdge :: rest →
    ∃ t : State, step s = .next t ∧ ResetTable t ∧ t.params = s.params ∧ t.port = rest

/-- 70_reset_and_hazards.md R240: right after reset `ID` reads 0x4C5A5131, `STATUS` 0, `CAPS` 0x000100C2 or, with
`LZW_MIN_ROOT = 1`, 0x000100C1, and every other register 0. -/
def Obligations.RegistersReadAfterReset : Prop :=
  ∀ (p : Params) (n : BitVec 4),
    exec (.rdreg n) (State.resetFor p) = .next { State.resetFor p with
      rsp := [if n = 0 then 0x4C5A5131
        else if n = 2 then (match p.minRoot with | .two => 0x000100C2 | .one => 0x000100C1)
        else 0] }

/-- 10_state.md R38: the block only appends to the two streams, and the host consumes them from the front, in order; a clock edge
with `rst_n` low empties both. The host's events and a take from an empty stream are the model's form (notes/assumptions/1.md and
12.md). -/
def Obligations.StreamsAreFirstInFirstOut : Prop :=
  ∀ (s t : State), step s = .next t →
    match nextEvent s.cmdReady s.port with
    | some (.command _, _) => s.lzo <+: t.lzo ∧ s.rsp <+: t.rsp
    | some (.takeBeat, _) => t.lzo = s.lzo.tail ∧ t.rsp = s.rsp
    | some (.takeWord, _) => t.lzo = s.lzo ∧ t.rsp = s.rsp.tail
    | some (.resetEdge, _) => t.lzo = [] ∧ t.rsp = []
    | none => t.lzo = s.lzo ∧ t.rsp = s.rsp

/-- 30_encoding.md R86, its first sentences: each accepted word with opcode 0x6 to 0x9 appends exactly one word to `rsp`, whatever the
state and the outcome, and no other word appends to it. Accepted words stand in `port` (notes/assumptions/1.md). -/
def Obligations.EveryResponseBearingWordAnswersOnce : Prop :=
  ∀ (s : State) (w : Word) (rest : List HostEvent),
    s.port = .command w :: rest → s.cmdReady = true →
    ∃ t : State, step s = .next t ∧
      (6 ≤ (opField w).toNat ∧ (opField w).toNat ≤ 9 → ∃ v : Word, t.rsp = s.rsp ++ [v]) ∧
      ((opField w).toNat < 6 ∨ 9 < (opField w).toNat → t.rsp = s.rsp)

/-- 30_encoding.md R86: `Q_BUILD`, `Q_MAP` and `Q_RDPAL` each append one word. Bit 31 of it is 0 when the command succeeds, that is, in a
block that is not halted, in its legal phase, with no value error; otherwise it is the failure word. So the failure word is never
a result. An `RDREG` of any register but the counters 8, 9 and 10 never answers the failure word either. -/
def Obligations.FailureWordIsNoResult : Prop :=
  (∀ (s : State) (i : Instr), (∃ q, i = .qBuild q) ∨ (∃ c, i = .qMap c) ∨ (∃ x, i = .qRdpal x) →
    ∃ (t : State) (v : Word), exec i s = .next t ∧ t.rsp = s.rsp ++ [v] ∧
      (s.running ∧ legalPhase i s = true ∧ valueError i s = none → v.getLsbD 31 = false) ∧
      (¬(s.running ∧ legalPhase i s = true ∧ valueError i s = none) → v = 0xFFFFFFFF)) ∧
  (∀ (s : State) (n : BitVec 4), n ≠ 8 → n ≠ 9 → n ≠ 10 →
    ∃ v : Word, exec (.rdreg n) s = .next { s with rsp := s.rsp ++ [v] } ∧ v ≠ 0xFFFFFFFF)

/-- 70_reset_and_hazards.md R250, R251, with output buffers of a given depth `d` (the model's reading, notes/assumptions/4.md, 5.md and
21.md). While a stream holds more than `d` entries no command is accepted, whatever the host offers: the waiting commands stay
offered, in their order, while the host takes a beat, takes a word or resets the block, and a host that only offers commands is
stuck. Once both streams hold at most `d` entries, the next command is accepted. With unbounded streams a command is always
accepted. -/
def Obligations.FullBufferHoldsOffCommands : Prop :=
  (∀ (s : State) (d : PNat), s.params.outDepth = some d → d.val < s.lzo.length ∨ d.val < s.rsp.length →
    (∀ (w : Word) (rest : List HostEvent), nextEvent s.cmdReady s.port ≠ some (.command w, rest)) ∧
    (∀ (ws : List Word) (rest : List HostEvent), s.port = ws.map HostEvent.command ++ .takeBeat :: rest →
      step s = .next { s with lzo := s.lzo.tail, port := ws.map HostEvent.command ++ rest }) ∧
    (∀ (ws : List Word) (rest : List HostEvent), s.port = ws.map HostEvent.command ++ .takeWord :: rest →
      step s = .next { s with rsp := s.rsp.tail, port := ws.map HostEvent.command ++ rest }) ∧
    (∀ (ws : List Word) (rest : List HostEvent), s.port = ws.map HostEvent.command ++ .resetEdge :: rest →
      step s = .next { State.resetFor s.params with port := ws.map HostEvent.command ++ rest }) ∧
    (∀ ws : List Word, s.port = ws.map HostEvent.command → step s = .next s)) ∧
  (∀ (s : State) (d : PNat) (w : Word) (rest : List HostEvent), s.params.outDepth = some d →
    s.lzo.length ≤ d.val → s.rsp.length ≤ d.val → s.port = .command w :: rest →
    step s = acceptWord w { s with port := rest }) ∧
  (∀ (s : State) (w : Word) (rest : List HostEvent), s.params.outDepth = none → s.port = .command w :: rest →
    step s = acceptWord w { s with port := rest })

/-- No step stops: there is no trap and no refused word (60_exceptions.md R210, R221, R231; notes/assumptions/7.md). -/
def Obligations.EveryStepGivesANextState : Prop :=
  ∀ s : State, ∃ t : State, step s = .next t

/-- No step changes a parameter (42_control.md R193). -/
def Obligations.ParametersNeverChange : Prop :=
  ∀ s t : State, step s = .next t → t.params = s.params

/-! ### Errors (60_exceptions.md) -/

/-- Error bits are sticky (10_state.md R22, 60_exceptions.md R210, R218): an accepted word clears no error bit, except that `CLRERR` in a
block that is not halted clears all but `err_internal`; and only the checks of 41_lzw_encoder.md R152, in an LZ command, set
`err_internal`. -/
def Obligations.ErrorBitsAreSticky : Prop :=
  ∀ (s t : State) (w : Word) (rest : List HostEvent),
    s.port = .command w :: rest → s.cmdReady = true → step s = .next t →
    (w ≠ 0xA0000000 → ∀ e : ErrKind, s.err.bit e = true → t.err.bit e = true) ∧
    (w = 0xA0000000 → s.running → t.err = { input := false, palette := false, internal := false, cmd := false, opcode := false }) ∧
    (s.halted → t.err = s.err) ∧
    (s.running → t.halted → (opField w).toNat = 1 ∨ (opField w).toNat = 2 ∨ (opField w).toNat = 3)

/-- 60_exceptions.md R214: a command in a phase where it is not legal raises `ErrCmd` and changes nothing else, except that `Q_BUILD`,
`Q_MAP` and `Q_RDPAL` append the failure word; a command in a legal phase does not raise `ErrCmd`. -/
def Obligations.IllegalPhaseOnlyRaisesErrCmd : Prop :=
  ∀ (i : Instr) (s : State), s.running →
    (legalPhase i s = false →
      exec i s = .next { s with
        err := { s.err with cmd := true },
        rsp := match i with
          | .qBuild _ => s.rsp ++ [0xFFFFFFFF]
          | .qMap _ => s.rsp ++ [0xFFFFFFFF]
          | .qRdpal _ => s.rsp ++ [0xFFFFFFFF]
          | _ => s.rsp }) ∧
    (legalPhase i s = true → ∃ t : State, exec i s = .next t ∧ (s.err.cmd = false → t.err.cmd = false))

/-- 60_exceptions.md R216: an accepted word raises at most one error, the first in the order halted (none), reserved opcode, reserved
bit, phase, value, palette; item 7 is unreachable under the invariant (R213). Nothing but `CLRERR` changes another error bit. Accepted words
stand in `port` (notes/assumptions/1.md). -/
def Obligations.OneErrorInPriorityOrder : Prop :=
  ∀ (s : State) (w : Word) (rest : List HostEvent), s.port = .command w :: rest → s.cmdReady = true →
    ∃ t : State, step s = .next t ∧
      (s.halted → t.err = s.err) ∧
      (s.Inv → t.err =
        match errorOf w s with
        | some e => s.err.set e
        | none => if w = 0xA0000000 then { input := false, palette := false, internal := false, cmd := false, opcode := false }
                  else s.err)

/-- 60_exceptions.md R217: `err` is the OR of the five error bits, so an error that a step records shows in that step's result, and
`CLRERR` lowers it in a block that is not halted. -/
def Obligations.ErrOutputIsTheOrOfTheBits : Prop :=
  (∀ s : State, s.errOut = (s.err.input || s.err.palette || s.err.internal || s.err.cmd || s.err.opcode)) ∧
  (∀ (s : State) (e : ErrKind), (raise e s).errOut = true ∧ (raise e s).err.bit e = true ∧
    ∀ f : ErrKind, f ≠ e → (raise e s).err.bit f = s.err.bit f) ∧
  (∀ s : State, s.running → ∃ t : State, exec .clrerr s = .next t ∧ t.errOut = false)

/-! ### Control commands (42_control.md) -/

/-- R190: `NOP`, the word 0, changes no state and appends no beat and no word, in every phase and halted or not; with a reserved bit set
the word raises `ErrOpcode` instead (R85), in a block that is not halted. It is the only command that can never change state: every
other one changes some state. -/
def Obligations.NopChangesNothing : Prop :=
  encode .nop = 0x00000000 ∧
  (∀ s : State, exec .nop s = .next s) ∧
  (∀ (s : State) (w : Word), s.running → opField w = 0#4 → w ≠ 0 →
    acceptWord w s = .next { s with err := { s.err with opcode := true } }) ∧
  (∀ i : Instr, i ≠ .nop → ∃ s : State, exec i s ≠ .next s)

/-- R192: `CLRERR` clears `err_input`, `err_palette`, `err_cmd` and `err_opcode`, leaves `err_internal` and everything else, and does
nothing in the halted state; `STATUS` bits 8, 9, 11 and 12 become 0, every other bit of it stays. -/
def Obligations.ClrerrClearsTheRecoverableBits : Prop :=
  encode .clrerr = 0xA0000000 ∧
  ∀ s : State,
    (s.running → ∃ t : State, exec .clrerr s = .next t ∧
      t = { s with err := { input := false, palette := false, internal := s.err.internal, cmd := false, opcode := false } } ∧
      ∀ j : Nat, (regValue t .status).getLsbD j =
        if j = 8 ∨ j = 9 ∨ j = 11 ∨ j = 12 then false else (regValue s .status).getLsbD j) ∧
    (s.halted → exec .clrerr s = .next s)

/-- `RDREG` appends one word and changes nothing else, halted or not (R191); `ID`, `STATUS` and `CAPS` read as 10_state.md R41, R42 and R43
give, bit by bit, reserved bits 0. -/
def Obligations.RdregReadsIdStatusCaps : Prop :=
  ∀ (s : State) (n : BitVec 4), ∃ v : Word, exec (.rdreg n) s = .next { s with rsp := s.rsp ++ [v] } ∧
    (n = 0 → v = 0x4C5A5131) ∧
    (n = 1 →
      v.getLsbD 0 = s.lz.act ∧ v.getLsbD 1 = s.lz.pv ∧
      hasField v 2 2 (match s.pq.st with | .idle => 0 | .collect => 1 | .built => 2) ∧
      v.getLsbD 4 = s.pq.isExact ∧ hasField v 5 3 0 ∧ v.getLsbD 8 = s.err.input ∧ v.getLsbD 9 = s.err.palette ∧
      v.getLsbD 10 = s.err.internal ∧ v.getLsbD 11 = s.err.cmd ∧ v.getLsbD 12 = s.err.opcode ∧ hasField v 13 19 0) ∧
    (n = 2 → hasField v 0 4 s.params.minRoot.toNat ∧ hasField v 4 4 12 ∧ hasField v 8 9 256 ∧ hasField v 17 15 0)

/-- `RDREG` of the LZ registers 3 to 9 (R191, 10_state.md R45 to R50): the listed field, other bits 0. -/
def Obligations.RdregReadsTheLzUnit : Prop :=
  ∀ (s : State) (n : BitVec 4), ∃ v : Word, exec (.rdreg n) s = .next { s with rsp := s.rsp ++ [v] } ∧
    (n = 3 → v.toNat = s.lz.k.toNat) ∧ (n = 4 → v.toNat = s.lz.r.toNat) ∧ (n = 5 → v.toNat = s.lz.w.toNat) ∧
    (n = 6 → v.toNat = s.lz.n.toNat) ∧
    (n = 7 → v.getLsbD 31 = s.lz.pv ∧ hasField v 12 19 0 ∧ hasField v 0 12 s.lz.pfx.toNat) ∧
    (n = 8 → v = s.lz.count) ∧ (n = 9 → v = s.lz.bytes)

/-- `RDREG` of the PQ registers 10 to 15 (R191, 10_state.md R51 to R55, R44): the listed field, other bits 0; `Q_GCTSZ` is
`log2(pal_P) - 1` when a palette is built, for each of the eight palette sizes, else 0. -/
def Obligations.RdregReadsThePqUnit : Prop :=
  ∀ (s : State) (n : BitVec 4), ∃ v : Word, exec (.rdreg n) s = .next { s with rsp := s.rsp ++ [v] } ∧
    (n = 10 → v = s.pq.npix) ∧
    (n = 11 → v.getLsbD 31 = s.pq.ovf ∧ hasField v 9 22 0 ∧ hasField v 0 9 s.pq.exn.toNat) ∧
    (n = 12 → v.toNat = s.pq.bkn.toNat) ∧ (n = 13 → v.toNat = s.pq.palN.toNat) ∧ (n = 14 → v.toNat = s.pq.palP.toNat) ∧
    (n = 15 → (s.pq.st ≠ .built → v = 0) ∧
      (s.pq.st = .built → ∀ j < 8, s.pq.palP.toNat = 2 ^ (j + 1) → v.toNat = j))

/-- 20_memory.md R69: `RDREG`, `Q_RDPAL` and `Q_MAP` change no state other than appending their word, so the same read twice with no command
in between gives the same word twice. -/
def Obligations.ReadsGiveTheSameWordTwice : Prop :=
  ∀ (i : Instr) (s : State), s.running →
    (∃ n, i = .rdreg n) ∨ (s.pq.st = .built ∧ ((∃ x, i = .qRdpal x) ∨ (∃ c, i = .qMap c))) →
    ∃ v : Word, runInstrs [i] s = .next { s with rsp := s.rsp ++ [v] } ∧
      runInstrs [i, i] s = .next { s with rsp := s.rsp ++ [v, v] }

/-! ### The palette quantizer (40_palette_quantizer.md) -/

/-- R101: `Bucket(c)` is the top 3 bits of R, the top 3 bits of G and the top 2 bits of B, so two colours share a bucket exactly when
those bits agree, and each of the 256 buckets holds a colour. -/
def Obligations.BucketIsTheTopBits : Prop :=
  (∀ c : Colour, (bucket c).toNat =
    (channels c).1 / 2 ^ 5 * 2 ^ 5 + (channels c).2.1 / 2 ^ 5 * 2 ^ 2 + (channels c).2.2 / 2 ^ 6) ∧
  (∀ c d : Colour, bucket c = bucket d ↔
    (channels c).1 / 2 ^ 5 = (channels d).1 / 2 ^ 5 ∧ (channels c).2.1 / 2 ^ 5 = (channels d).2.1 / 2 ^ 5 ∧
      (channels c).2.2 / 2 ^ 6 = (channels d).2.2 / 2 ^ 6) ∧
  (∀ b : BitVec 8, ∃ c : Colour, bucket c = b)

/-- R102: `D(a, b)` is the exact sum of the squared channel differences, each difference in -255..255; it is at most 195075 and fits 18
bits; and comparing `D` is comparing Euclidean distances. -/
def Obligations.DistanceIsExact : Prop :=
  (∀ a b : Colour,
    (colourDist a b : Int) =
      ((channels a).1 - (channels b).1 : Int) ^ 2 + ((channels a).2.1 - (channels b).2.1 : Int) ^ 2
        + ((channels a).2.2 - (channels b).2.2 : Int) ^ 2 ∧
    (((channels a).1 : Int) - (channels b).1).natAbs ≤ 255 ∧ (((channels a).2.1 : Int) - (channels b).2.1).natAbs ≤ 255 ∧
    (((channels a).2.2 : Int) - (channels b).2.2).natAbs ≤ 255 ∧
    colourDist a b ≤ 195075 ∧ colourDist a b < 2 ^ 18) ∧
  (∀ a b c d : Colour, colourDist a b < colourDist c d ↔ Real.sqrt (colourDist a b) < Real.sqrt (colourDist c d))

/-- R104: for a colour count `n` in 1..256, `RoundP(n)` is 2 for `n <= 2`, and otherwise the least power of two that is at least `n`,
one of the eight sizes 2, 4 .. 256. -/
def Obligations.PaletteSizeIsTheLeastPowerOfTwo : Prop :=
  ∀ n : Nat, 1 ≤ n → n ≤ 256 →
    (n ≤ 2 → roundP n = 2) ∧
    (2 < n → ∃ j, roundP n = 2 ^ j ∧ n ≤ 2 ^ j ∧ ∀ m, n ≤ 2 ^ m → j ≤ m) ∧
    (∃ j, 1 ≤ j ∧ j ≤ 8 ∧ roundP n = 2 ^ j)

/-- R106: `Q_BEGIN` starts a new collection in every phase: the fields the rule lists, nothing else; `STATUS` then has
`Q_ST` = 1 and `Q_EXACT` = 0; and a second `Q_BEGIN` leaves the same state as one. -/
def Obligations.QBeginStartsACollection : Prop :=
  encode .qBegin = 0x40000000 ∧
  ∀ s : State, s.running → ∃ t : State, exec .qBegin s = .next t ∧
    t.pq.st = .collect ∧ t.pq.any = false ∧ t.pq.npix = 0 ∧ t.pq.exn = 0 ∧ t.pq.ovf = false ∧
    (∀ b : BitVec 8, t.pq.seenAt b = false) ∧ t.pq.bkn = 0 ∧ t.pq.palN = 0 ∧ t.pq.palP = 0 ∧ t.pq.isExact = false ∧
    t.pq.ex = s.pq.ex ∧ t.pq.rep = s.pq.rep ∧ t.pq.ord = s.pq.ord ∧ t.pq.pal = s.pq.pal ∧
    hasField (regValue t .status) 2 2 1 ∧ (regValue t .status).getLsbD 4 = false ∧
    t = { s with pq := t.pq } ∧ exec .qBegin t = .next t

/-- R107: `Q_PIXEL c` while collecting: the counters, the exact-colour list and the bucket table, in every case of the rule; nothing
else changes, and `STATUS` does not. In any other phase it only raises `ErrCmd`. The collecting clause has as premises two clauses
of the invariant (PqInv.exnRange, and room for a bucket not seen yet, which PqInv.bucketsOnce and PqInv.seenListed give): a count
of at most 256 colours, and fewer than 256 buckets while the colour's bucket is not seen. What the model does outside them, in
states no run reaches, is its own choice (notes/assumptions/8.md, 9.md), and nothing is said of it here. -/
def Obligations.QPixelCollectsAColour : Prop :=
  ∀ (s : State) (c : Colour), s.running →
    encode (.qPixel c) = Word.ofNat (0x50000000 ||| c.toNat) ∧
    (s.pq.st ≠ .collect → exec (.qPixel c) s = .next { s with err := { s.err with cmd := true } }) ∧
    (s.pq.st = .collect → s.pq.exn.toNat ≤ 256 → (s.pq.seenAt (bucket c) = false → s.pq.bkn.toNat < 256) →
      ∃ t : State, exec (.qPixel c) s = .next t ∧ t = { s with pq := t.pq } ∧
      regValue t .status = regValue s .status ∧ t.pq.st = .collect ∧ t.pq.any = true ∧ t.pq.npix.toNat = (s.pq.npix.toNat + 1) % 2 ^ 32 ∧
      t.pq.pal = s.pq.pal ∧ t.pq.palN = s.pq.palN ∧ t.pq.palP = s.pq.palP ∧ t.pq.isExact = s.pq.isExact ∧
      (if ∃ j : Fin 256, j.val < s.pq.exn.toNat ∧ s.pq.ex[j.val] = c then
         t.pq.ex = s.pq.ex ∧ t.pq.exn = s.pq.exn ∧ t.pq.ovf = s.pq.ovf
       else if s.pq.exn.toNat < 256 then
         t.pq.exn.toNat = s.pq.exn.toNat + 1 ∧ t.pq.ovf = s.pq.ovf ∧
         ∀ j : Fin 256, t.pq.ex[j.val] = if j.val = s.pq.exn.toNat then c else s.pq.ex[j.val]
       else t.pq.ex = s.pq.ex ∧ t.pq.exn = s.pq.exn ∧ t.pq.ovf = true) ∧
      (if s.pq.seenAt (bucket c) = true then
         t.pq.seen = s.pq.seen ∧ t.pq.rep = s.pq.rep ∧ t.pq.ord = s.pq.ord ∧ t.pq.bkn = s.pq.bkn
       else
         (∀ b : BitVec 8, t.pq.seenAt b = if b = bucket c then true else s.pq.seenAt b) ∧
         (∀ b : BitVec 8, t.pq.repAt b = if b = bucket c then c else s.pq.repAt b) ∧
         (∀ j : Fin 256, t.pq.ord[j.val] = if j.val = s.pq.bkn.toNat then bucket c else s.pq.ord[j.val]) ∧
         t.pq.bkn.toNat = s.pq.bkn.toNat + 1))

/-- R108: a `Q_BUILD` while collecting that fails: with no pixel, `ErrInput`; with more than 256 colours and `q = 0`, `ErrPalette`. PQ
returns to IDLE, the failure word is sent, nothing else changes. -/
def Obligations.QBuildFailsWithoutColours : Prop :=
  ∀ (s : State) (q : Bool), s.running → s.pq.st = .collect →
    (s.pq.any = false → exec (.qBuild q) s = .next { s with
      err := { s.err with input := true }, pq := { s.pq with st := .idle }, rsp := s.rsp ++ [0xFFFFFFFF] }) ∧
    (s.pq.any = true → s.pq.ovf = true → exec (.qBuild false) s = .next { s with
      err := { s.err with palette := true }, pq := { s.pq with st := .idle }, rsp := s.rsp ++ [0xFFFFFFFF] })

/-- R108, R111: a `Q_BUILD` while collecting that succeeds: the exact palette when no overflow happened, whatever `q` is, and the
quantized one on overflow with `q = 1`; entry by entry, with the response word, and nothing else changes. For a count outside 1..256,
which no run reaches, `RoundP` is the model's own (notes/assumptions/16.md). -/
def Obligations.QBuildBuildsThePalette : Prop :=
  ∀ (s : State) (q : Bool), s.running → s.pq.st = .collect → s.pq.any = true → (s.pq.ovf = false ∨ q = true) →
    ∃ (t : State) (v : Word), exec (.qBuild q) s = .next t ∧ t.pq.st = .built ∧
      (s.pq.ovf = false → t.pq.palN = s.pq.exn ∧ t.pq.isExact = true ∧
        ∀ j : Fin 256, t.pq.pal[j.val] = if j.val < s.pq.exn.toNat then s.pq.ex[j.val] else s.pq.pal[j.val]) ∧
      (s.pq.ovf = true → t.pq.palN = s.pq.bkn ∧ t.pq.isExact = false ∧
        ∀ j : Fin 256, t.pq.pal[j.val] =
          if j.val < s.pq.bkn.toNat then s.pq.repAt (s.pq.ord[j.val]) else s.pq.pal[j.val]) ∧
      t.pq.palP.toNat = roundP t.pq.palN.toNat ∧ isBuildResponse v t.pq ∧
      t = { s with
        pq := { s.pq with st := .built, pal := t.pq.pal, palN := t.pq.palN, palP := t.pq.palP, isExact := t.pq.isExact },
        rsp := s.rsp ++ [v] }

/-- R105: after a successful `Q_BUILD` from a state that meets the invariant, `1 <= pal_n <= 256`, `pal_P = RoundP(pal_n)` is a power of
two in [2, 256] with `pal_n <= pal_P`, the entries are pairwise distinct, and every `Q_MAP` answers an index below `pal_n`. -/
def Obligations.BuiltPaletteMeetsItsInvariants : Prop :=
  ∀ (s : State) (q : Bool), s.Inv → s.pq.st = .collect → s.pq.any = true → (s.pq.ovf = false ∨ q = true) →
    ∃ t : State, exec (.qBuild q) s = .next t ∧
      1 ≤ t.pq.palN.toNat ∧ t.pq.palN.toNat ≤ 256 ∧ t.pq.palP.toNat = roundP t.pq.palN.toNat ∧
      (∃ j, 1 ≤ j ∧ j ≤ 8 ∧ t.pq.palP.toNat = 2 ^ j) ∧ t.pq.palN.toNat ≤ t.pq.palP.toNat ∧
      (∀ i j : Fin 256, i.val < t.pq.palN.toNat → j.val < t.pq.palN.toNat → t.pq.pal[i.val] = t.pq.pal[j.val] → i = j) ∧
      ∀ c : Colour, ∃ x : Nat, x < t.pq.palN.toNat ∧
        exec (.qMap c) t = .next { t with rsp := t.rsp ++ [Word.ofNat x] }

/-- R112: `Q_MAP c` with a built palette of 1..256 entries answers the index of a nearest real entry by `D`, the lowest such index, and
changes nothing else; with none built it raises `ErrCmd` and answers the failure word. -/
def Obligations.QMapAnswersTheLowestNearestEntry : Prop :=
  ∀ (s : State) (c : Colour), s.running →
    encode (.qMap c) = Word.ofNat (0x70000000 ||| c.toNat) ∧
    (s.pq.st ≠ .built → exec (.qMap c) s = .next { s with
      err := { s.err with cmd := true }, rsp := s.rsp ++ [0xFFFFFFFF] }) ∧
    (s.pq.st = .built → 1 ≤ s.pq.palN.toNat → s.pq.palN.toNat ≤ 256 → ∃ j : Fin 256, j.val < s.pq.palN.toNat ∧
      exec (.qMap c) s = .next { s with rsp := s.rsp ++ [Word.ofNat j.val] } ∧
      (∀ i : Fin 256, i.val < s.pq.palN.toNat → colourDist c s.pq.pal[j.val] ≤ colourDist c s.pq.pal[i.val]) ∧
      (∀ i : Fin 256, i.val < j.val → colourDist c s.pq.pal[j.val] < colourDist c s.pq.pal[i.val]))

/-- R114: `Q_RDPAL i` with a built palette answers the entry below `pal_n` and black at or above it; with none it raises `ErrCmd` and
answers the failure word. Nothing else changes. -/
def Obligations.QRdpalReadsAnEntryOrBlack : Prop :=
  ∀ (s : State) (i : Index) (j : Fin 256), s.running → i.toNat = j.val →
    encode (.qRdpal i) = Word.ofNat (0x80000000 ||| i.toNat) ∧
    (s.pq.st = .built → ∃ v : Word, exec (.qRdpal i) s = .next { s with rsp := s.rsp ++ [v] } ∧
      (i.toNat < s.pq.palN.toNat → v.toNat = s.pq.pal[j.val].toNat) ∧ (s.pq.palN.toNat ≤ i.toNat → v = 0)) ∧
    (s.pq.st ≠ .built → exec (.qRdpal i) s = .next { s with
      err := { s.err with cmd := true }, rsp := s.rsp ++ [0xFFFFFFFF] })

/-- R109: from any state that is not halted, collecting the pixels `cs` with at most 256 distinct colours and building, whatever `q` is,
gives as palette exactly those colours, each once, in order of first occurrence; and `Q_MAP` of a collected colour answers the index
of that colour (R112). -/
def Obligations.ExactPaletteOfAPixelSequence : Prop :=
  ∀ (s : State) (cs : List Colour) (q : Bool), s.running → cs ≠ [] → (firstOccurrences id cs).length ≤ 256 →
    ∃ t : State, runInstrs (paletteInstrs cs q) s = .next t ∧ t.pq.st = .built ∧ t.pq.isExact = true ∧
      t.pq.entries = firstOccurrences id cs ∧ t.pq.palN.toNat = (firstOccurrences id cs).length ∧
      t.err = s.err ∧ t.lz = s.lz ∧ t.lzo = s.lzo ∧
      ∀ c ∈ cs, ∃ x : Nat, t.pq.entries[x]? = some c ∧
        exec (.qMap c) t = .next { t with rsp := t.rsp ++ [Word.ofNat x] }

/-- R110: from any state that is not halted, collecting the pixels `cs` with more than 256 distinct colours and building with `q = 1`
gives as palette one entry per occupied bucket, in order of each bucket's first occurrence, the first collected colour of the
bucket; the entries are distinct; and `Q_MAP` of a collected colour answers an entry within `D <= 5891` of it. -/
def Obligations.QuantizedPaletteOfAPixelSequence : Prop :=
  ∀ (s : State) (cs : List Colour), s.running → 256 < (firstOccurrences id cs).length →
    ∃ t : State, runInstrs (paletteInstrs cs true) s = .next t ∧ t.pq.st = .built ∧ t.pq.isExact = false ∧
      t.pq.entries = firstOccurrences bucket cs ∧ t.pq.entries.Nodup ∧ t.err = s.err ∧ t.lz = s.lz ∧ t.lzo = s.lzo ∧
      ∀ c ∈ cs, ∃ (x : Nat) (e : Colour), t.pq.entries[x]? = some e ∧ colourDist c e ≤ 5891 ∧
        exec (.qMap c) t = .next { t with rsp := t.rsp ++ [Word.ofNat x] }

/-! ### The LZW encoder (41_lzw_encoder.md) -/

/-- R160: `LZ_START k`. While a frame is open it only raises `ErrCmd`; for `k` outside 1..8 it only raises `ErrInput`; otherwise it opens a
frame: the fields the rule lists, the minimum-code-size beat, and the Clear code's `r + 1` bits in the bit buffer, whose first
whole byte, for `r + 1 >= 8`, is in the block buffer. -/
def Obligations.LzStartOpensAFrame : Prop :=
  ∀ (s : State) (k : BitVec 4), s.running →
    (s.lz.act = true → exec (.lzStart k) s = .next { s with err := { s.err with cmd := true } }) ∧
    (s.lz.act = false → k.toNat = 0 ∨ 8 < k.toNat →
      exec (.lzStart k) s = .next { s with err := { s.err with input := true } }) ∧
    (s.lz.act = false → 1 ≤ k.toNat → k.toNat ≤ 8 →
      ∃ (t : State) (r : Nat), r = max k.toNat s.params.minRoot.toNat ∧ exec (.lzStart k) s = .next t ∧
        t.lz.act = true ∧ t.lz.k = k ∧ t.lz.r.toNat = r ∧ t.lz.w.toNat = r + 1 ∧ t.lz.n.toNat = 2 ^ r + 2 ∧
        t.lz.dict = [] ∧ t.lz.pv = false ∧ t.lz.pfx = 0 ∧ t.lz.count = 0 ∧ t.lz.bytes = 1 ∧
        (r < 7 → t.lz.acc.toNat = 2 ^ r ∧ t.lz.nb.toNat = r + 1 ∧ t.lz.bl = 0 ∧ t.lz.blk = s.lz.blk) ∧
        (7 ≤ r → t.lz.acc.toNat = 2 ^ r / 256 ∧ t.lz.nb.toNat = r - 7 ∧ t.lz.bl = 1 ∧
          t.lz.pending = [BitVec.ofNat 8 (2 ^ r)]) ∧
        t = { s with lz := t.lz, lzo := s.lzo ++ [{ data := BitVec.ofNat 8 r, last := false, abort := false }] })

/-- R147, R161, R163, 60_exceptions.md R220: an index outside the palette, and an `LZ_FINISH` of a frame without an index, abort the open
frame: `ErrInput`, the abort beat, every buffered bit and byte discarded, the frame closed, nothing else changed. -/
def Obligations.BadIndexAndEmptyFrameAbort : Prop :=
  ∀ (s : State) (x : Index), s.running → s.lz.act = true →
    (2 ^ s.lz.k.toNat ≤ x.toNat → exec (.lzIndex x) s = .next (abortedState s)) ∧
    (s.lz.pv = false → exec .lzFinish s = .next (abortedState s))

/-- R161: an accepted index that is the first of its frame, or that extends the match, only updates the prefix and the count: it emits
nothing. -/
def Obligations.LzIndexExtendsTheMatch : Prop :=
  ∀ (s : State) (x : Index), s.running → s.lz.act = true → x.toNat < 2 ^ s.lz.k.toNat →
    (s.lz.pv = false → exec (.lzIndex x) s = .next { s with
      lz := { s.lz with count := s.lz.count + 1, pfx := x.setWidth 12, pv := true } }) ∧
    (∀ c : Code, s.lz.pv = true → dictFind s.lz.pfx x s.lz.dict = some c →
      exec (.lzIndex x) s = .next { s with lz := { s.lz with count := s.lz.count + 1, pfx := c } })

/-- R161 with R142, R145, R146: an accepted index whose pair is not in the table. The prefix's code is written at the current width, least
significant bit first; the width grows when `lz_n` has reached `2^lz_w` (late change); the pair takes the code `lz_n`; when that
makes `lz_n` 4096, the Clear code is written at width 12 and the table, `lz_n` and `lz_w` are initial again; the index is the new
prefix. Nothing else changes. -/
def Obligations.LzIndexEmitsThePrefix : Prop :=
  ∀ (s : State) (x : Index), s.Inv → s.lz.act = true → x.toNat < 2 ^ s.lz.k.toNat → s.lz.pv = true →
    dictFind s.lz.pfx x s.lz.dict = none →
    ∃ t : State, exec (.lzIndex x) s = .next t ∧
      t.lz.pfx.toNat = x.toNat ∧ t.lz.pv = true ∧ t.lz.act = true ∧ t.lz.k = s.lz.k ∧ t.lz.r = s.lz.r ∧
      t.lz.count = s.lz.count + 1 ∧
      (s.lz.n.toNat < 4095 →
        t.lz.n.toNat = s.lz.n.toNat + 1 ∧
        t.lz.w.toNat = (if 2 ^ s.lz.w.toNat ≤ s.lz.n.toNat ∧ s.lz.w.toNat < 12 then s.lz.w.toNat + 1 else s.lz.w.toNat) ∧
        (∀ (p : Code) (y : Index), dictFind p y t.lz.dict =
          if p = s.lz.pfx ∧ y = x then some (s.lz.n.setWidth 12) else dictFind p y s.lz.dict) ∧
        bitsAppended s t (WideCode.bits ⟨s.lz.pfx.toNat, s.lz.w.toNat⟩)) ∧
      (s.lz.n.toNat = 4095 →
        t.lz.n.toNat = 2 ^ s.lz.r.toNat + 2 ∧ t.lz.w.toNat = s.lz.r.toNat + 1 ∧ t.lz.dict = [] ∧
        bitsAppended s t
          (WideCode.bits ⟨s.lz.pfx.toNat, s.lz.w.toNat⟩ ++ WideCode.bits ⟨2 ^ s.lz.r.toNat, 12⟩)) ∧
      t = { s with lz := t.lz, lzo := t.lzo }

/-- R163 with R142, R145, R148, R154, R155: `LZ_FINISH` of a frame with a prefix. The last prefix code is written at the current width, then
the width step, then the End code; the bits held back are packed, the last byte padded with zeros, framed as sub-blocks of 255
bytes and a shorter last one, and followed by the zero-length terminator; the frame is closed; `lz_k`, `lz_r`, `lz_n`, `lz_pfx`,
`lz_dict`, `lz_count` keep their values and `lz_w` is the width of the End code. -/
def Obligations.LzFinishClosesTheFrame : Prop :=
  ∀ s : State, s.Inv → s.lz.act = true → s.lz.pv = true →
    ∃ (t : State) (w' : Nat) (out : List Byte), exec .lzFinish s = .next t ∧
      w' = (if 2 ^ s.lz.w.toNat ≤ s.lz.n.toNat ∧ s.lz.w.toNat < 12 then s.lz.w.toNat + 1 else s.lz.w.toNat) ∧
      out = blocks (packBits (s.lz.pendingBits ++
        (WideCode.bits ⟨s.lz.pfx.toNat, s.lz.w.toNat⟩ ++ WideCode.bits ⟨2 ^ s.lz.r.toNat + 1, w'⟩))) ∧
      t.lzo = s.lzo ++ (out.map (fun b => { data := b, last := false, abort := false })
        ++ [{ data := 0, last := true, abort := false }]) ∧
      t.lz.bytes = s.lz.bytes + BitVec.ofNat 32 (out.length + 1) ∧
      t.lz.act = false ∧ t.lz.pv = false ∧ t.lz.w.toNat = w' ∧ t.lz.acc = 0 ∧ t.lz.nb = 0 ∧ t.lz.bl = 0 ∧
      t = { s with
        lzo := t.lzo,
        lz := { s.lz with act := false, pv := false, w := t.lz.w, acc := 0, nb := 0, bl := 0, blk := t.lz.blk,
                          bytes := t.lz.bytes } }

/-- R156 with R153 to R155: from any state that is not halted with no frame open, `LZ_START k`, `LZ_INDEX` for each index of a non-empty
stream below `2^k`, and `LZ_FINISH` append exactly `FrameBeats(xs, k)` to `lzo`, with no error and nothing else changed outside
the LZ unit, whatever came before (R159). -/
def Obligations.FrameAppendsFrameBeats : Prop :=
  ∀ (s : State) (k : BitVec 4) (xs : List Index), s.running → s.lz.act = false → 1 ≤ k.toNat → k.toNat ≤ 8 → xs ≠ [] →
    (∀ x ∈ xs, x.toNat < 2 ^ k.toNat) →
    ∃ t : State, runInstrs (frameInstrs k xs) s = .next t ∧
      t = { s with lz := t.lz, lzo := s.lzo ++ frameBeats s.params.minRoot k.toNat (xs.map BitVec.toNat) } ∧
      t.lz.act = false ∧ t.lz.pv = false ∧ t.lz.count = BitVec.ofNat 32 xs.length ∧
      t.lz.bytes = BitVec.ofNat 32 (frameBeats s.params.minRoot k.toNat (xs.map BitVec.toNat)).length

/-- R156, R159, 40_palette_quantizer.md R116: the same with any control and PQ commands between the commands of the frame: `lzo` gets only
this frame's beats. -/
def Obligations.InterleavedFrameAppendsFrameBeats : Prop :=
  ∀ (s : State) (k : BitVec 4) (xs : List Index) (is : List Instr), s.running → s.lz.act = false → 1 ≤ k.toNat → k.toNat ≤ 8 →
    xs ≠ [] → (∀ x ∈ xs, x.toNat < 2 ^ k.toNat) → is.filter Instr.isLz = frameInstrs k xs →
    ∃ t : State, runInstrs is s = .next t ∧ t.running ∧ t.lz.act = false ∧
      t.lzo = s.lzo ++ frameBeats s.params.minRoot k.toNat (xs.map BitVec.toNat)

/-- R149: the width law, for every code of every frame: the code written after `j` data codes of its table generation has width
`min(12, max(r + 1, bitlen(2^r + 1 + j)))`. -/
def Obligations.CodeWidthsFollowTheLaw : Prop :=
  ∀ (m : MinRoot) (k : Nat) (xs : List Nat), 1 ≤ k → k ≤ 8 → xs ≠ [] → (∀ x ∈ xs, x < 2 ^ k) →
    widthsFollowLaw (rootWidth m k) 0 (lzwCodes m k xs) = true

/-- R157: the output of a finished frame: sub-blocks of 1 to 255 bytes, every one but the last of exactly 255; one final zero byte with
`last = 1` and no `last` before it; no `abort`; `1 + L + ceil(L / 255) + 1` beats for `L` packed bytes. -/
def Obligations.FrameOutputHasItsShape : Prop :=
  ∀ (m : MinRoot) (k : Nat) (xs : List Nat), 1 ≤ k → k ≤ 8 → xs ≠ [] → (∀ x ∈ xs, x < 2 ^ k) →
    ∃ chunks : List (List Byte),
      chunks.flatten = pack (lzwCodes m k xs) ∧ chunks ≠ [] ∧ (∀ c ∈ chunks, 1 ≤ c.length ∧ c.length ≤ 255) ∧
      (∀ c ∈ chunks.dropLast, c.length = 255) ∧
      frameBeats m k xs =
        ({ data := BitVec.ofNat 8 (rootWidth m k), last := false, abort := false } :: (chunks.flatMap fun c =>
          (BitVec.ofNat 8 c.length :: c).map fun b => { data := b, last := false, abort := false }))
        ++ [{ data := 0, last := true, abort := false }] ∧
      (frameBeats m k xs).length = 1 + (pack (lzwCodes m k xs)).length + ceilDiv (pack (lzwCodes m k xs)).length 255 + 1

/-- R158: the reference decoder of 95_test_vectors.md section 4, applied to the data bytes of `FrameBeats(xs, k)`, returns `xs`. -/
def Obligations.FrameDecodesToItsIndices : Prop :=
  ∀ (m : MinRoot) (k : Nat) (xs : List Nat), 1 ≤ k → k ≤ 8 → xs ≠ [] → (∀ x ∈ xs, x < 2 ^ k) →
    refDecode ((frameBeats m k xs).map fun b => b.data.toNat) = some xs

/-! ### Whole-machine rules -/

/-- The code table is an exact finite map in canonical form (10_state.md R29; notes/assumptions/10.md): inserting a pair keeps the form,
gives that pair the new code, leaves every other pair, and a table in the form is determined by what it maps. -/
def Obligations.CodeTableIsAnExactMap : Prop :=
  (∀ (d : List DictEntry) (e : DictEntry), Dict.wf d → Dict.wf (dictInsert e d) ∧
    ∀ (p : Code) (y : Index), dictFind p y (dictInsert e d) =
      if p = e.pfx ∧ y = e.idx then some e.code else dictFind p y d) ∧
  (∀ d d' : List DictEntry, Dict.wf d → Dict.wf d' → (∀ (p : Code) (y : Index), dictFind p y d = dictFind p y d') → d = d')

/-- 40_palette_quantizer.md R116: the units share no state apart from the error bits and the halt. A PQ command changes no LZ field and no
beat and depends on none; an LZ command changes no PQ field and no response and depends on none. -/
def Obligations.UnitsDoNotInterfere : Prop :=
  (∀ (i : Instr) (s t : State), i.isPq = true → exec i s = .next t → t.lz = s.lz ∧ t.lzo = s.lzo) ∧
  (∀ (i : Instr) (s t : State), i.isLz = true → exec i s = .next t → t.pq = s.pq ∧ t.rsp = s.rsp) ∧
  (∀ (i : Instr) (s s' t t' : State), i.isPq = true → s.err.internal = s'.err.internal → s.pq = s'.pq → s.rsp = s'.rsp →
    exec i s = .next t → exec i s' = .next t' → t.pq = t'.pq ∧ t.rsp = t'.rsp) ∧
  (∀ (i : Instr) (s s' t t' : State), i.isLz = true → s.err.internal = s'.err.internal → s.params = s'.params →
    s.lz = s'.lz → s.lzo = s'.lzo → exec i s = .next t → exec i s' = .next t' → t.lz = t'.lz ∧ t.lzo = t'.lzo)

/-- 93_implementation_defined.md U1, 70_reset_and_hazards.md R240: no output depends on the array entries that reset leaves unspecified:
two states that differ only in entries no rule reads stay so with every step, with equal streams, registers and errors. -/
def Obligations.UnspecifiedEntriesAreNeverSeen : Prop :=
  ∀ s s' : State, s.Inv → s.SameUsed s' → ∃ t t' : State, step s = .next t ∧ step s' = .next t' ∧ t.SameUsed t'

/-- The invariant holds at reset, for both values of `LZW_MIN_ROOT` and every depth, whatever the host does next. -/
def Obligations.ResetMeetsTheInvariant : Prop :=
  ∀ (p : Params) (es : List HostEvent), State.Inv { State.resetFor p with port := es }

/-- 41_lzw_encoder.md R150, 40_palette_quantizer.md R105 and the legal values of 10_state.md: every step keeps the invariant, from every
state that meets it and for every event of the host. -/
def Obligations.EveryStepKeepsTheInvariant : Prop :=
  ∀ s t : State, s.Inv → step s = .next t → t.Inv

/-- 41_lzw_encoder.md R152, 60_exceptions.md R213: no sequence of commands and other host events from reset reaches the halted state. -/
def Obligations.NoRunFromResetHalts : Prop :=
  ∀ (p : Params) (es : List HostEvent) (n : Nat) (t : State),
    Host.Core.run Sys2Proof.core n { State.resetFor p with port := es } = .next t → t.running

/-- 41_lzw_encoder.md R151: in a state that meets the invariant with a frame open, the Clear code, the End code and a valid prefix all fit
the current width, and the End code fits the width after the width step. -/
def Obligations.EmittedCodesFitTheirWidth : Prop :=
  ∀ s : State, s.Inv → s.lz.act = true →
    clearCode s.lz.r.toNat < 2 ^ s.lz.w.toNat ∧ endCode s.lz.r.toNat < 2 ^ s.lz.w.toNat ∧
    endCode s.lz.r.toNat < 2 ^ (widthStep s).lz.w.toNat ∧
    (s.lz.pv = true → s.lz.pfx.toNat < 2 ^ s.lz.w.toNat) ∧ s.lz.w.toNat ≤ 12 ∧ (widthStep s).lz.w.toNat ≤ 12

/-- A run that sends one frame from a clean state and drains both streams is successful (70_reset_and_hazards.md R244, R256). The
host's words and takes stand in `port`, the model's form (notes/assumptions/1.md). -/
def Obligations.DrainedFrameRunIsSuccessful : Prop :=
  ∀ (s : State) (k : BitVec 4) (xs : List Index), s.clean = true → s.params.outDepth = none → 1 ≤ k.toNat → k.toNat ≤ 8 →
    xs ≠ [] → (∀ x ∈ xs, x.toNat < 2 ^ k.toNat) →
    s.port = (frameInstrs k xs).map (fun i => HostEvent.command (encode i)) ++
      List.replicate (frameBeats s.params.minRoot k.toNat (xs.map BitVec.toNat)).length HostEvent.takeBeat →
    ∃ r : RunRecord, record s.port.length s = some r ∧ r.successful = true ∧
      r.beats = frameBeats s.params.minRoot k.toNat (xs.map BitVec.toNat) ∧ r.words = []
end

