-- ==== Sys2Proof/Laws/Encoding.lean ====
section
/-! SUPPORT. Small laws of the encoding: every command is well formed, and the fields of the word the encoder gives. -/

namespace Sys2Proof.Laws

/-- Every command is well formed: its operands are typed by their fields (30_encoding.md R83). -/
theorem instr_wellFormed (i : Instr) : i.wellFormed = true := by
  cases i with
  | qBuild q => cases q <;> rfl
  | lzStart k => simpa [Instr.wellFormed, Instr.toLine, AsmLine.wellFormed] using k.isLt
  | lzIndex x => simpa [Instr.wellFormed, Instr.toLine, AsmLine.wellFormed] using x.isLt
  | qPixel c => simpa [Instr.wellFormed, Instr.toLine, AsmLine.wellFormed] using c.isLt
  | qMap c => simpa [Instr.wellFormed, Instr.toLine, AsmLine.wellFormed] using c.isLt
  | qRdpal x => simpa [Instr.wellFormed, Instr.toLine, AsmLine.wellFormed] using x.isLt
  | rdreg n => simpa [Instr.wellFormed, Instr.toLine, AsmLine.wellFormed] using n.isLt
  | nop => rfl
  | lzFinish => rfl
  | qBegin => rfl
  | clrerr => rfl

end Sys2Proof.Laws
end

