-- ==== Sys2Proof/Laws/State.lean ====
section
/-! SUPPORT. One lemma per field per update, each true by `rfl`: what a named update of the state makes of every field. Later proofs
rewrite with these and unfold no record update. -/

namespace Sys2Proof.Machine

variable (s : State)

/-! ### `raise` -/

@[simp] theorem raise_params (e : ErrKind) : (raise e s).params = s.params := rfl
@[simp] theorem raise_err (e : ErrKind) : (raise e s).err = s.err.set e := rfl
@[simp] theorem raise_lz (e : ErrKind) : (raise e s).lz = s.lz := rfl
@[simp] theorem raise_pq (e : ErrKind) : (raise e s).pq = s.pq := rfl
@[simp] theorem raise_lzo (e : ErrKind) : (raise e s).lzo = s.lzo := rfl
@[simp] theorem raise_rsp (e : ErrKind) : (raise e s).rsp = s.rsp := rfl
@[simp] theorem raise_port (e : ErrKind) : (raise e s).port = s.port := rfl

/-! ### `clearErrors` -/

@[simp] theorem clearErrors_params : (clearErrors s).params = s.params := rfl
@[simp] theorem clearErrors_err : (clearErrors s).err = s.err.clearRecoverable := rfl
@[simp] theorem clearErrors_lz : (clearErrors s).lz = s.lz := rfl
@[simp] theorem clearErrors_pq : (clearErrors s).pq = s.pq := rfl
@[simp] theorem clearErrors_lzo : (clearErrors s).lzo = s.lzo := rfl
@[simp] theorem clearErrors_rsp : (clearErrors s).rsp = s.rsp := rfl
@[simp] theorem clearErrors_port : (clearErrors s).port = s.port := rfl

/-! ### `outBeat` -/

@[simp] theorem outBeat_params (b : Beat) : (outBeat b s).params = s.params := rfl
@[simp] theorem outBeat_err (b : Beat) : (outBeat b s).err = s.err := rfl
@[simp] theorem outBeat_lz_act (b : Beat) : (outBeat b s).lz.act = s.lz.act := rfl
@[simp] theorem outBeat_lz_k (b : Beat) : (outBeat b s).lz.k = s.lz.k := rfl
@[simp] theorem outBeat_lz_r (b : Beat) : (outBeat b s).lz.r = s.lz.r := rfl
@[simp] theorem outBeat_lz_w (b : Beat) : (outBeat b s).lz.w = s.lz.w := rfl
@[simp] theorem outBeat_lz_n (b : Beat) : (outBeat b s).lz.n = s.lz.n := rfl
@[simp] theorem outBeat_lz_pv (b : Beat) : (outBeat b s).lz.pv = s.lz.pv := rfl
@[simp] theorem outBeat_lz_pfx (b : Beat) : (outBeat b s).lz.pfx = s.lz.pfx := rfl
@[simp] theorem outBeat_lz_dict (b : Beat) : (outBeat b s).lz.dict = s.lz.dict := rfl
@[simp] theorem outBeat_lz_acc (b : Beat) : (outBeat b s).lz.acc = s.lz.acc := rfl
@[simp] theorem outBeat_lz_nb (b : Beat) : (outBeat b s).lz.nb = s.lz.nb := rfl
@[simp] theorem outBeat_lz_blk (b : Beat) : (outBeat b s).lz.blk = s.lz.blk := rfl
@[simp] theorem outBeat_lz_bl (b : Beat) : (outBeat b s).lz.bl = s.lz.bl := rfl
@[simp] theorem outBeat_lz_count (b : Beat) : (outBeat b s).lz.count = s.lz.count := rfl
@[simp] theorem outBeat_lz_bytes (b : Beat) : (outBeat b s).lz.bytes = s.lz.bytes + 1 := rfl
@[simp] theorem outBeat_pq (b : Beat) : (outBeat b s).pq = s.pq := rfl
@[simp] theorem outBeat_lzo (b : Beat) : (outBeat b s).lzo = s.lzo ++ [b] := rfl
@[simp] theorem outBeat_rsp (b : Beat) : (outBeat b s).rsp = s.rsp := rfl
@[simp] theorem outBeat_port (b : Beat) : (outBeat b s).port = s.port := rfl

/-! ### `respond` -/

@[simp] theorem respond_params (v : Word) : (respond v s).params = s.params := rfl
@[simp] theorem respond_err (v : Word) : (respond v s).err = s.err := rfl
@[simp] theorem respond_lz (v : Word) : (respond v s).lz = s.lz := rfl
@[simp] theorem respond_pq (v : Word) : (respond v s).pq = s.pq := rfl
@[simp] theorem respond_lzo (v : Word) : (respond v s).lzo = s.lzo := rfl
@[simp] theorem respond_rsp (v : Word) : (respond v s).rsp = s.rsp ++ [v] := rfl
@[simp] theorem respond_port (v : Word) : (respond v s).port = s.port := rfl

/-! ### `respondFailure` -/

@[simp] theorem respondFailure_params : (respondFailure s).params = s.params := rfl
@[simp] theorem respondFailure_err : (respondFailure s).err = s.err := rfl
@[simp] theorem respondFailure_lz : (respondFailure s).lz = s.lz := rfl
@[simp] theorem respondFailure_pq : (respondFailure s).pq = s.pq := rfl
@[simp] theorem respondFailure_lzo : (respondFailure s).lzo = s.lzo := rfl
@[simp] theorem respondFailure_rsp : (respondFailure s).rsp = s.rsp ++ [Config.failureWord] := rfl
@[simp] theorem respondFailure_port : (respondFailure s).port = s.port := rfl

/-! ### `abortFrame` -/

@[simp] theorem abortFrame_params : (abortFrame s).params = s.params := rfl
@[simp] theorem abortFrame_err : (abortFrame s).err = s.err := rfl
@[simp] theorem abortFrame_lz_act : (abortFrame s).lz.act = false := rfl
@[simp] theorem abortFrame_lz_k : (abortFrame s).lz.k = s.lz.k := rfl
@[simp] theorem abortFrame_lz_r : (abortFrame s).lz.r = s.lz.r := rfl
@[simp] theorem abortFrame_lz_w : (abortFrame s).lz.w = s.lz.w := rfl
@[simp] theorem abortFrame_lz_n : (abortFrame s).lz.n = s.lz.n := rfl
@[simp] theorem abortFrame_lz_pv : (abortFrame s).lz.pv = false := rfl
@[simp] theorem abortFrame_lz_pfx : (abortFrame s).lz.pfx = s.lz.pfx := rfl
@[simp] theorem abortFrame_lz_dict : (abortFrame s).lz.dict = s.lz.dict := rfl
@[simp] theorem abortFrame_lz_acc : (abortFrame s).lz.acc = 0 := rfl
@[simp] theorem abortFrame_lz_nb : (abortFrame s).lz.nb = 0 := rfl
@[simp] theorem abortFrame_lz_blk : (abortFrame s).lz.blk = s.lz.blk := rfl
@[simp] theorem abortFrame_lz_bl : (abortFrame s).lz.bl = 0 := rfl
@[simp] theorem abortFrame_lz_count : (abortFrame s).lz.count = s.lz.count := rfl
@[simp] theorem abortFrame_lz_bytes : (abortFrame s).lz.bytes = s.lz.bytes + 1 := rfl
@[simp] theorem abortFrame_pq : (abortFrame s).pq = s.pq := rfl
@[simp] theorem abortFrame_lzo : (abortFrame s).lzo = s.lzo ++ [abortBeat] := rfl
@[simp] theorem abortFrame_rsp : (abortFrame s).rsp = s.rsp := rfl
@[simp] theorem abortFrame_port : (abortFrame s).port = s.port := rfl

/-! ### `shiftByte` -/

@[simp] theorem shiftByte_params : (shiftByte s).params = s.params := rfl
@[simp] theorem shiftByte_err : (shiftByte s).err = s.err := rfl
@[simp] theorem shiftByte_lz_act : (shiftByte s).lz.act = s.lz.act := rfl
@[simp] theorem shiftByte_lz_k : (shiftByte s).lz.k = s.lz.k := rfl
@[simp] theorem shiftByte_lz_r : (shiftByte s).lz.r = s.lz.r := rfl
@[simp] theorem shiftByte_lz_w : (shiftByte s).lz.w = s.lz.w := rfl
@[simp] theorem shiftByte_lz_n : (shiftByte s).lz.n = s.lz.n := rfl
@[simp] theorem shiftByte_lz_pv : (shiftByte s).lz.pv = s.lz.pv := rfl
@[simp] theorem shiftByte_lz_pfx : (shiftByte s).lz.pfx = s.lz.pfx := rfl
@[simp] theorem shiftByte_lz_dict : (shiftByte s).lz.dict = s.lz.dict := rfl
@[simp] theorem shiftByte_lz_acc : (shiftByte s).lz.acc = s.lz.acc >>> 8 := rfl
@[simp] theorem shiftByte_lz_nb : (shiftByte s).lz.nb = s.lz.nb - 8 := rfl
@[simp] theorem shiftByte_lz_blk : (shiftByte s).lz.blk = s.lz.blk := rfl
@[simp] theorem shiftByte_lz_bl : (shiftByte s).lz.bl = s.lz.bl := rfl
@[simp] theorem shiftByte_lz_count : (shiftByte s).lz.count = s.lz.count := rfl
@[simp] theorem shiftByte_lz_bytes : (shiftByte s).lz.bytes = s.lz.bytes := rfl
@[simp] theorem shiftByte_pq : (shiftByte s).pq = s.pq := rfl
@[simp] theorem shiftByte_lzo : (shiftByte s).lzo = s.lzo := rfl
@[simp] theorem shiftByte_rsp : (shiftByte s).rsp = s.rsp := rfl
@[simp] theorem shiftByte_port : (shiftByte s).port = s.port := rfl

/-! ### `addBits` -/

@[simp] theorem addBits_params (c w : Nat) : (addBits c w s).params = s.params := rfl
@[simp] theorem addBits_err (c w : Nat) : (addBits c w s).err = s.err := rfl
@[simp] theorem addBits_lz_act (c w : Nat) : (addBits c w s).lz.act = s.lz.act := rfl
@[simp] theorem addBits_lz_k (c w : Nat) : (addBits c w s).lz.k = s.lz.k := rfl
@[simp] theorem addBits_lz_r (c w : Nat) : (addBits c w s).lz.r = s.lz.r := rfl
@[simp] theorem addBits_lz_w (c w : Nat) : (addBits c w s).lz.w = s.lz.w := rfl
@[simp] theorem addBits_lz_n (c w : Nat) : (addBits c w s).lz.n = s.lz.n := rfl
@[simp] theorem addBits_lz_pv (c w : Nat) : (addBits c w s).lz.pv = s.lz.pv := rfl
@[simp] theorem addBits_lz_pfx (c w : Nat) : (addBits c w s).lz.pfx = s.lz.pfx := rfl
@[simp] theorem addBits_lz_dict (c w : Nat) : (addBits c w s).lz.dict = s.lz.dict := rfl
@[simp] theorem addBits_lz_acc (c w : Nat) : (addBits c w s).lz.acc = s.lz.acc ||| BitVec.ofNat 19 (c <<< s.lz.nb.toNat) := rfl
@[simp] theorem addBits_lz_nb (c w : Nat) : (addBits c w s).lz.nb = s.lz.nb + BitVec.ofNat 5 w := rfl
@[simp] theorem addBits_lz_blk (c w : Nat) : (addBits c w s).lz.blk = s.lz.blk := rfl
@[simp] theorem addBits_lz_bl (c w : Nat) : (addBits c w s).lz.bl = s.lz.bl := rfl
@[simp] theorem addBits_lz_count (c w : Nat) : (addBits c w s).lz.count = s.lz.count := rfl
@[simp] theorem addBits_lz_bytes (c w : Nat) : (addBits c w s).lz.bytes = s.lz.bytes := rfl
@[simp] theorem addBits_pq (c w : Nat) : (addBits c w s).pq = s.pq := rfl
@[simp] theorem addBits_lzo (c w : Nat) : (addBits c w s).lzo = s.lzo := rfl
@[simp] theorem addBits_rsp (c w : Nat) : (addBits c w s).rsp = s.rsp := rfl
@[simp] theorem addBits_port (c w : Nat) : (addBits c w s).port = s.port := rfl

/-! ### `resetTable` -/

@[simp] theorem resetTable_params : (resetTable s).params = s.params := rfl
@[simp] theorem resetTable_err : (resetTable s).err = s.err := rfl
@[simp] theorem resetTable_lz_act : (resetTable s).lz.act = s.lz.act := rfl
@[simp] theorem resetTable_lz_k : (resetTable s).lz.k = s.lz.k := rfl
@[simp] theorem resetTable_lz_r : (resetTable s).lz.r = s.lz.r := rfl
@[simp] theorem resetTable_lz_w : (resetTable s).lz.w = s.lz.r + 1 := rfl
@[simp] theorem resetTable_lz_n : (resetTable s).lz.n = BitVec.ofNat 13 (firstFree s.lz.r.toNat) := rfl
@[simp] theorem resetTable_lz_pv : (resetTable s).lz.pv = s.lz.pv := rfl
@[simp] theorem resetTable_lz_pfx : (resetTable s).lz.pfx = s.lz.pfx := rfl
@[simp] theorem resetTable_lz_dict : (resetTable s).lz.dict = [] := rfl
@[simp] theorem resetTable_lz_acc : (resetTable s).lz.acc = s.lz.acc := rfl
@[simp] theorem resetTable_lz_nb : (resetTable s).lz.nb = s.lz.nb := rfl
@[simp] theorem resetTable_lz_blk : (resetTable s).lz.blk = s.lz.blk := rfl
@[simp] theorem resetTable_lz_bl : (resetTable s).lz.bl = s.lz.bl := rfl
@[simp] theorem resetTable_lz_count : (resetTable s).lz.count = s.lz.count := rfl
@[simp] theorem resetTable_lz_bytes : (resetTable s).lz.bytes = s.lz.bytes := rfl
@[simp] theorem resetTable_pq : (resetTable s).pq = s.pq := rfl
@[simp] theorem resetTable_lzo : (resetTable s).lzo = s.lzo := rfl
@[simp] theorem resetTable_rsp : (resetTable s).rsp = s.rsp := rfl
@[simp] theorem resetTable_port : (resetTable s).port = s.port := rfl

/-! ### `addEntry` -/

@[simp] theorem addEntry_params (p : Code) (x : Index) : (addEntry p x s).params = s.params := rfl
@[simp] theorem addEntry_err (p : Code) (x : Index) : (addEntry p x s).err = s.err := rfl
@[simp] theorem addEntry_lz_act (p : Code) (x : Index) : (addEntry p x s).lz.act = s.lz.act := rfl
@[simp] theorem addEntry_lz_k (p : Code) (x : Index) : (addEntry p x s).lz.k = s.lz.k := rfl
@[simp] theorem addEntry_lz_r (p : Code) (x : Index) : (addEntry p x s).lz.r = s.lz.r := rfl
@[simp] theorem addEntry_lz_w (p : Code) (x : Index) : (addEntry p x s).lz.w = s.lz.w := rfl
@[simp] theorem addEntry_lz_n (p : Code) (x : Index) : (addEntry p x s).lz.n = s.lz.n + 1 := rfl
@[simp] theorem addEntry_lz_pv (p : Code) (x : Index) : (addEntry p x s).lz.pv = s.lz.pv := rfl
@[simp] theorem addEntry_lz_pfx (p : Code) (x : Index) : (addEntry p x s).lz.pfx = s.lz.pfx := rfl
@[simp] theorem addEntry_lz_dict (p : Code) (x : Index) : (addEntry p x s).lz.dict = dictInsert { pfx := p, idx := x, code := s.lz.n.setWidth 12 } s.lz.dict := rfl
@[simp] theorem addEntry_lz_acc (p : Code) (x : Index) : (addEntry p x s).lz.acc = s.lz.acc := rfl
@[simp] theorem addEntry_lz_nb (p : Code) (x : Index) : (addEntry p x s).lz.nb = s.lz.nb := rfl
@[simp] theorem addEntry_lz_blk (p : Code) (x : Index) : (addEntry p x s).lz.blk = s.lz.blk := rfl
@[simp] theorem addEntry_lz_bl (p : Code) (x : Index) : (addEntry p x s).lz.bl = s.lz.bl := rfl
@[simp] theorem addEntry_lz_count (p : Code) (x : Index) : (addEntry p x s).lz.count = s.lz.count := rfl
@[simp] theorem addEntry_lz_bytes (p : Code) (x : Index) : (addEntry p x s).lz.bytes = s.lz.bytes := rfl
@[simp] theorem addEntry_pq (p : Code) (x : Index) : (addEntry p x s).pq = s.pq := rfl
@[simp] theorem addEntry_lzo (p : Code) (x : Index) : (addEntry p x s).lzo = s.lzo := rfl
@[simp] theorem addEntry_rsp (p : Code) (x : Index) : (addEntry p x s).rsp = s.rsp := rfl
@[simp] theorem addEntry_port (p : Code) (x : Index) : (addEntry p x s).port = s.port := rfl

/-! ### `openFrame` -/

@[simp] theorem openFrame_params (k : BitVec 4) : (openFrame k s).params = s.params := rfl
@[simp] theorem openFrame_err (k : BitVec 4) : (openFrame k s).err = s.err := rfl
@[simp] theorem openFrame_lz_act (k : BitVec 4) : (openFrame k s).lz.act = true := rfl
@[simp] theorem openFrame_lz_k (k : BitVec 4) : (openFrame k s).lz.k = k := rfl
@[simp] theorem openFrame_lz_r (k : BitVec 4) : (openFrame k s).lz.r = BitVec.ofNat 4 (rootWidth s.params.minRoot k.toNat) := rfl
@[simp] theorem openFrame_lz_w (k : BitVec 4) : (openFrame k s).lz.w = BitVec.ofNat 4 (rootWidth s.params.minRoot k.toNat + 1) := rfl
@[simp] theorem openFrame_lz_n (k : BitVec 4) : (openFrame k s).lz.n = BitVec.ofNat 13 (firstFree (rootWidth s.params.minRoot k.toNat)) := rfl
@[simp] theorem openFrame_lz_pv (k : BitVec 4) : (openFrame k s).lz.pv = false := rfl
@[simp] theorem openFrame_lz_pfx (k : BitVec 4) : (openFrame k s).lz.pfx = 0 := rfl
@[simp] theorem openFrame_lz_dict (k : BitVec 4) : (openFrame k s).lz.dict = [] := rfl
@[simp] theorem openFrame_lz_acc (k : BitVec 4) : (openFrame k s).lz.acc = 0 := rfl
@[simp] theorem openFrame_lz_nb (k : BitVec 4) : (openFrame k s).lz.nb = 0 := rfl
@[simp] theorem openFrame_lz_blk (k : BitVec 4) : (openFrame k s).lz.blk = s.lz.blk := rfl
@[simp] theorem openFrame_lz_bl (k : BitVec 4) : (openFrame k s).lz.bl = 0 := rfl
@[simp] theorem openFrame_lz_count (k : BitVec 4) : (openFrame k s).lz.count = 0 := rfl
@[simp] theorem openFrame_lz_bytes (k : BitVec 4) : (openFrame k s).lz.bytes = 0 := rfl
@[simp] theorem openFrame_pq (k : BitVec 4) : (openFrame k s).pq = s.pq := rfl
@[simp] theorem openFrame_lzo (k : BitVec 4) : (openFrame k s).lzo = s.lzo := rfl
@[simp] theorem openFrame_rsp (k : BitVec 4) : (openFrame k s).rsp = s.rsp := rfl
@[simp] theorem openFrame_port (k : BitVec 4) : (openFrame k s).port = s.port := rfl

/-! ### `setPrefix` -/

@[simp] theorem setPrefix_params (p : Code) : (setPrefix p s).params = s.params := rfl
@[simp] theorem setPrefix_err (p : Code) : (setPrefix p s).err = s.err := rfl
@[simp] theorem setPrefix_lz_act (p : Code) : (setPrefix p s).lz.act = s.lz.act := rfl
@[simp] theorem setPrefix_lz_k (p : Code) : (setPrefix p s).lz.k = s.lz.k := rfl
@[simp] theorem setPrefix_lz_r (p : Code) : (setPrefix p s).lz.r = s.lz.r := rfl
@[simp] theorem setPrefix_lz_w (p : Code) : (setPrefix p s).lz.w = s.lz.w := rfl
@[simp] theorem setPrefix_lz_n (p : Code) : (setPrefix p s).lz.n = s.lz.n := rfl
@[simp] theorem setPrefix_lz_pv (p : Code) : (setPrefix p s).lz.pv = s.lz.pv := rfl
@[simp] theorem setPrefix_lz_pfx (p : Code) : (setPrefix p s).lz.pfx = p := rfl
@[simp] theorem setPrefix_lz_dict (p : Code) : (setPrefix p s).lz.dict = s.lz.dict := rfl
@[simp] theorem setPrefix_lz_acc (p : Code) : (setPrefix p s).lz.acc = s.lz.acc := rfl
@[simp] theorem setPrefix_lz_nb (p : Code) : (setPrefix p s).lz.nb = s.lz.nb := rfl
@[simp] theorem setPrefix_lz_blk (p : Code) : (setPrefix p s).lz.blk = s.lz.blk := rfl
@[simp] theorem setPrefix_lz_bl (p : Code) : (setPrefix p s).lz.bl = s.lz.bl := rfl
@[simp] theorem setPrefix_lz_count (p : Code) : (setPrefix p s).lz.count = s.lz.count := rfl
@[simp] theorem setPrefix_lz_bytes (p : Code) : (setPrefix p s).lz.bytes = s.lz.bytes := rfl
@[simp] theorem setPrefix_pq (p : Code) : (setPrefix p s).pq = s.pq := rfl
@[simp] theorem setPrefix_lzo (p : Code) : (setPrefix p s).lzo = s.lzo := rfl
@[simp] theorem setPrefix_rsp (p : Code) : (setPrefix p s).rsp = s.rsp := rfl
@[simp] theorem setPrefix_port (p : Code) : (setPrefix p s).port = s.port := rfl

/-! ### `firstIndex` -/

@[simp] theorem firstIndex_params (x : Index) : (firstIndex x s).params = s.params := rfl
@[simp] theorem firstIndex_err (x : Index) : (firstIndex x s).err = s.err := rfl
@[simp] theorem firstIndex_lz_act (x : Index) : (firstIndex x s).lz.act = s.lz.act := rfl
@[simp] theorem firstIndex_lz_k (x : Index) : (firstIndex x s).lz.k = s.lz.k := rfl
@[simp] theorem firstIndex_lz_r (x : Index) : (firstIndex x s).lz.r = s.lz.r := rfl
@[simp] theorem firstIndex_lz_w (x : Index) : (firstIndex x s).lz.w = s.lz.w := rfl
@[simp] theorem firstIndex_lz_n (x : Index) : (firstIndex x s).lz.n = s.lz.n := rfl
@[simp] theorem firstIndex_lz_pv (x : Index) : (firstIndex x s).lz.pv = true := rfl
@[simp] theorem firstIndex_lz_pfx (x : Index) : (firstIndex x s).lz.pfx = x.setWidth 12 := rfl
@[simp] theorem firstIndex_lz_dict (x : Index) : (firstIndex x s).lz.dict = s.lz.dict := rfl
@[simp] theorem firstIndex_lz_acc (x : Index) : (firstIndex x s).lz.acc = s.lz.acc := rfl
@[simp] theorem firstIndex_lz_nb (x : Index) : (firstIndex x s).lz.nb = s.lz.nb := rfl
@[simp] theorem firstIndex_lz_blk (x : Index) : (firstIndex x s).lz.blk = s.lz.blk := rfl
@[simp] theorem firstIndex_lz_bl (x : Index) : (firstIndex x s).lz.bl = s.lz.bl := rfl
@[simp] theorem firstIndex_lz_count (x : Index) : (firstIndex x s).lz.count = s.lz.count := rfl
@[simp] theorem firstIndex_lz_bytes (x : Index) : (firstIndex x s).lz.bytes = s.lz.bytes := rfl
@[simp] theorem firstIndex_pq (x : Index) : (firstIndex x s).pq = s.pq := rfl
@[simp] theorem firstIndex_lzo (x : Index) : (firstIndex x s).lzo = s.lzo := rfl
@[simp] theorem firstIndex_rsp (x : Index) : (firstIndex x s).rsp = s.rsp := rfl
@[simp] theorem firstIndex_port (x : Index) : (firstIndex x s).port = s.port := rfl

/-! ### `countIndex` -/

@[simp] theorem countIndex_params : (countIndex s).params = s.params := rfl
@[simp] theorem countIndex_err : (countIndex s).err = s.err := rfl
@[simp] theorem countIndex_lz_act : (countIndex s).lz.act = s.lz.act := rfl
@[simp] theorem countIndex_lz_k : (countIndex s).lz.k = s.lz.k := rfl
@[simp] theorem countIndex_lz_r : (countIndex s).lz.r = s.lz.r := rfl
@[simp] theorem countIndex_lz_w : (countIndex s).lz.w = s.lz.w := rfl
@[simp] theorem countIndex_lz_n : (countIndex s).lz.n = s.lz.n := rfl
@[simp] theorem countIndex_lz_pv : (countIndex s).lz.pv = s.lz.pv := rfl
@[simp] theorem countIndex_lz_pfx : (countIndex s).lz.pfx = s.lz.pfx := rfl
@[simp] theorem countIndex_lz_dict : (countIndex s).lz.dict = s.lz.dict := rfl
@[simp] theorem countIndex_lz_acc : (countIndex s).lz.acc = s.lz.acc := rfl
@[simp] theorem countIndex_lz_nb : (countIndex s).lz.nb = s.lz.nb := rfl
@[simp] theorem countIndex_lz_blk : (countIndex s).lz.blk = s.lz.blk := rfl
@[simp] theorem countIndex_lz_bl : (countIndex s).lz.bl = s.lz.bl := rfl
@[simp] theorem countIndex_lz_count : (countIndex s).lz.count = s.lz.count + 1 := rfl
@[simp] theorem countIndex_lz_bytes : (countIndex s).lz.bytes = s.lz.bytes := rfl
@[simp] theorem countIndex_pq : (countIndex s).pq = s.pq := rfl
@[simp] theorem countIndex_lzo : (countIndex s).lzo = s.lzo := rfl
@[simp] theorem countIndex_rsp : (countIndex s).rsp = s.rsp := rfl
@[simp] theorem countIndex_port : (countIndex s).port = s.port := rfl

/-! ### `closeFrame` -/

@[simp] theorem closeFrame_params : (closeFrame s).params = s.params := rfl
@[simp] theorem closeFrame_err : (closeFrame s).err = s.err := rfl
@[simp] theorem closeFrame_lz_act : (closeFrame s).lz.act = false := rfl
@[simp] theorem closeFrame_lz_k : (closeFrame s).lz.k = s.lz.k := rfl
@[simp] theorem closeFrame_lz_r : (closeFrame s).lz.r = s.lz.r := rfl
@[simp] theorem closeFrame_lz_w : (closeFrame s).lz.w = s.lz.w := rfl
@[simp] theorem closeFrame_lz_n : (closeFrame s).lz.n = s.lz.n := rfl
@[simp] theorem closeFrame_lz_pv : (closeFrame s).lz.pv = false := rfl
@[simp] theorem closeFrame_lz_pfx : (closeFrame s).lz.pfx = s.lz.pfx := rfl
@[simp] theorem closeFrame_lz_dict : (closeFrame s).lz.dict = s.lz.dict := rfl
@[simp] theorem closeFrame_lz_acc : (closeFrame s).lz.acc = s.lz.acc := rfl
@[simp] theorem closeFrame_lz_nb : (closeFrame s).lz.nb = s.lz.nb := rfl
@[simp] theorem closeFrame_lz_blk : (closeFrame s).lz.blk = s.lz.blk := rfl
@[simp] theorem closeFrame_lz_bl : (closeFrame s).lz.bl = s.lz.bl := rfl
@[simp] theorem closeFrame_lz_count : (closeFrame s).lz.count = s.lz.count := rfl
@[simp] theorem closeFrame_lz_bytes : (closeFrame s).lz.bytes = s.lz.bytes := rfl
@[simp] theorem closeFrame_pq : (closeFrame s).pq = s.pq := rfl
@[simp] theorem closeFrame_lzo : (closeFrame s).lzo = s.lzo := rfl
@[simp] theorem closeFrame_rsp : (closeFrame s).rsp = s.rsp := rfl
@[simp] theorem closeFrame_port : (closeFrame s).port = s.port := rfl

/-! ### `qBegin` -/

@[simp] theorem qBegin_params : (qBegin s).params = s.params := rfl
@[simp] theorem qBegin_err : (qBegin s).err = s.err := rfl
@[simp] theorem qBegin_lz : (qBegin s).lz = s.lz := rfl
@[simp] theorem qBegin_pq : (qBegin s).pq = s.pq.begun := rfl
@[simp] theorem qBegin_lzo : (qBegin s).lzo = s.lzo := rfl
@[simp] theorem qBegin_rsp : (qBegin s).rsp = s.rsp := rfl
@[simp] theorem qBegin_port : (qBegin s).port = s.port := rfl

/-! ### `PqUnit.begun` -/

@[simp] theorem begun_st (q : PqUnit) : (q.begun).st = .collect := rfl
@[simp] theorem begun_any (q : PqUnit) : (q.begun).any = false := rfl
@[simp] theorem begun_npix (q : PqUnit) : (q.begun).npix = 0 := rfl
@[simp] theorem begun_ex (q : PqUnit) : (q.begun).ex = q.ex := rfl
@[simp] theorem begun_exn (q : PqUnit) : (q.begun).exn = 0 := rfl
@[simp] theorem begun_ovf (q : PqUnit) : (q.begun).ovf = false := rfl
@[simp] theorem begun_seen (q : PqUnit) : (q.begun).seen = Vector.replicate 256 false := rfl
@[simp] theorem begun_rep (q : PqUnit) : (q.begun).rep = q.rep := rfl
@[simp] theorem begun_ord (q : PqUnit) : (q.begun).ord = q.ord := rfl
@[simp] theorem begun_bkn (q : PqUnit) : (q.begun).bkn = 0 := rfl
@[simp] theorem begun_pal (q : PqUnit) : (q.begun).pal = q.pal := rfl
@[simp] theorem begun_palN (q : PqUnit) : (q.begun).palN = 0 := rfl
@[simp] theorem begun_palP (q : PqUnit) : (q.begun).palP = 0 := rfl
@[simp] theorem begun_isExact (q : PqUnit) : (q.begun).isExact = false := rfl
@[simp] theorem begun_repAt (q : PqUnit) : (q.begun).repAt = q.repAt := rfl

@[simp] theorem begun_colours (q : PqUnit) : q.begun.colours = [] := by simp [PqUnit.colours]
@[simp] theorem begun_buckets (q : PqUnit) : q.begun.buckets = [] := by simp [PqUnit.buckets]
@[simp] theorem begun_entries (q : PqUnit) : q.begun.entries = [] := by simp [PqUnit.entries]
@[simp] theorem begun_seenAt (q : PqUnit) (b : BitVec 8) : q.begun.seenAt b = false := by simp [PqUnit.seenAt]

/-! ### `PqUnit.exactPalette` -/

@[simp] theorem exactPalette_st (q : PqUnit) : (q.exactPalette).st = q.st := by unfold PqUnit.exactPalette; rfl
@[simp] theorem exactPalette_any (q : PqUnit) : (q.exactPalette).any = q.any := by unfold PqUnit.exactPalette; rfl
@[simp] theorem exactPalette_npix (q : PqUnit) : (q.exactPalette).npix = q.npix := by unfold PqUnit.exactPalette; rfl
@[simp] theorem exactPalette_ex (q : PqUnit) : (q.exactPalette).ex = q.ex := by unfold PqUnit.exactPalette; rfl
@[simp] theorem exactPalette_exn (q : PqUnit) : (q.exactPalette).exn = q.exn := by unfold PqUnit.exactPalette; rfl
@[simp] theorem exactPalette_ovf (q : PqUnit) : (q.exactPalette).ovf = q.ovf := by unfold PqUnit.exactPalette; rfl
@[simp] theorem exactPalette_seen (q : PqUnit) : (q.exactPalette).seen = q.seen := by unfold PqUnit.exactPalette; rfl
@[simp] theorem exactPalette_rep (q : PqUnit) : (q.exactPalette).rep = q.rep := by unfold PqUnit.exactPalette; rfl
@[simp] theorem exactPalette_ord (q : PqUnit) : (q.exactPalette).ord = q.ord := by unfold PqUnit.exactPalette; rfl
@[simp] theorem exactPalette_bkn (q : PqUnit) : (q.exactPalette).bkn = q.bkn := by unfold PqUnit.exactPalette; rfl
@[simp] theorem exactPalette_palN (q : PqUnit) : (q.exactPalette).palN = q.exn := by unfold PqUnit.exactPalette; rfl
@[simp] theorem exactPalette_palP (q : PqUnit) : (q.exactPalette).palP = q.palP := by unfold PqUnit.exactPalette; rfl
@[simp] theorem exactPalette_isExact (q : PqUnit) : (q.exactPalette).isExact = true := by unfold PqUnit.exactPalette; rfl
@[simp] theorem exactPalette_colours (q : PqUnit) : (q.exactPalette).colours = q.colours := by simp only [PqUnit.colours, exactPalette_ex, exactPalette_exn]
@[simp] theorem exactPalette_buckets (q : PqUnit) : (q.exactPalette).buckets = q.buckets := by simp only [PqUnit.buckets, exactPalette_ord, exactPalette_bkn]
@[simp] theorem exactPalette_seenAt (q : PqUnit) : (q.exactPalette).seenAt = q.seenAt := by funext b; simp only [PqUnit.seenAt, exactPalette_seen]
@[simp] theorem exactPalette_repAt (q : PqUnit) : (q.exactPalette).repAt = q.repAt := by funext b; simp only [PqUnit.repAt, exactPalette_rep]

/-! ### `PqUnit.quantizedPalette` -/

@[simp] theorem quantizedPalette_st (q : PqUnit) : (q.quantizedPalette).st = q.st := by unfold PqUnit.quantizedPalette; rfl
@[simp] theorem quantizedPalette_any (q : PqUnit) : (q.quantizedPalette).any = q.any := by unfold PqUnit.quantizedPalette; rfl
@[simp] theorem quantizedPalette_npix (q : PqUnit) : (q.quantizedPalette).npix = q.npix := by unfold PqUnit.quantizedPalette; rfl
@[simp] theorem quantizedPalette_ex (q : PqUnit) : (q.quantizedPalette).ex = q.ex := by unfold PqUnit.quantizedPalette; rfl
@[simp] theorem quantizedPalette_exn (q : PqUnit) : (q.quantizedPalette).exn = q.exn := by unfold PqUnit.quantizedPalette; rfl
@[simp] theorem quantizedPalette_ovf (q : PqUnit) : (q.quantizedPalette).ovf = q.ovf := by unfold PqUnit.quantizedPalette; rfl
@[simp] theorem quantizedPalette_seen (q : PqUnit) : (q.quantizedPalette).seen = q.seen := by unfold PqUnit.quantizedPalette; rfl
@[simp] theorem quantizedPalette_rep (q : PqUnit) : (q.quantizedPalette).rep = q.rep := by unfold PqUnit.quantizedPalette; rfl
@[simp] theorem quantizedPalette_ord (q : PqUnit) : (q.quantizedPalette).ord = q.ord := by unfold PqUnit.quantizedPalette; rfl
@[simp] theorem quantizedPalette_bkn (q : PqUnit) : (q.quantizedPalette).bkn = q.bkn := by unfold PqUnit.quantizedPalette; rfl
@[simp] theorem quantizedPalette_palN (q : PqUnit) : (q.quantizedPalette).palN = q.bkn := by unfold PqUnit.quantizedPalette; rfl
@[simp] theorem quantizedPalette_palP (q : PqUnit) : (q.quantizedPalette).palP = q.palP := by unfold PqUnit.quantizedPalette; rfl
@[simp] theorem quantizedPalette_isExact (q : PqUnit) : (q.quantizedPalette).isExact = false := by unfold PqUnit.quantizedPalette; rfl
@[simp] theorem quantizedPalette_colours (q : PqUnit) : (q.quantizedPalette).colours = q.colours := by simp only [PqUnit.colours, quantizedPalette_ex, quantizedPalette_exn]
@[simp] theorem quantizedPalette_buckets (q : PqUnit) : (q.quantizedPalette).buckets = q.buckets := by simp only [PqUnit.buckets, quantizedPalette_ord, quantizedPalette_bkn]
@[simp] theorem quantizedPalette_seenAt (q : PqUnit) : (q.quantizedPalette).seenAt = q.seenAt := by funext b; simp only [PqUnit.seenAt, quantizedPalette_seen]
@[simp] theorem quantizedPalette_repAt (q : PqUnit) : (q.quantizedPalette).repAt = q.repAt := by funext b; simp only [PqUnit.repAt, quantizedPalette_rep]

/-! ### `PqUnit.finishBuild` -/

@[simp] theorem finishBuild_st (q : PqUnit) : (q.finishBuild).st = .built := rfl
@[simp] theorem finishBuild_any (q : PqUnit) : (q.finishBuild).any = q.any := rfl
@[simp] theorem finishBuild_npix (q : PqUnit) : (q.finishBuild).npix = q.npix := rfl
@[simp] theorem finishBuild_ex (q : PqUnit) : (q.finishBuild).ex = q.ex := rfl
@[simp] theorem finishBuild_exn (q : PqUnit) : (q.finishBuild).exn = q.exn := rfl
@[simp] theorem finishBuild_ovf (q : PqUnit) : (q.finishBuild).ovf = q.ovf := rfl
@[simp] theorem finishBuild_seen (q : PqUnit) : (q.finishBuild).seen = q.seen := rfl
@[simp] theorem finishBuild_rep (q : PqUnit) : (q.finishBuild).rep = q.rep := rfl
@[simp] theorem finishBuild_ord (q : PqUnit) : (q.finishBuild).ord = q.ord := rfl
@[simp] theorem finishBuild_bkn (q : PqUnit) : (q.finishBuild).bkn = q.bkn := rfl
@[simp] theorem finishBuild_pal (q : PqUnit) : (q.finishBuild).pal = q.pal := rfl
@[simp] theorem finishBuild_palN (q : PqUnit) : (q.finishBuild).palN = q.palN := rfl
@[simp] theorem finishBuild_palP (q : PqUnit) : (q.finishBuild).palP = BitVec.ofNat 9 (roundP q.palN.toNat) := rfl
@[simp] theorem finishBuild_isExact (q : PqUnit) : (q.finishBuild).isExact = q.isExact := rfl
@[simp] theorem finishBuild_colours (q : PqUnit) : (q.finishBuild).colours = q.colours := rfl
@[simp] theorem finishBuild_buckets (q : PqUnit) : (q.finishBuild).buckets = q.buckets := rfl
@[simp] theorem finishBuild_seenAt (q : PqUnit) : (q.finishBuild).seenAt = q.seenAt := rfl
@[simp] theorem finishBuild_repAt (q : PqUnit) : (q.finishBuild).repAt = q.repAt := rfl
@[simp] theorem finishBuild_entries (q : PqUnit) : (q.finishBuild).entries = q.entries := rfl

/-! ### `keepPalette`, `failBuild` -/

@[simp] theorem keepPalette_params (q : PqUnit) : (keepPalette q s).params = s.params := rfl
@[simp] theorem keepPalette_err (q : PqUnit) : (keepPalette q s).err = s.err := rfl
@[simp] theorem keepPalette_lz (q : PqUnit) : (keepPalette q s).lz = s.lz := rfl
@[simp] theorem keepPalette_pq (q : PqUnit) : (keepPalette q s).pq = q.finishBuild := rfl
@[simp] theorem keepPalette_lzo (q : PqUnit) : (keepPalette q s).lzo = s.lzo := rfl
@[simp] theorem keepPalette_rsp (q : PqUnit) : (keepPalette q s).rsp = s.rsp ++ [q.finishBuild.buildResponse] := rfl
@[simp] theorem keepPalette_port (q : PqUnit) : (keepPalette q s).port = s.port := rfl
@[simp] theorem failBuild_params (e : ErrKind) : (failBuild e s).params = s.params := rfl
@[simp] theorem failBuild_err (e : ErrKind) : (failBuild e s).err = s.err.set e := rfl
@[simp] theorem failBuild_lz (e : ErrKind) : (failBuild e s).lz = s.lz := rfl
@[simp] theorem failBuild_pq (e : ErrKind) : (failBuild e s).pq = { s.pq with st := .idle } := rfl
@[simp] theorem failBuild_lzo (e : ErrKind) : (failBuild e s).lzo = s.lzo := rfl
@[simp] theorem failBuild_rsp (e : ErrKind) : (failBuild e s).rsp = s.rsp ++ [Config.failureWord] := rfl
@[simp] theorem failBuild_port (e : ErrKind) : (failBuild e s).port = s.port := rfl

/-! ### `takeBeat` -/

@[simp] theorem takeBeat_params : (takeBeat s).params = s.params := rfl
@[simp] theorem takeBeat_err : (takeBeat s).err = s.err := rfl
@[simp] theorem takeBeat_lz : (takeBeat s).lz = s.lz := rfl
@[simp] theorem takeBeat_pq : (takeBeat s).pq = s.pq := rfl
@[simp] theorem takeBeat_lzo : (takeBeat s).lzo = s.lzo.drop 1 := rfl
@[simp] theorem takeBeat_rsp : (takeBeat s).rsp = s.rsp := rfl
@[simp] theorem takeBeat_port : (takeBeat s).port = s.port := rfl

/-! ### `takeWord` -/

@[simp] theorem takeWord_params : (takeWord s).params = s.params := rfl
@[simp] theorem takeWord_err : (takeWord s).err = s.err := rfl
@[simp] theorem takeWord_lz : (takeWord s).lz = s.lz := rfl
@[simp] theorem takeWord_pq : (takeWord s).pq = s.pq := rfl
@[simp] theorem takeWord_lzo : (takeWord s).lzo = s.lzo := rfl
@[simp] theorem takeWord_rsp : (takeWord s).rsp = s.rsp.drop 1 := rfl
@[simp] theorem takeWord_port : (takeWord s).port = s.port := rfl

/-! ### `offerWord` -/

@[simp] theorem offerWord_params (v : Word) : (offerWord v s).params = s.params := rfl
@[simp] theorem offerWord_err (v : Word) : (offerWord v s).err = s.err := rfl
@[simp] theorem offerWord_lz (v : Word) : (offerWord v s).lz = s.lz := rfl
@[simp] theorem offerWord_pq (v : Word) : (offerWord v s).pq = s.pq := rfl
@[simp] theorem offerWord_lzo (v : Word) : (offerWord v s).lzo = s.lzo := rfl
@[simp] theorem offerWord_rsp (v : Word) : (offerWord v s).rsp = s.rsp := rfl
@[simp] theorem offerWord_port (v : Word) : (offerWord v s).port = .command v :: s.port := rfl

/-! ### `resetBlock` -/

@[simp] theorem resetBlock_params : (resetBlock s).params = s.params := rfl
@[simp] theorem resetBlock_err : (resetBlock s).err = ErrBits.reset := rfl
@[simp] theorem resetBlock_lz : (resetBlock s).lz = LzUnit.reset := rfl
@[simp] theorem resetBlock_pq : (resetBlock s).pq = PqUnit.reset := rfl
@[simp] theorem resetBlock_lzo : (resetBlock s).lzo = [] := rfl
@[simp] theorem resetBlock_rsp : (resetBlock s).rsp = [] := rfl
@[simp] theorem resetBlock_port : (resetBlock s).port = s.port := rfl

end Sys2Proof.Machine
end

