-- ==== Sys2Proof/Laws/Ops.lean ====
section
/-! SUPPORT. What the shared operations of Machine/Ops.lean do, said once: the streams, the code table as an exact finite map in
canonical form, the gate of the halted state, and the error bits. -/

namespace Sys2Proof.Machine

/-! ### Streams -/

/-- `outBytes` appends one data beat per byte and counts them. -/
theorem outBytes_eq (bs : List Byte) (s : State) :
    outBytes bs s =
      { s with
        lzo := s.lzo ++ bs.map dataBeat
        lz := { s.lz with bytes := s.lz.bytes + BitVec.ofNat 32 bs.length } } := by
  induction bs generalizing s with
  | nil => simp [outBytes]
  | cons b bs ih =>
    simp only [outBytes, ih, outBeat]
    simp only [List.map_cons, List.length_cons, List.append_assoc, List.singleton_append]
    congr 2
    rw [BitVec.add_assoc, Nat.add_comm bs.length 1, BitVec.ofNat_add]
    rfl

/-! ### Arrays held as counted lists -/

/-- A list with one more entry set at its end. -/
theorem take_succ_set {α : Type} (l : List α) (n : Nat) (x : α) (h : n < l.length) :
    (l.set n x).take (n + 1) = l.take n ++ [x] := by
  rw [List.take_succ_eq_append_getElem (by simpa using h), List.take_set_of_le (le_refl n)]
  simp

/-! ### The halted gate -/

@[simp] theorem unlessHalted_running {halted go : State → State} {s : State} (h : s.err.internal = false) :
    unlessHalted halted go s = go s := by
  simp [unlessHalted, h]

@[simp] theorem unlessHalted_halted {halted go : State → State} {s : State} (h : s.err.internal = true) :
    unlessHalted halted go s = halted s := by
  simp [unlessHalted, h]

/-! ### Error bits -/

@[simp] theorem ErrBits.set_bit_self (e : ErrBits) (k : ErrKind) : (e.set k).bit k = true := by
  cases k <;> rfl

theorem ErrBits.set_bit_other (e : ErrBits) {k f : ErrKind} (h : f ≠ k) : (e.set k).bit f = e.bit f := by
  cases k <;> cases f <;> first | rfl | exact absurd rfl h

/-- A set bit stays set when another error is raised (60_exceptions.md R210). -/
theorem ErrBits.set_bit_of_bit {e : ErrBits} {f : ErrKind} (k : ErrKind) (h : e.bit f = true) : (e.set k).bit f = true := by
  by_cases hk : f = k
  · subst hk; exact e.set_bit_self f
  · rw [e.set_bit_other hk, h]

theorem ErrBits.any_iff (e : ErrBits) : e.any = true ↔ ∃ k : ErrKind, e.bit k = true := by
  constructor
  · intro h
    simp only [ErrBits.any, Bool.or_eq_true] at h
    obtain (((h | h) | h) | h) | h := h
    exacts [⟨.input, h⟩, ⟨.palette, h⟩, ⟨.internal, h⟩, ⟨.cmd, h⟩, ⟨.opcode, h⟩]
  · rintro ⟨k, hk⟩
    cases k <;> simp_all [ErrBits.any, ErrBits.bit]

/-! ### The code table -/

/-- The key of a pair determines the pair. -/
theorem dictKey_injective {p p' : Code} {x x' : Index} (h : dictKey p x = dictKey p' x') : p = p' ∧ x = x' := by
  simp only [dictKey] at h
  have hx := x.isLt
  have hx' := x'.isLt
  constructor <;> apply BitVec.eq_of_toNat_eq <;> omega

/-- An entry has the key of a pair exactly when it is that pair's entry. -/
theorem DictEntry.key_eq_iff (e : DictEntry) (p : Code) (x : Index) : e.key = dictKey p x ↔ e.pfx = p ∧ e.idx = x :=
  ⟨fun h => dictKey_injective h, fun h => by simp [DictEntry.key, h.1, h.2]⟩

/-- A lookup answers exactly what a listed entry says (10_state.md R29: it never returns a false match). -/
theorem dictFind_mem {p : Code} {x : Index} {c : Code} {d : List DictEntry} (h : dictFind p x d = some c) :
    ∃ e ∈ d, e.pfx = p ∧ e.idx = x ∧ e.code = c := by
  induction d with
  | nil => simp [dictFind] at h
  | cons e d ih =>
    simp only [dictFind] at h
    split at h
    · next he => exact ⟨e, by simp, he.1, he.2, by simpa using h⟩
    · obtain ⟨e', hm, h'⟩ := ih h
      exact ⟨e', by simp [hm], h'⟩

/-- A lookup fails exactly when no entry has the pair. -/
theorem dictFind_eq_none_iff {p : Code} {x : Index} {d : List DictEntry} :
    dictFind p x d = none ↔ ∀ e ∈ d, e.key ≠ dictKey p x := by
  induction d with
  | nil => simp [dictFind]
  | cons e d ih =>
    simp only [dictFind, List.mem_cons, forall_eq_or_imp, ne_eq, e.key_eq_iff]
    split
    · next he => simp [he]
    · next he => simpa [he, DictEntry.key_eq_iff] using ih

/-- The entries of a table after an insertion. -/
theorem mem_dictInsert {e y : DictEntry} {d : List DictEntry} (h : y ∈ dictInsert e d) : y = e ∨ y ∈ d := by
  induction d with
  | nil => simpa [dictInsert] using h
  | cons x xs ih =>
    simp only [dictInsert] at h
    split at h
    · simpa using h
    · split at h
      · rcases List.mem_cons.1 h with h | h
        · exact .inl h
        · exact .inr (by simp [h])
      · rcases List.mem_cons.1 h with h | h
        · exact .inr (by simp [h])
        · rcases ih h with h | h
          · exact .inl h
          · exact .inr (by simp [h])

/-- Insertion keeps the canonical form. -/
theorem dictInsert_wf {e : DictEntry} {d : List DictEntry} (h : Dict.wf d) : Dict.wf (dictInsert e d) := by
  induction d with
  | nil => simp [dictInsert, Dict.wf]
  | cons x xs ih =>
    simp only [Dict.wf, List.map_cons, List.pairwise_cons] at h
    obtain ⟨hx, hxs⟩ := h
    simp only [dictInsert]
    split
    · next hlt =>
      simp only [Dict.wf, List.map_cons, List.pairwise_cons]
      refine ⟨?_, hx, hxs⟩
      intro k hk
      rcases List.mem_cons.1 hk with rfl | hk
      · exact hlt
      · exact lt_trans hlt (hx k hk)
    · next hnlt =>
      split
      · next heq =>
        simp only [Dict.wf, List.map_cons, List.pairwise_cons]
        exact ⟨by rw [heq]; exact hx, hxs⟩
      · next hne =>
        simp only [Dict.wf, List.map_cons, List.pairwise_cons]
        refine ⟨?_, ih hxs⟩
        intro k hk
        obtain ⟨y, hy, rfl⟩ := List.mem_map.1 hk
        rcases mem_dictInsert hy with rfl | hy
        · omega
        · exact hx _ (List.mem_map_of_mem hy)

/-- What a table maps after an insertion: the new pair to its code, every other pair as before. -/
theorem dictFind_dictInsert {e : DictEntry} {d : List DictEntry} (h : Dict.wf d) (p : Code) (x : Index) :
    dictFind p x (dictInsert e d) = if p = e.pfx ∧ x = e.idx then some e.code else dictFind p x d := by
  have flip : ∀ z : DictEntry, (z.pfx = p ∧ z.idx = x) ↔ (p = z.pfx ∧ x = z.idx) := fun z =>
    ⟨fun h => ⟨h.1.symm, h.2.symm⟩, fun h => ⟨h.1.symm, h.2.symm⟩⟩
  induction d with
  | nil => simp only [dictInsert, dictFind, flip]
  | cons y ys ih =>
    simp only [Dict.wf, List.map_cons, List.pairwise_cons] at h
    obtain ⟨hy, hys⟩ := h
    simp only [dictInsert]
    split
    · simp only [dictFind, flip]
    · split
      · next hk =>
        have hpair : e.pfx = y.pfx ∧ e.idx = y.idx := dictKey_injective hk
        simp only [dictFind, flip, hpair.1, hpair.2]
        split <;> rfl
      · next hne =>
        simp only [dictFind, flip, ih hys]
        by_cases h1 : p = y.pfx ∧ x = y.idx
        · have h2 : ¬(p = e.pfx ∧ x = e.idx) := by
            rintro ⟨hp, hx⟩
            exact hne (by simp [DictEntry.key, ← h1.1, ← h1.2, ← hp, ← hx])
          simp only [if_pos h1, if_neg h2]
        · simp only [if_neg h1]

/-- An insertion under a new key adds one entry. -/
theorem length_dictInsert_of_key {e : DictEntry} {d : List DictEntry} (h : ∀ y ∈ d, y.key ≠ e.key) :
    (dictInsert e d).length = d.length + 1 := by
  induction d with
  | nil => simp [dictInsert]
  | cons y ys ih =>
    simp only [List.mem_cons, forall_eq_or_imp] at h
    simp only [dictInsert]
    split
    · simp
    · split
      · next hk => exact absurd hk.symm h.1
      · simp [ih h.2]

/-- An insertion under a new key puts its entry among the others. -/
theorem dictInsert_perm_of_key {e : DictEntry} {d : List DictEntry} (h : ∀ y ∈ d, y.key ≠ e.key) :
    (dictInsert e d).Perm (e :: d) := by
  induction d with
  | nil => simp [dictInsert]
  | cons y ys ih =>
    simp only [List.mem_cons, forall_eq_or_imp] at h
    simp only [dictInsert]
    split
    · exact List.Perm.refl _
    · split
      · next hk => exact absurd hk.symm h.1
      · exact ((ih h.2).cons y).trans (List.Perm.swap e y ys)

/-- An insertion of a pair not in the table adds one entry. -/
theorem length_dictInsert {e : DictEntry} {d : List DictEntry} (h : dictFind e.pfx e.idx d = none) :
    (dictInsert e d).length = d.length + 1 := length_dictInsert_of_key (dictFind_eq_none_iff.1 h)

/-- An insertion of a pair not in the table puts its entry among the others. -/
theorem dictInsert_perm {e : DictEntry} {d : List DictEntry} (h : dictFind e.pfx e.idx d = none) :
    (dictInsert e d).Perm (e :: d) := dictInsert_perm_of_key (dictFind_eq_none_iff.1 h)

end Sys2Proof.Machine
end

