-- ==== Sys2Proof/Laws/Lz.lean ====
section
/-! SUPPORT. What the LZ primitives do, said once: each primitive entered in a state that meets the ranges of 41_lzw_encoder.md R150 goes
on, appends its bits to what the unit has sent or holds back, and changes nothing else. Callers cite these and never unfold the
primitives. -/

namespace Sys2Proof.Machine

/-- The ranges of the two buffers between commands (41_lzw_encoder.md R150). -/
structure LzUnit.Buffered (l : LzUnit) : Prop where
  nb  : l.nb.toNat ≤ 7
  acc : l.acc.toNat < 2 ^ l.nb.toNat
  bl  : l.bl.toNat ≤ 254

/-- `t` is `s` but for the buffers, the beats and their count. -/
def SameButBuffers (s t : State) : Prop :=
  t = { s with
    lzo := t.lzo
    lz := { s.lz with acc := t.lz.acc, nb := t.lz.nb, blk := t.lz.blk, bl := t.lz.bl, bytes := t.lz.bytes } }

theorem SameButBuffers.refl (s : State) : SameButBuffers s s := rfl

theorem SameButBuffers.trans {s t u : State} (h : SameButBuffers s t) (h' : SameButBuffers t u) : SameButBuffers s u := by
  unfold SameButBuffers at *
  rw [h] at h'
  exact h'

/-! What `SameButBuffers` keeps, field by field. -/

theorem SameButBuffers.params {s t : State} (h : SameButBuffers s t) : t.params = s.params := by rw [h]
theorem SameButBuffers.err {s t : State} (h : SameButBuffers s t) : t.err = s.err := by rw [h]
theorem SameButBuffers.pq {s t : State} (h : SameButBuffers s t) : t.pq = s.pq := by rw [h]
theorem SameButBuffers.rsp {s t : State} (h : SameButBuffers s t) : t.rsp = s.rsp := by rw [h]
theorem SameButBuffers.port {s t : State} (h : SameButBuffers s t) : t.port = s.port := by rw [h]
theorem SameButBuffers.lz_act {s t : State} (h : SameButBuffers s t) : t.lz.act = s.lz.act := by rw [h]
theorem SameButBuffers.lz_k {s t : State} (h : SameButBuffers s t) : t.lz.k = s.lz.k := by rw [h]
theorem SameButBuffers.lz_r {s t : State} (h : SameButBuffers s t) : t.lz.r = s.lz.r := by rw [h]
theorem SameButBuffers.lz_w {s t : State} (h : SameButBuffers s t) : t.lz.w = s.lz.w := by rw [h]
theorem SameButBuffers.lz_n {s t : State} (h : SameButBuffers s t) : t.lz.n = s.lz.n := by rw [h]
theorem SameButBuffers.lz_pv {s t : State} (h : SameButBuffers s t) : t.lz.pv = s.lz.pv := by rw [h]
theorem SameButBuffers.lz_pfx {s t : State} (h : SameButBuffers s t) : t.lz.pfx = s.lz.pfx := by rw [h]
theorem SameButBuffers.lz_dict {s t : State} (h : SameButBuffers s t) : t.lz.dict = s.lz.dict := by rw [h]
theorem SameButBuffers.lz_count {s t : State} (h : SameButBuffers s t) : t.lz.count = s.lz.count := by rw [h]

/-- The beats of full sub-blocks. -/
def chunkBeats (chunks : List (List Byte)) : List Beat := chunks.flatMap fun c => ((255 : Byte) :: c).map dataBeat

/-- From `s` to `t` the full sub-blocks `chunks` were sent. -/
structure Sent (s t : State) (chunks : List (List Byte)) : Prop where
  full  : ∀ c ∈ chunks, c.length = 255
  lzo   : t.lzo = s.lzo ++ chunkBeats chunks
  bytes : t.lz.bytes = s.lz.bytes + BitVec.ofNat 32 (chunkBeats chunks).length

theorem Sent.none (s t : State) (hl : t.lzo = s.lzo) (hb : t.lz.bytes = s.lz.bytes) : Sent s t [] :=
  ⟨by simp, by simp [chunkBeats, hl], by simp [chunkBeats, hb]⟩

theorem Sent.trans {s t u : State} {cs ds : List (List Byte)} (h : Sent s t cs) (h' : Sent t u ds) : Sent s u (cs ++ ds) := by
  refine ⟨?_, ?_, ?_⟩
  · intro c hc
    rcases List.mem_append.1 hc with hc | hc
    exacts [h.full c hc, h'.full c hc]
  · simp [h'.lzo, h.lzo, chunkBeats]
  · simp [h'.bytes, h.bytes, chunkBeats, BitVec.ofNat_add, BitVec.add_assoc]

/-- From `s` to `t` the bits `bits` were appended to what is sent or held back; the buffers are in range again and nothing else
changed. -/
structure Appends (s t : State) (bits : List Bool) : Prop where
  ranges : t.lz.Buffered
  same   : SameButBuffers s t
  stream : ∃ chunks, Sent s t chunks ∧ chunks.flatten.flatMap byteBits ++ t.lz.pendingBits = s.lz.pendingBits ++ bits

theorem Appends.trans {s t u : State} {bs cs : List Bool} (h : Appends s t bs) (h' : Appends t u cs) :
    Appends s u (bs ++ cs) := by
  obtain ⟨ch, hs, hb⟩ := h.stream
  obtain ⟨ch', hs', hb'⟩ := h'.stream
  refine ⟨h'.ranges, h.same.trans h'.same, ch ++ ch', hs.trans hs', ?_⟩
  rw [List.flatten_append, List.flatMap_append, List.append_assoc, hb', ← List.append_assoc, hb, List.append_assoc]

/-! ### The bit buffer -/

/-- The low `n` bits of the bit buffer, bit 0 first. -/
def accBits (acc : BitVec 19) (n : Nat) : List Bool := (List.range n).map acc.getLsbD

theorem pendingBits_eq (l : LzUnit) : l.pendingBits = l.pending.flatMap byteBits ++ accBits l.acc l.nb.toNat := rfl

@[simp] theorem length_byteBits (b : Byte) : (byteBits b).length = 8 := by simp [byteBits]

@[simp] theorem length_accBits (acc : BitVec 19) (n : Nat) : (accBits acc n).length = n := by simp [accBits]

@[simp] theorem length_wideCode_bits (c : WideCode) : c.bits.length = c.width := by simp [WideCode.bits]

/-- The low byte and the shifted rest are the buffer. -/
theorem accBits_split (acc : BitVec 19) {n : Nat} (h : 8 ≤ n) :
    accBits acc n = byteBits (acc.extractLsb' 0 8) ++ accBits (acc >>> 8) (n - 8) := by
  obtain ⟨m, rfl⟩ := Nat.exists_eq_add_of_le h
  rw [accBits, List.range_add, List.map_append, List.map_map, byteBits, accBits, Nat.add_sub_cancel_left]
  congr 1
  · apply List.map_congr_left
    intro j hj
    simp [List.mem_range.1 hj]
  · apply List.map_congr_left
    intro j _
    simp

/-- Adding a code that fits its width to a buffer in range appends the code's bits. -/
theorem accBits_add {acc : BitVec 19} {nb c w : Nat} (ha : acc.toNat < 2 ^ nb) (hn : nb + w ≤ 19) :
    accBits (acc ||| BitVec.ofNat 19 (c <<< nb)) (nb + w) = accBits acc nb ++ WideCode.bits ⟨c, w⟩ := by
  rw [accBits, List.range_add, List.map_append, List.map_map, accBits, WideCode.bits]
  congr 1
  · apply List.map_congr_left
    intro j hj
    have hj := List.mem_range.1 hj
    simp [BitVec.getLsbD_ofNat, Nat.testBit_shiftLeft, Nat.not_le.2 hj]
  · apply List.map_congr_left
    intro j hj
    have hj : j < w := List.mem_range.1 hj
    have hz : acc.getLsbD (nb + j) = false := by
      rw [BitVec.getLsbD, Nat.testBit_lt_two_pow]
      exact lt_of_lt_of_le ha (Nat.pow_le_pow_right (by omega) (by omega))
    simp only [Function.comp, BitVec.getLsbD_or, hz, Bool.false_or, BitVec.getLsbD_ofNat, Nat.testBit_shiftLeft]
    simp [show nb + j < 19 by omega]

/-- The buffer after adding a code stays below `2^(nb + w)`. -/
theorem acc_add_lt {acc : BitVec 19} {nb c w : Nat} (ha : acc.toNat < 2 ^ nb) (hc : c < 2 ^ w) :
    (acc ||| BitVec.ofNat 19 (c <<< nb)).toNat < 2 ^ (nb + w) := by
  rw [BitVec.toNat_or]
  apply Nat.or_lt_two_pow
  · exact lt_of_lt_of_le ha (Nat.pow_le_pow_right (by omega) (by omega))
  · refine lt_of_le_of_lt (by simpa using Nat.mod_le _ _) ?_
    rw [Nat.shiftLeft_eq, Nat.pow_add, Nat.mul_comm]
    exact Nat.mul_lt_mul_of_pos_left hc (by positivity)

/-! ### The sub-block buffer -/

theorem length_pending (l : LzUnit) : l.pending.length = min l.bl.toNat 255 := by simp [LzUnit.pending]

/-- `sendBlock` sends the length and the waiting bytes. -/
theorem sendBlock_eq (s : State) :
    sendBlock s =
      { s with
        lzo := s.lzo ++ (s.lz.bl :: s.lz.pending).map dataBeat
        lz := { s.lz with bytes := s.lz.bytes + BitVec.ofNat 32 (s.lz.pending.length + 1), bl := 0 } } := by
  simp only [sendBlock, outBytes_eq, List.length_cons]

/-- `PushByte` in range puts the byte into the buffer, or sends the full sub-block (41_lzw_encoder.md R144). -/
theorem pushByte_spec (b : Byte) (s : State) (h : s.lz.bl.toNat ≤ 254) :
    ∃ t chunks, pushByte b s = .going t ∧ t.lz.bl.toNat ≤ 254 ∧ Sent s t chunks ∧
      chunks.flatten ++ t.lz.pending = s.lz.pending ++ [b] ∧
      t = { s with lzo := t.lzo, lz := { s.lz with blk := t.lz.blk, bl := t.lz.bl, bytes := t.lz.bytes } } := by
  have hlt : s.lz.bl.toNat < Config.maxBlock := by simp only [Config.maxBlock]; omega
  have hbl : (s.lz.bl + 1).toNat = s.lz.bl.toNat + 1 := by
    rw [BitVec.toNat_add]; simp; omega
  have hpend : ((s.lz.blk.set s.lz.bl.toNat b hlt).toList.take (s.lz.bl.toNat + 1)) = s.lz.pending ++ [b] := by
    rw [Vector.toList_set, take_succ_set _ _ _ (by simpa using hlt)]; rfl
  simp only [pushByte, dif_pos hlt]
  by_cases hf : s.lz.bl.toNat = 254
  · have hfull : (s.lz.bl + 1).toNat = Config.maxBlock := by rw [hbl, hf]
    have hfull' : s.lz.bl + 1 = 255 := BitVec.eq_of_toNat_eq hfull
    refine ⟨_, [s.lz.pending ++ [b]], rfl, ?_⟩
    rw [if_pos hfull, sendBlock_eq]
    have hlen : (s.lz.pending ++ [b]).length = 255 := by simp [length_pending, hf]
    rw [show LzUnit.pending { s.lz with blk := s.lz.blk.set s.lz.bl.toNat b hlt, bl := s.lz.bl + 1 } =
        s.lz.pending ++ [b] by rw [LzUnit.pending, hbl]; exact hpend]
    refine ⟨by simp, ⟨by simpa using hlen, ?_, ?_⟩, ?_, rfl⟩
    · simpa [chunkBeats] using congrArg dataBeat hfull'
    · simp [chunkBeats]
    · simp [LzUnit.pending]
  · have hnf : ¬(s.lz.bl + 1).toNat = Config.maxBlock := by rw [hbl]; simp only [Config.maxBlock]; omega
    refine ⟨_, [], rfl, ?_⟩
    rw [if_neg hnf]
    refine ⟨by simp only [hbl]; omega, Sent.none _ _ rfl rfl, ?_, rfl⟩
    simp only [List.flatten_nil, List.nil_append, LzUnit.pending, hbl, hpend]

/-! ### Emit -/

/-- Taking one byte off the bit buffer: the byte goes to the sub-block buffer (41_lzw_encoder.md R142). -/
theorem shiftByte_spec (s : State) (hbl : s.lz.bl.toNat ≤ 254) (hnb : 8 ≤ s.lz.nb.toNat)
    (hacc : s.lz.acc.toNat < 2 ^ s.lz.nb.toNat) :
    ∃ t chunks, (pushByte s.lz.lowByte s).andThen (fun s1 => .going (shiftByte s1)) = .going t ∧
      t.lz.bl.toNat ≤ 254 ∧ t.lz.nb.toNat = s.lz.nb.toNat - 8 ∧ t.lz.acc.toNat < 2 ^ t.lz.nb.toNat ∧ Sent s t chunks ∧
      chunks.flatten.flatMap byteBits ++ t.lz.pendingBits = s.lz.pendingBits ∧ SameButBuffers s t := by
  obtain ⟨u, chunks, hp, hubl, hsent, hpend, hu⟩ := pushByte_spec s.lz.lowByte s hbl
  have hacc' : u.lz.acc = s.lz.acc := by rw [hu]
  have hnb' : u.lz.nb = s.lz.nb := by rw [hu]
  have hsub : (s.lz.nb - 8).toNat = s.lz.nb.toNat - 8 := by
    have := s.lz.nb.isLt
    rw [BitVec.toNat_sub]; simp; omega
  refine ⟨shiftByte u, chunks, by simp [hp, Progress.andThen], hubl, ?_, ?_, ?_, ?_, ?_⟩
  · rw [shiftByte_lz_nb, hnb', hsub]
  · simp only [shiftByte_lz_acc, shiftByte_lz_nb, hnb', hacc', hsub, BitVec.toNat_ushiftRight, Nat.shiftRight_eq_div_pow]
    rw [Nat.div_lt_iff_lt_mul (by positivity), ← Nat.pow_add, Nat.sub_add_cancel hnb]
    exact hacc
  · exact ⟨hsent.full, hsent.lzo, hsent.bytes⟩
  · rw [pendingBits_eq, pendingBits_eq s.lz, accBits_split _ hnb, ← List.append_assoc, ← List.append_assoc]
    simp only [shiftByte_lz_acc, shiftByte_lz_nb, hnb', hacc', hsub]
    congr 1
    rw [show (shiftByte u).lz.pending = u.lz.pending from rfl, ← List.flatMap_append, hpend]
    simp [LzUnit.lowByte]
  · unfold SameButBuffers
    rw [show shiftByte u = { u with lz := { u.lz with acc := u.lz.acc >>> 8, nb := u.lz.nb - 8 } } from rfl]
    rw [hu]

/-- The loop of `Emit` from any number of bits in range: whole bytes leave, fewer than 8 bits stay. -/
theorem drainBytes_spec (fuel : Nat) (s : State) (hbl : s.lz.bl.toNat ≤ 254) (hnb : s.lz.nb.toNat < 8 * (fuel + 1))
    (hacc : s.lz.acc.toNat < 2 ^ s.lz.nb.toNat) :
    ∃ t chunks, drainBytes fuel s = .going t ∧ t.lz.Buffered ∧ Sent s t chunks ∧
      chunks.flatten.flatMap byteBits ++ t.lz.pendingBits = s.lz.pendingBits ∧ SameButBuffers s t := by
  induction fuel generalizing s with
  | zero => exact ⟨s, [], rfl, ⟨by omega, hacc, hbl⟩, Sent.none _ _ rfl rfl, by simp, SameButBuffers.refl s⟩
  | succ fuel ih =>
    by_cases h8 : 8 ≤ s.lz.nb.toNat
    · obtain ⟨u, ch, hp, hubl, hunb, huacc, hsent, hbits, hsame⟩ := shiftByte_spec s hbl h8 hacc
      obtain ⟨t, ch', hd, hbuf, hsent', hbits', hsame'⟩ := ih u hubl (by omega) huacc
      refine ⟨t, ch ++ ch', ?_, hbuf, hsent.trans hsent', ?_, hsame.trans hsame'⟩
      · simp only [drainBytes, if_pos h8]
        cases hpb : pushByte s.lz.lowByte s with
        | going v =>
          rw [hpb] at hp
          simp only [Progress.andThen, Progress.going.injEq] at hp ⊢
          rw [hp, hd]
        | ended v => rw [hpb] at hp; simp [Progress.andThen] at hp
      · rw [List.flatten_append, List.flatMap_append, List.append_assoc, hbits', hbits]
    · refine ⟨s, [], by simp only [drainBytes, if_neg h8], ⟨by omega, hacc, hbl⟩, Sent.none _ _ rfl rfl, by simp,
        SameButBuffers.refl s⟩

/-- `Emit(c, w)` in range appends the code's bits, least significant first (41_lzw_encoder.md R142, 20_memory.md R62). -/
theorem emit_spec (c w : Nat) (s : State) (h : s.lz.Buffered) (hc : c < 2 ^ w) (hw : w ≤ 12) :
    ∃ t, emit c w s = .going t ∧ Appends s t (WideCode.bits ⟨c, w⟩) := by
  have hcheck : ¬(2 ^ w ≤ c ∨ Config.maxCodeWidth < w) := by simp only [Config.maxCodeWidth]; omega
  have hnb : (s.lz.nb + BitVec.ofNat 5 w).toNat = s.lz.nb.toNat + w := by
    have := h.nb
    rw [BitVec.toNat_add, BitVec.toNat_ofNat]; omega
  have h7 := h.nb
  obtain ⟨t, ch, hd, hbuf, hsent, hbits, hsame⟩ :=
    drainBytes_spec 3 (addBits c w s) h.bl (by simp only [addBits_lz_nb, hnb]; omega)
      (by simp only [addBits_lz_nb, addBits_lz_acc, hnb]; exact acc_add_lt h.acc hc)
  refine ⟨t, by simp only [emit, if_neg hcheck, hd], hbuf, ?_, ch, ⟨hsent.full, hsent.lzo, hsent.bytes⟩, ?_⟩
  · exact SameButBuffers.trans (t := addBits c w s) rfl hsame
  · rw [hbits, pendingBits_eq, pendingBits_eq, addBits_lz_nb, addBits_lz_acc, hnb,
      accBits_add h.acc (by omega), List.append_assoc]
    rfl

/-! ### Flush -/

/-- The bits of a bit list packed into its last byte, padded with zeros. -/
theorem flushBits_spec (s : State) (h : s.lz.Buffered) :
    ∃ t chunks, flushBits s = .going t ∧ t.lz.bl.toNat ≤ 254 ∧ t.lz.nb = 0 ∧ t.lz.acc = 0 ∧ Sent s t chunks ∧
      chunks.flatten ++ t.lz.pending = s.lz.pending ++ (if s.lz.nb.toNat = 0 then [] else [s.lz.lowByte]) ∧
      SameButBuffers s t := by
  by_cases h0 : s.lz.nb.toNat = 0
  · have hacc : s.lz.acc = 0 := by
      apply BitVec.eq_of_toNat_eq
      have := h.acc
      rw [h0] at this
      simpa using this
    have hnb : s.lz.nb = 0 := BitVec.eq_of_toNat_eq h0
    refine ⟨s, [], by simp only [flushBits, if_pos h0], h.bl, hnb, hacc, Sent.none _ _ rfl rfl, by simp [h0],
      SameButBuffers.refl s⟩
  · obtain ⟨u, chunks, hp, hubl, hsent, hpend, hu⟩ := pushByte_spec s.lz.lowByte s h.bl
    refine ⟨{ u with lz := { u.lz with acc := 0, nb := 0 } }, chunks, ?_, hubl, rfl, rfl,
      ⟨hsent.full, hsent.lzo, hsent.bytes⟩, ?_, ?_⟩
    · simp only [flushBits, if_neg h0, hp, Progress.andThen]
    · rw [if_neg h0]; exact hpend
    · unfold SameButBuffers
      rw [hu]

/-- `flushBlock` sends what waits, if anything does (41_lzw_encoder.md R148). -/
theorem flushBlock_eq (s : State) :
    flushBlock s =
      { s with
        lzo := s.lzo ++ ((if s.lz.bl.toNat = 0 then [] else s.lz.bl :: s.lz.pending).map dataBeat)
        lz := { s.lz with
          bytes := s.lz.bytes + BitVec.ofNat 32 (if s.lz.bl.toNat = 0 then [] else s.lz.bl :: s.lz.pending).length,
          bl := 0 } } := by
  by_cases h0 : s.lz.bl.toNat = 0
  · have hbl : s.lz.bl = 0 := BitVec.eq_of_toNat_eq h0
    simp only [flushBlock, if_pos h0, List.map_nil, List.append_nil, List.length_nil]
    conv_lhs => rw [show s = { s with lz := { s.lz with bl := s.lz.bl } } from rfl, hbl]
    simp
  · simp only [flushBlock, if_neg h0, sendBlock_eq, List.length_cons]

/-! ### Width and table -/

/-- `WidthStep()` only changes the width (41_lzw_encoder.md R145). -/
theorem widthStep_eq (s : State) : widthStep s = { s with lz := { s.lz with w := (widthStep s).lz.w } } := by
  unfold widthStep
  split <;> rfl

/-! Every field but the width stays. -/

@[simp] theorem widthStep_params (s : State) : (widthStep s).params = s.params := by rw [widthStep_eq]
@[simp] theorem widthStep_err (s : State) : (widthStep s).err = s.err := by rw [widthStep_eq]
@[simp] theorem widthStep_pq (s : State) : (widthStep s).pq = s.pq := by rw [widthStep_eq]
@[simp] theorem widthStep_lzo (s : State) : (widthStep s).lzo = s.lzo := by rw [widthStep_eq]
@[simp] theorem widthStep_rsp (s : State) : (widthStep s).rsp = s.rsp := by rw [widthStep_eq]
@[simp] theorem widthStep_port (s : State) : (widthStep s).port = s.port := by rw [widthStep_eq]
@[simp] theorem widthStep_lz_act (s : State) : (widthStep s).lz.act = s.lz.act := by rw [widthStep_eq]
@[simp] theorem widthStep_lz_k (s : State) : (widthStep s).lz.k = s.lz.k := by rw [widthStep_eq]
@[simp] theorem widthStep_lz_r (s : State) : (widthStep s).lz.r = s.lz.r := by rw [widthStep_eq]
@[simp] theorem widthStep_lz_n (s : State) : (widthStep s).lz.n = s.lz.n := by rw [widthStep_eq]
@[simp] theorem widthStep_lz_pv (s : State) : (widthStep s).lz.pv = s.lz.pv := by rw [widthStep_eq]
@[simp] theorem widthStep_lz_pfx (s : State) : (widthStep s).lz.pfx = s.lz.pfx := by rw [widthStep_eq]
@[simp] theorem widthStep_lz_dict (s : State) : (widthStep s).lz.dict = s.lz.dict := by rw [widthStep_eq]
@[simp] theorem widthStep_lz_acc (s : State) : (widthStep s).lz.acc = s.lz.acc := by rw [widthStep_eq]
@[simp] theorem widthStep_lz_nb (s : State) : (widthStep s).lz.nb = s.lz.nb := by rw [widthStep_eq]
@[simp] theorem widthStep_lz_blk (s : State) : (widthStep s).lz.blk = s.lz.blk := by rw [widthStep_eq]
@[simp] theorem widthStep_lz_bl (s : State) : (widthStep s).lz.bl = s.lz.bl := by rw [widthStep_eq]
@[simp] theorem widthStep_lz_count (s : State) : (widthStep s).lz.count = s.lz.count := by rw [widthStep_eq]
@[simp] theorem widthStep_lz_bytes (s : State) : (widthStep s).lz.bytes = s.lz.bytes := by rw [widthStep_eq]

/-- The width after `WidthStep()` (41_lzw_encoder.md R145). -/
theorem widthStep_w (s : State) : (widthStep s).lz.w.toNat = grownWidth s.lz.w.toNat s.lz.n.toNat := by
  unfold widthStep grownWidth
  split
  · next h =>
    have := h.2
    simp only [Config.maxCodeWidth] at this
    show (s.lz.w + 1).toNat = _
    rw [BitVec.toNat_add]
    simp
    omega
  · rfl

/-- `Insert` of a pair when a code is left is the insertion proper (41_lzw_encoder.md R146). -/
theorem insertPair_room {p : Code} {x : Index} {s : State} (h : s.lz.n.toNat < 4095) :
    insertPair p x s = .going (addEntry p x s) := by
  have hn : (addEntry p x s).lz.n.toNat = s.lz.n.toNat + 1 := by
    show (s.lz.n + 1).toNat = _
    rw [BitVec.toNat_add]; simp; omega
  simp only [insertPair]
  rw [if_neg (by simp only [Config.tableSize]; omega), if_neg (by simp only [hn, Config.tableSize]; omega)]

/-- `Insert` that takes the last code writes the Clear code and resets the table (41_lzw_encoder.md R146). -/
theorem insertPair_full {p : Code} {x : Index} {s : State} (h : s.lz.n.toNat = 4095) (hb : s.lz.Buffered)
    (hc : clearCode s.lz.r.toNat < 2 ^ s.lz.w.toNat) (hw : s.lz.w.toNat ≤ 12) :
    ∃ t, insertPair p x s = .going (resetTable t) ∧
      Appends (addEntry p x s) t (WideCode.bits ⟨clearCode s.lz.r.toNat, s.lz.w.toNat⟩) := by
  have hn : (addEntry p x s).lz.n.toNat = Config.tableSize := by
    show (s.lz.n + 1).toNat = _
    rw [BitVec.toNat_add]; simp [Config.tableSize, h]
  obtain ⟨t, ht, ha⟩ := emit_spec (clearCode s.lz.r.toNat) s.lz.w.toNat (addEntry p x s) ⟨hb.nb, hb.acc, hb.bl⟩ hc hw
  refine ⟨t, ?_, ha⟩
  simp only [insertPair]
  rw [if_neg (by simp only [Config.tableSize]; omega), if_pos hn]
  show (emit (clearCode s.lz.r.toNat) s.lz.w.toNat (addEntry p x s)).andThen _ = _
  rw [ht]
  rfl

/-- `FinalFlush` in range: the full sub-blocks, the shorter last one if a byte is left, and the terminator; the buffers are empty
(41_lzw_encoder.md R148). -/
theorem finalFlush_spec (s : State) (h : s.lz.Buffered) :
    ∃ t chunks last, finalFlush s = .going t ∧ (∀ c ∈ chunks, c.length = 255) ∧ last.length ≤ 254 ∧
      chunks.flatten ++ last = s.lz.pending ++ (if s.lz.nb.toNat = 0 then [] else [s.lz.lowByte]) ∧
      t.lzo = s.lzo ++ chunkBeats chunks
        ++ (if last = [] then [] else BitVec.ofNat 8 last.length :: last).map dataBeat ++ [terminatorBeat] ∧
      t.lz.bytes = s.lz.bytes + BitVec.ofNat 32 ((chunkBeats chunks).length
        + (if last = [] then [] else BitVec.ofNat 8 last.length :: last).length + 1) ∧
      t.lz.acc = 0 ∧ t.lz.nb = 0 ∧ t.lz.bl = 0 ∧ SameButBuffers s t := by
  obtain ⟨u, chunks, hf, hbl, hnb, hacc, hsent, hpend, hsame⟩ := flushBits_spec s h
  have hlen : u.lz.pending.length = u.lz.bl.toNat := by rw [length_pending]; omega
  have hsend : (if u.lz.bl.toNat = 0 then [] else u.lz.bl :: u.lz.pending) =
      (if u.lz.pending = [] then [] else BitVec.ofNat 8 u.lz.pending.length :: u.lz.pending) := by
    by_cases h0 : u.lz.bl.toNat = 0
    · rw [if_pos h0, if_pos (List.length_eq_zero_iff.1 (by omega))]
    · rw [if_neg h0, if_neg (fun hc => h0 (by rw [← hlen, hc]; rfl)), hlen, BitVec.ofNat_toNat, BitVec.setWidth_eq]
  refine ⟨outBeat terminatorBeat (flushBlock u), chunks, u.lz.pending, ?_, hsent.full, by omega, hpend, ?_, ?_, ?_, ?_, ?_, ?_⟩
  · simp only [finalFlush, hf, Progress.andThen]
  · rw [outBeat_lzo, flushBlock_eq, hsend]
    simp only [hsent.lzo, List.append_assoc]
  · rw [outBeat_lz_bytes, flushBlock_eq, hsend]
    simp only [hsent.bytes, BitVec.ofNat_add, BitVec.add_assoc]
    rfl
  · rw [outBeat_lz_acc, flushBlock_eq]; exact hacc
  · rw [outBeat_lz_nb, flushBlock_eq]; exact hnb
  · rw [outBeat_lz_bl, flushBlock_eq]
  · refine hsame.trans ?_
    unfold SameButBuffers
    rw [flushBlock_eq]
    rfl

end Sys2Proof.Machine
end

