-- ==== Sys2Proof/Laws/Functional.lean ====
section
/-! SUPPORT. The small laws of the functional form of a frame: packing bytes gives them back, packing the bits held back gives the
bytes `FinalFlush` sends, and `Blocks` cuts off one full sub-block at a time. -/

namespace Sys2Proof.Machine

theorem ceilDiv_add (n : Nat) {d : Nat} (hd : 0 < d) : ceilDiv (n + d) d = ceilDiv n d + 1 := by
  rw [ceilDiv, ceilDiv, show n + d + d - 1 = n + d - 1 + d by omega, Nat.add_div_right _ hd]

/-- The number of the low `n` bits of `v`. -/
theorem numOfBits_testBit (v n : Nat) : numOfBits ((List.range n).map v.testBit) = v % 2 ^ n := by
  induction n generalizing v with
  | zero => simp [numOfBits, Nat.mod_one]
  | succ n ih =>
    rw [List.range_succ_eq_map, List.map_cons, List.map_map, numOfBits]
    have : (v.testBit ∘ Nat.succ) = (v / 2).testBit := by
      funext j
      simp [Nat.testBit_succ]
    rw [this, ih, Nat.pow_succ', Nat.mod_mul, Nat.testBit_zero]
    rcases Nat.mod_two_eq_zero_or_one v with h | h <;> simp [h]

/-- The number of the bits of a buffer in range. -/
theorem numOfBits_accBits {acc : BitVec 19} {n : Nat} (h : acc.toNat < 2 ^ n) : numOfBits (accBits acc n) = acc.toNat := by
  rw [accBits, show acc.getLsbD = acc.toNat.testBit from rfl, numOfBits_testBit, Nat.mod_eq_of_lt h]

theorem numOfBits_byteBits (b : Byte) : numOfBits (byteBits b) = b.toNat := by
  rw [byteBits, show b.getLsbD = b.toNat.testBit from rfl, numOfBits_testBit, Nat.mod_eq_of_lt b.isLt]

@[simp] theorem packBits_nil : packBits [] = [] := rfl

/-- Packing a byte's bits gives the byte (41_lzw_encoder.md R154). -/
theorem packBits_byte (b : Byte) (bits : List Bool) : packBits (byteBits b ++ bits) = b :: packBits bits := by
  have hlen : (byteBits b).length = 8 := length_byteBits b
  have h0 : ((byteBits b ++ bits).drop (8 * 0)).take 8 = byteBits b := by
    rw [Nat.mul_zero, List.drop_zero, ← hlen, List.take_left]
  have hs : ∀ i : Nat, (byteBits b ++ bits).drop (8 * (i + 1)) = bits.drop (8 * i) := by
    intro i
    rw [show 8 * (i + 1) = (byteBits b).length + 8 * i by rw [hlen]; omega, List.drop_append]
    simp
  rw [packBits, List.length_append, hlen, Nat.add_comm 8, ceilDiv_add _ (by decide), List.range_succ_eq_map,
    List.map_cons, List.map_map, h0, numOfBits_byteBits, BitVec.ofNat_toNat, BitVec.setWidth_eq, packBits]
  simp only [Function.comp_def, Nat.succ_eq_add_one, hs]

/-- Packing the bits of bytes gives the bytes (41_lzw_encoder.md R154). -/
theorem packBits_bytes (bs : List Byte) (bits : List Bool) : packBits (bs.flatMap byteBits ++ bits) = bs ++ packBits bits := by
  induction bs with
  | nil => rfl
  | cons b bs ih => rw [List.flatMap_cons, List.append_assoc, packBits_byte, ih, List.cons_append]

/-- The bits held back pack to the waiting bytes and, if a bit is left, the zero-padded last byte (20_memory.md R63). -/
theorem packBits_pendingBits (l : LzUnit) (h : l.Buffered) :
    packBits l.pendingBits = l.pending ++ (if l.nb.toNat = 0 then [] else [l.lowByte]) := by
  rw [pendingBits_eq, packBits_bytes]
  congr 1
  by_cases h0 : l.nb.toNat = 0
  · simp [h0, accBits]
  · have h7 := h.nb
    have hacc := h.acc
    rw [if_neg h0, packBits, length_accBits, show ceilDiv l.nb.toNat 8 = 1 by rw [ceilDiv]; omega, List.range_one,
      List.map_singleton, Nat.mul_zero, List.drop_zero, List.take_of_length_le (by simp; omega), numOfBits_accBits hacc,
      LzUnit.lowByte]
    congr 1

@[simp] theorem blocks_nil : blocks [] = [] := rfl

/-- `Blocks` sends the first 255 bytes as one sub-block (41_lzw_encoder.md R155). -/
theorem blocks_full {c : List Byte} (h : c.length = 255) (bs : List Byte) : blocks (c ++ bs) = (255 : Byte) :: c ++ blocks bs := by
  have h0 : ((c ++ bs).drop (Config.maxBlock * 0)).take Config.maxBlock = c := by
    rw [Nat.mul_zero, List.drop_zero, show Config.maxBlock = c.length from h.symm, List.take_left]
  have hs : ∀ i : Nat, (c ++ bs).drop (Config.maxBlock * (i + 1)) = bs.drop (Config.maxBlock * i) := by
    intro i
    rw [show Config.maxBlock * (i + 1) = c.length + Config.maxBlock * i by rw [h, Config.maxBlock]; omega, List.drop_append]
    simp
  rw [blocks, List.length_append, h, Nat.add_comm 255, ceilDiv_add _ (by decide), List.range_succ_eq_map,
    List.flatMap_cons, List.flatMap_map, h0, blocks]
  simp only [Nat.succ_eq_add_one, hs, h]
  rfl

/-- `Blocks` of fewer than 255 bytes is one sub-block, if there is a byte (41_lzw_encoder.md R155). -/
theorem blocks_short {bs : List Byte} (h : bs.length ≤ 254) :
    blocks bs = if bs = [] then [] else BitVec.ofNat 8 bs.length :: bs := by
  split
  · next h0 => simp [h0]
  · next h0 =>
    have : 0 < bs.length := List.length_pos_iff.2 h0
    rw [blocks, show ceilDiv bs.length Config.maxBlock = 1 by rw [ceilDiv, Config.maxBlock]; omega, List.range_one,
      List.flatMap_singleton]
    simp only [Nat.mul_zero, List.drop_zero, List.take_of_length_le (show bs.length ≤ Config.maxBlock by
      rw [Config.maxBlock]; omega)]

/-- The beats of full sub-blocks and a shorter last one are `Blocks` of their bytes (41_lzw_encoder.md R155). -/
theorem blocks_chunks (chunks : List (List Byte)) (last : List Byte) (h : ∀ c ∈ chunks, c.length = 255) (hl : last.length ≤ 254) :
    (blocks (chunks.flatten ++ last)).map dataBeat =
      chunkBeats chunks ++ (if last = [] then [] else BitVec.ofNat 8 last.length :: last).map dataBeat := by
  induction chunks with
  | nil => rw [List.flatten_nil, List.nil_append, blocks_short hl]; rfl
  | cons c cs ih =>
    rw [List.flatten_cons, List.append_assoc, blocks_full (h c (by simp)), List.cons_append, List.map_cons, List.map_append,
      ih (fun d hd => h d (by simp [hd]))]
    simp [chunkBeats]

end Sys2Proof.Machine
end

