-- ==== Sys2Proof/Laws/PerInstr.lean ====
section
/-! SUPPORT. Statements made per instruction. TableMatch: the word the encoder gives carries the fixed bits of its row of
spec/opcode_table.json, that is, the row's `match` under its `mask`. -/

namespace Sys2Proof.Laws

namespace TableMatch

/-- The row of spec/opcode_table.json: its mask of fixed bits and their values. -/
def row : Instr → Word × Word
  | .nop => (0xFFFFFFFF, 0x00000000)
  | .lzStart _ => (0xFFFFFFF0, 0x10000000)
  | .lzIndex _ => (0xFFFFFF00, 0x20000000)
  | .lzFinish => (0xFFFFFFFF, 0x30000000)
  | .qBegin => (0xFFFFFFFF, 0x40000000)
  | .qPixel _ => (0xFF000000, 0x50000000)
  | .qBuild _ => (0xFFFFFFFE, 0x60000000)
  | .qMap _ => (0xFF000000, 0x70000000)
  | .qRdpal _ => (0xFFFFFF00, 0x80000000)
  | .rdreg _ => (0xFFFFFFF0, 0x90000000)
  | .clrerr => (0xFFFFFFFF, 0xA0000000)

/-- The word of a command carries the fixed bits of its table row. -/
def Statement (i : Instr) : Prop := encode i &&& (row i).1 = (row i).2

/-- An operand of `n` bits, zero-extended, sets no bit that a mask of the bits above it keeps. -/
theorem fixed_bits {n : Nat} (x : BitVec n) (fixed mask : Word) (hm : ∀ j < 32, j < n → mask.getLsbD j = false)
    (hf : fixed &&& mask = fixed) : (fixed ||| x.setWidth 32) &&& mask = fixed := by
  apply BitVec.eq_of_getLsbD_eq
  intro j hj
  have hfj : (fixed.getLsbD j && mask.getLsbD j) = fixed.getLsbD j := by rw [← BitVec.getLsbD_and, hf]
  rw [BitVec.getLsbD_and, BitVec.getLsbD_or, BitVec.getLsbD_setWidth, Bool.and_or_distrib_right, hfj]
  by_cases hn : j < n
  · simp [hm j hj hn]
  · simp [BitVec.getLsbD_of_ge x j (by omega)]

theorem nop : Statement .nop := by unfold Statement; decide
theorem lzStart (k : BitVec 4) : Statement (.lzStart k) :=
  fixed_bits k 0x10000000 0xFFFFFFF0 (by decide) (by decide)
theorem lzIndex (i : Index) : Statement (.lzIndex i) :=
  fixed_bits i 0x20000000 0xFFFFFF00 (by decide) (by decide)
theorem lzFinish : Statement .lzFinish := by unfold Statement; decide
theorem qBegin : Statement .qBegin := by unfold Statement; decide
theorem qPixel (c : Colour) : Statement (.qPixel c) :=
  fixed_bits c 0x50000000 0xFF000000 (by decide) (by decide)
theorem qBuild (q : Bool) : Statement (.qBuild q) := by unfold Statement; cases q <;> decide
theorem qMap (c : Colour) : Statement (.qMap c) :=
  fixed_bits c 0x70000000 0xFF000000 (by decide) (by decide)
theorem qRdpal (i : Index) : Statement (.qRdpal i) :=
  fixed_bits i 0x80000000 0xFFFFFF00 (by decide) (by decide)
theorem rdreg (n : BitVec 4) : Statement (.rdreg n) :=
  fixed_bits n 0x90000000 0xFFFFFFF0 (by decide) (by decide)
theorem clrerr : Statement .clrerr := by unfold Statement; decide

end TableMatch

end Sys2Proof.Laws
end

