-- ==== Sys2Proof/Laws/Port.lean ====
section
/-! SUPPORT. Everything one step can do, said once. -/

namespace Sys2Proof.Machine

/-- A command is never refused and never faults. -/
theorem exec_next (i : Instr) (s : State) : ∃ t, exec i s = .next t := by
  cases i <;> exact ⟨_, rfl⟩

/-- A step serves one event of the host's, or idles. -/
theorem step_cases {s t : State} (h : step s = .next t) :
    (nextEvent s.cmdReady s.port = none ∧ t = s) ∨
    (∃ (w : Word) (es : List HostEvent), nextEvent s.cmdReady s.port = some (.command w, es) ∧
      ((∃ i, decode w = .command i ∧ exec i { s with port := es } = .next t) ∨
       ∃ r, decode w = .reject r ∧ t = rejectWord r { s with port := es })) ∨
    (∃ es, nextEvent s.cmdReady s.port = some (.takeBeat, es) ∧ t = takeBeat { s with port := es }) ∨
    (∃ es, nextEvent s.cmdReady s.port = some (.takeWord, es) ∧ t = takeWord { s with port := es }) ∨
    (∃ es, nextEvent s.cmdReady s.port = some (.resetEdge, es) ∧ t = resetBlock { s with port := es }) := by
  unfold step servePort at h
  split at h
  · next hn => exact .inl ⟨hn, by simpa using h.symm⟩
  · next e es hn =>
    cases e with
    | command w =>
      simp only [serve, acceptWord] at h
      split at h
      · next i hi => exact .inr (.inl ⟨w, es, hn, .inl ⟨i, hi, h⟩⟩)
      · next r hr => exact .inr (.inl ⟨w, es, hn, .inr ⟨r, hr, by simpa using h.symm⟩⟩)
    | takeBeat => exact .inr (.inr (.inl ⟨es, hn, by simpa [serve] using h.symm⟩))
    | takeWord => exact .inr (.inr (.inr (.inl ⟨es, hn, by simpa [serve] using h.symm⟩)))
    | resetEdge => exact .inr (.inr (.inr (.inr ⟨es, hn, by simpa [serve] using h.symm⟩)))

/-- The event served while a command waits is no command. -/
theorem splitOther_ne_command {es rest : List HostEvent} {w : Word} : splitOther es ≠ some (.command w, rest) := by
  induction es generalizing rest with
  | nil => simp [splitOther]
  | cons e es ih =>
    cases e with
    | command u =>
      intro h
      obtain ⟨p, hp, heq⟩ := Option.map_eq_some_iff.1 h
      exact ih (rest := p.2) (by rw [hp, ← (Prod.mk.inj heq).1])
    | takeBeat => simp [splitOther]
    | takeWord => simp [splitOther]
    | resetEdge => simp [splitOther]

/-- Behind any number of waiting commands, the oldest event that is none is served, and the commands stay in their order. -/
theorem splitOther_commands_append (ws : List Word) {e : HostEvent} (rest : List HostEvent) (h : ∀ w, e ≠ .command w) :
    splitOther (ws.map HostEvent.command ++ e :: rest) = some (e, ws.map HostEvent.command ++ rest) := by
  induction ws with
  | nil =>
    cases e with
    | command w => exact absurd rfl (h w)
    | takeBeat | takeWord | resetEdge => rfl
  | cons w ws ih => simp [splitOther, ih]

/-- With nothing but waiting commands there is no event to serve. -/
theorem splitOther_commands (ws : List Word) : splitOther (ws.map HostEvent.command) = none := by
  induction ws with
  | nil => rfl
  | cons w ws ih => simp [splitOther, ih]

/-- While `cmd_ready` is low, the next event is the oldest that is no command. -/
theorem nextEvent_waiting (es : List HostEvent) : nextEvent false es = splitOther es := by
  cases es with
  | nil => rfl
  | cons e es => cases e <;> rfl

/-- A command is served only when `cmd_ready` is high, and it is then the oldest event. -/
theorem nextEvent_command {ready : Bool} {es rest : List HostEvent} {w : Word}
    (h : nextEvent ready es = some (.command w, rest)) : ready = true ∧ es = .command w :: rest := by
  cases ready with
  | false => exact absurd (nextEvent_waiting es ▸ h) splitOther_ne_command
  | true =>
    cases es with
    | nil => simp [nextEvent] at h
    | cons e es => cases e <;> simp_all [nextEvent]

/-- Rejecting a word changes only the error bits and `rsp`. -/
theorem rejectWord_eq (r : Reject) (s : State) :
    rejectWord r s = { s with err := (rejectWord r s).err, rsp := (rejectWord r s).rsp } := by
  unfold rejectWord
  simp only
  split <;> split <;> rfl

end Sys2Proof.Machine
end

