-- ==== Sys2Proof/Laws/Pq.lean ====
section
/-! SUPPORT. What the PQ operations do to the lists they keep, said once: the collected colours, the occupied buckets, the palette
entries, and the nearest-colour search. -/

namespace Sys2Proof.Machine

theorem succ_toNat_9 {x : BitVec 9} (h : x.toNat < 256) : (x + 1).toNat = x.toNat + 1 := by
  rw [BitVec.toNat_add]; simp; omega

/-! ### Collecting -/

/-- The colours after the exact-colour list took `c` (40_palette_quantizer.md R107). -/
theorem colours_collectColour (c : Colour) (q : PqUnit) :
    (q.collectColour c).colours =
      if c ∈ q.colours then q.colours else if q.exn.toNat < 256 then q.colours ++ [c] else q.colours := by
  unfold PqUnit.collectColour
  split
  · rfl
  · split
    · next h =>
      simp only [PqUnit.colours, succ_toNat_9 h, Vector.toList_set]
      exact take_succ_set _ _ _ (by simpa using h)
    · rfl

/-- `Q_PIXEL`'s exact-colour list touches only `q_ex`, `q_exn` and `q_ovf`. -/
theorem collectColour_eq (c : Colour) (q : PqUnit) :
    q.collectColour c = { q with
      ex := (q.collectColour c).ex, exn := (q.collectColour c).exn, ovf := (q.collectColour c).ovf } := by
  unfold PqUnit.collectColour
  split
  · rfl
  · split <;> rfl

/-- `Q_PIXEL`'s bucket table touches only `q_seen`, `q_rep`, `q_ord` and `q_bkn`. -/
theorem collectBucket_eq (c : Colour) (q : PqUnit) :
    q.collectBucket c = { q with
      seen := (q.collectBucket c).seen, rep := (q.collectBucket c).rep, ord := (q.collectBucket c).ord,
      bkn := (q.collectBucket c).bkn } := by
  unfold PqUnit.collectBucket
  simp only
  split <;> rfl

/-- The buckets after the bucket table took `c` (40_palette_quantizer.md R107). -/
theorem buckets_collectBucket (c : Colour) {q : PqUnit} (h : q.bkn.toNat < 256) :
    (q.collectBucket c).buckets = if q.seenAt (bucket c) = true then q.buckets else q.buckets ++ [bucket c] := by
  unfold PqUnit.collectBucket
  simp only
  split
  · rfl
  · simp only [PqUnit.buckets, succ_toNat_9 h, Vector.toList_setIfInBounds]
    exact take_succ_set _ _ _ (by simpa using h)

/-- Which buckets are seen after the bucket table took `c` (40_palette_quantizer.md R107). -/
theorem seenAt_collectBucket (c : Colour) (q : PqUnit) (b : BitVec 8) :
    (q.collectBucket c).seenAt b = if b = bucket c then true else q.seenAt b := by
  unfold PqUnit.collectBucket
  simp only
  split
  · next h =>
    split
    · next hb => rw [hb, h]
    · rfl
  · simp only [PqUnit.seenAt, Vector.getElem_set, ← BitVec.toNat_inj, eq_comm]

/-- The representatives after the bucket table took `c` (40_palette_quantizer.md R107). -/
theorem repAt_collectBucket (c : Colour) (q : PqUnit) (b : BitVec 8) :
    (q.collectBucket c).repAt b = if b = bucket c ∧ q.seenAt (bucket c) = false then c else q.repAt b := by
  unfold PqUnit.collectBucket
  simp only
  split
  · next h => simp [h]
  · next h =>
    simp only [PqUnit.repAt, Vector.getElem_set, ← BitVec.toNat_inj, Bool.not_eq_true] at h ⊢
    simp only [h, and_true, eq_comm]

/-! ### The palette -/

/-- The entries of the exact palette are the collected colours (40_palette_quantizer.md R109). -/
theorem entries_exactPalette (q : PqUnit) : q.exactPalette.entries = q.colours := by
  apply List.ext_getElem
  · simp [PqUnit.entries, PqUnit.colours, PqUnit.exactPalette]
  · intro i h1 h2
    have : i < q.exn.toNat := by simp [PqUnit.colours] at h2; omega
    simp [PqUnit.entries, PqUnit.colours, PqUnit.exactPalette, this]

/-- The entries of the quantized palette are the representatives of the occupied buckets (40_palette_quantizer.md R110). -/
theorem entries_quantizedPalette (q : PqUnit) : q.quantizedPalette.entries = q.buckets.map q.repAt := by
  apply List.ext_getElem
  · simp [PqUnit.entries, PqUnit.buckets, PqUnit.quantizedPalette]
  · intro i h1 h2
    have : i < q.bkn.toNat := by simp [PqUnit.buckets] at h2; omega
    simp [PqUnit.entries, PqUnit.buckets, PqUnit.quantizedPalette, this]

/-! ### The search -/

/-- The search answers the first nearest of the colours looked at (40_palette_quantizer.md R112). -/
theorem nearestFrom_spec (c : Colour) (best bd i : Nat) (es : List Colour) :
    (nearestFrom c best bd i es = best ∧ ∀ e ∈ es, bd ≤ colourDist c e) ∨
    (∃ (j : Nat) (h : j < es.length), nearestFrom c best bd i es = i + j ∧ colourDist c es[j] < bd ∧
      (∀ e ∈ es, colourDist c es[j] ≤ colourDist c e) ∧
      ∀ (m : Nat) (hm : m < j), colourDist c es[j] < colourDist c (es[m]'(by omega))) := by
  induction es generalizing best bd i with
  | nil => exact .inl ⟨rfl, by simp⟩
  | cons e es ih =>
    simp only [nearestFrom]
    split
    · next hlt =>
      obtain ⟨hr, ha⟩ | ⟨j, hj, hr, hb, ha, hm⟩ := ih i (colourDist c e) (i + 1)
      · refine .inr ⟨0, by simp, by simpa using hr, hlt, ?_, by simp⟩
        intro d hd
        rcases List.mem_cons.1 hd with rfl | hd
        exacts [le_refl _, ha d hd]
      · refine .inr ⟨j + 1, by simpa using hj, by rw [hr]; omega, lt_trans hb hlt, ?_, ?_⟩
        · intro d hd
          rcases List.mem_cons.1 hd with rfl | hd
          exacts [le_of_lt hb, ha d hd]
        · intro m hmj
          cases m with
          | zero => exact hb
          | succ m => exact hm m (by omega)
    · next hge =>
      obtain ⟨hr, ha⟩ | ⟨j, hj, hr, hb, ha, hm⟩ := ih best bd (i + 1)
      · refine .inl ⟨hr, ?_⟩
        intro d hd
        rcases List.mem_cons.1 hd with rfl | hd
        exacts [not_lt.1 hge, ha d hd]
      · refine .inr ⟨j + 1, by simpa using hj, by rw [hr]; omega, hb, ?_, ?_⟩
        · intro d hd
          rcases List.mem_cons.1 hd with rfl | hd
          exacts [le_trans (le_of_lt hb) (not_lt.1 hge), ha d hd]
        · intro m hmj
          cases m with
          | zero => exact lt_of_lt_of_le hb (not_lt.1 hge)
          | succ m => exact hm m (by omega)

end Sys2Proof.Machine
end

