-- ==== Sys2Proof/Tests/Slice0.lean ====
section
/-! SUPPORT. The model's own tests: ill-formed terms are refused, words written out from the encodings of 30_encoding.md decode to the
commands they stand for, one step of every command against the vectors of 95_test_vectors.md, and for every obligation with
hypotheses a concrete state and operands that meet them. -/

namespace Sys2Proof.Tests

open Sys2Proof.Machine

/-! ### Well-formedness: each check refuses (30_encoding.md R83, R89) -/

theorem test_wf_lzStart : AsmLine.wellFormed (.lzStart 16) = false ∧ AsmLine.wellFormed (.lzStart 15) = true := by decide
theorem test_wf_lzIndex : AsmLine.wellFormed (.lzIndex 256) = false ∧ assemble (.lzIndex 256) = none := by decide
theorem test_wf_qPixelRgb : AsmLine.wellFormed (.qPixelRgb 256 0 0) = false ∧ AsmLine.wellFormed (.qPixelRgb 0 256 0) = false ∧
    AsmLine.wellFormed (.qPixelRgb 0 0 256) = false := by decide
theorem test_wf_qPixelHex : AsmLine.wellFormed (.qPixelHex 0x1000000) = false := by decide
theorem test_wf_qBuild : AsmLine.wellFormed (.qBuild 2) = false := by decide
theorem test_wf_qMapRgb : AsmLine.wellFormed (.qMapRgb 256 0 0) = false ∧ AsmLine.wellFormed (.qMapRgb 0 256 0) = false ∧
    AsmLine.wellFormed (.qMapRgb 0 0 256) = false := by decide
theorem test_wf_qMapHex : AsmLine.wellFormed (.qMapHex 0x1000000) = false := by decide
theorem test_wf_qRdpal : AsmLine.wellFormed (.qRdpal 256) = false := by decide
theorem test_wf_rdreg : AsmLine.wellFormed (.rdregNum 16) = false := by decide
theorem test_wf_lzFrame : Pseudo.wellFormed (.lzFrame 2 [0, 256]) = false ∧ Pseudo.wellFormed (.lzFrame 16 [0]) = false := by decide
theorem test_wf_qPixels : Pseudo.wellFormed (.qPixels [0, 0x1000000]) = false ∧ (Pseudo.qPixels [0, 0x1000000]).words = none := by
  decide
theorem test_wf_qRdpals : Pseudo.wellFormed (.qRdpals 257) = false := by decide +kernel

/-! ### Decoding: words written out bit by bit (30_encoding.md R81 to R83) -/

theorem test_decode_nop : decode 0b00000000000000000000000000000000 = .command .nop := by decide
theorem test_decode_lzStart : decode 0b00010000000000000000000000001000 = .command (.lzStart 8) := by decide
theorem test_decode_lzIndex : decode 0b00100000000000000000000011111110 = .command (.lzIndex 254) := by decide
theorem test_decode_lzFinish : decode 0b00110000000000000000000000000000 = .command .lzFinish := by decide
theorem test_decode_qBegin : decode 0b01000000000000000000000000000000 = .command .qBegin := by decide
theorem test_decode_qPixel : decode 0b01010000000000010000001000000011 = .command (.qPixel 0x010203) := by decide
theorem test_decode_qBuild : decode 0b01100000000000000000000000000001 = .command (.qBuild true) := by decide
theorem test_decode_qMap : decode 0b01110000011001000000000000000000 = .command (.qMap 0x640000) := by decide
theorem test_decode_qRdpal : decode 0b10000000000000000000000010000001 = .command (.qRdpal 129) := by decide
theorem test_decode_rdreg : decode 0b10010000000000000000000000001101 = .command (.rdreg 13) := by decide
theorem test_decode_clrerr : decode 0b10100000000000000000000000000000 = .command .clrerr := by decide

/-- The reserved words of V-CT-2. -/
theorem test_decode_reserved :
    decode 0x90000010 = .reject (.reservedBits .rdreg) ∧ decode 0x9FFFFFF1 = .reject (.reservedBits .rdreg) ∧
    decode 0x00000001 = .reject (.reservedBits .nop) ∧ decode 0xB0000000 = .reject .reservedOpcode ∧
    decode 0xF0FFFFFF = .reject .reservedOpcode ∧ decode 0x60000002 = .reject (.reservedBits .qBuild) ∧
    decode 0x71000000 = .reject (.reservedBits .qMap) ∧ decode 0x80000100 = .reject (.reservedBits .qRdpal) ∧
    decode 0xA0000001 = .reject (.reservedBits .clrerr) ∧ decode 0x30000001 = .reject (.reservedBits .lzFinish) ∧
    decode 0x40000001 = .reject (.reservedBits .qBegin) ∧ decode 0x1000001F = .reject (.reservedBits .lzStart) ∧
    decode 0x20000100 = .reject (.reservedBits .lzIndex) ∧ decode 0x51000000 = .reject (.reservedBits .qPixel) := by decide

/-- The table's numbering of bits is the word's. -/
theorem test_decodeTableWord : decodeTableWord 32 0x5000007F = some (.qPixel 0x7F) ∧ decodeTableWord 32 0xC0000000 = none := by
  decide

/-! ### States -/

/-- The state after a command, or the same state where it stops. -/
def after (i : Instr) (s : State) : State :=
  match exec i s with
  | .next t => t
  | .fault _ => s
  | .refused _ => s

/-- What `RDREG 1` would answer. -/
def status (s : State) : Word := regValue s .status

/-- What the command appends to `lzo`, as (data, last, abort). -/
def sent (i : Instr) (s : State) : List (Nat × Bool × Bool) :=
  ((after i s).lzo.drop s.lzo.length).map fun b => (b.data.toNat, b.last, b.abort)

/-- What the command appends to `rsp`. -/
def answered (i : Instr) (s : State) : List Word := (after i s).rsp.drop s.rsp.length

/-- A frame in progress, with the given registers, table, bit buffer and one waiting byte. -/
def frame (k r w n : Nat) (pv : Bool) (pfx : Nat) (dict : List DictEntry) (acc nb : Nat) : State :=
  { State.reset with
    lz := { LzUnit.reset with
      act := true, k := BitVec.ofNat 4 k, r := BitVec.ofNat 4 r, w := BitVec.ofNat 4 w, n := BitVec.ofNat 13 n, pv := pv,
      pfx := BitVec.ofNat 12 pfx, dict := dict, acc := BitVec.ofNat 19 acc, nb := BitVec.ofNat 5 nb,
      blk := LzUnit.reset.blk.set 0 0x44, bl := 1, bytes := 1, count := 4 } }

/-- The state of V-LZ-13 after its row 5. -/
def row5 : State := frame 1 2 3 8 true 6 [⟨0, 1, 6⟩, ⟨1, 0, 7⟩] 0 1

/-- The state of V-LZ-13 after its row 7. -/
def row7 : State := frame 1 2 4 9 true 6 [⟨0, 1, 6⟩, ⟨1, 0, 7⟩, ⟨6, 0, 8⟩] 0xC 4

/-- An open frame without an index, `k = 2`. -/
def opened : State := frame 2 2 3 6 false 0 [] 4 3

/-- PQ collecting, with no pixel. -/
def collecting : State := { State.reset with pq := PqUnit.reset.begun }

/-- PQ collecting, with one pixel (V-SRC-8). -/
def onePixel : State := { State.reset with pq := PqUnit.reset.begun.collected 0x123456 }

/-- A built exact palette of the two colours of program P1. -/
def twoColours : State :=
  { State.reset with
    pq := { PqUnit.reset with
      st := .built, pal := (PqUnit.reset.pal.set 0 0xFF0000).set 1 0x0000FF, palN := 2, palP := 2, isExact := true } }

/-- PQ collecting after 256 colours and one more: the greys of the blue channel, and 0x000100. -/
def overflowed : State :=
  { State.reset with
    pq := { PqUnit.reset with
      st := .collect, any := true, npix := 257, ex := Vector.ofFn fun i : Fin 256 => BitVec.ofNat 24 i.val, exn := 256, ovf := true,
      seen := Vector.ofFn fun i : Fin 256 => decide (i.val < 4), rep := Vector.ofFn fun i : Fin 256 => BitVec.ofNat 24 (64 * i.val),
      ord := Vector.ofFn fun i : Fin 256 => BitVec.ofNat 8 i.val, bkn := 4 } }

/-- The halted state of V-CT-3. -/
def haltedState : State := { collecting with err := { ErrBits.reset with internal := true } }

/-- A state no run reaches: the prefix does not fit the width. -/
def broken : State := frame 2 2 3 6 true 4095 [] 4 3

/-- `s` with the given events next. -/
def offering (es : List HostEvent) (s : State) : State := { s with port := es }

/-! ### One step of each command (95_test_vectors.md) -/

/-- V-CT-3 row 8. -/
theorem test_nop : status (after .nop haltedState) = 0x404 ∧ answered .nop haltedState = [] := by decide +kernel

/-- V-LZ-13 row 1, V-LZ-10: the minimum-code-size beat and the Clear code. -/
theorem test_lzStart : sent (.lzStart 1) State.reset = [(2, false, false)] ∧ (after (.lzStart 1) State.reset).lz.acc = 4 ∧
    (after (.lzStart 1) State.reset).lz.nb = 3 ∧ (after (.lzStart 1) State.reset).lz.n = 6 ∧
    sent (.lzStart 8) State.reset = [(8, false, false)] ∧ (after (.lzStart 8) State.reset).lz.bl = 1 := by decide +kernel

/-- V-LZ-21 rows 1, 2, 11. -/
theorem test_lzStart_errors : status (after (.lzStart 0) State.reset) = 0x100 ∧ status (after (.lzStart 9) State.reset) = 0x100 ∧
    status (after (.lzStart 3) opened) = 0x801 := by decide +kernel

/-- V-LZ-13 row 6: the width grows inside the frame. -/
theorem test_lzIndex : (after (.lzIndex 0) row5).lz.w = 4 ∧ (after (.lzIndex 0) row5).lz.n = 9 ∧
    (after (.lzIndex 0) row5).lz.acc = 0xC ∧ (after (.lzIndex 0) row5).lz.nb = 4 ∧ (after (.lzIndex 0) row5).lz.pfx = 0 := by
  decide +kernel

/-- V-LZ-21 row 14: the abort. -/
theorem test_lzIndex_abort : sent (.lzIndex 4) opened = [(0, true, true)] ∧ status (after (.lzIndex 4) opened) = 0x100 := by
  decide +kernel

/-- V-LZ-13 row 8. -/
theorem test_lzFinish : sent .lzFinish row7 =
    [(0x03, false, false), (0x44, false, false), (0x6C, false, false), (0x05, false, false), (0x00, true, false)] := by
  decide +kernel

/-- V-LZ-21 row 22: the empty frame. -/
theorem test_lzFinish_empty : sent .lzFinish opened = [(0, true, true)] ∧ status (after .lzFinish opened) = 0x100 := by
  decide +kernel

/-- V-PQ-8 row 13. -/
theorem test_qBegin : status (after .qBegin twoColours) = 0x4 ∧ (after .qBegin twoColours).pq.palN = 0 := by decide +kernel

/-- V-SRC-8 row 2, V-PQ-8 row 1. -/
theorem test_qPixel : (after (.qPixel 0x123456) collecting).pq.exn = 1 ∧ (after (.qPixel 0x123456) collecting).pq.bkn = 1 ∧
    status (after (.qPixel 0x010203) State.reset) = 0x800 := by decide +kernel

/-- V-SRC-8 row 3. -/
theorem test_qBuild : answered (.qBuild false) onePixel = [0x10020001] ∧ status (after (.qBuild false) onePixel) = 0x18 := by
  decide +kernel

/-- V-PQ-8 row 7; R108 with an overflow. -/
theorem test_qBuild_errors : answered (.qBuild true) collecting = [0xFFFFFFFF] ∧ status (after (.qBuild true) collecting) = 0x100 ∧
    answered (.qBuild false) overflowed = [0xFFFFFFFF] ∧ status (after (.qBuild false) overflowed) = 0x200 ∧
    answered (.qBuild true) overflowed = [0x00040004] := by decide +kernel

/-- P1 rows 15 to 22. -/
theorem test_qMap : answered (.qMap 0xFF0000) twoColours = [0] ∧ answered (.qMap 0x0000FF) twoColours = [1] := by decide +kernel

/-- P1 rows 11 and 12; black padding. -/
theorem test_qRdpal : answered (.qRdpal 0) twoColours = [0x00FF0000] ∧ answered (.qRdpal 1) twoColours = [0x000000FF] ∧
    answered (.qRdpal 2) twoColours = [0] := by decide +kernel

/-- V-CT-1, P1 rows 13 and 14. -/
theorem test_rdreg : answered (.rdreg 0) State.reset = [0x4C5A5131] ∧ answered (.rdreg 2) State.reset = [0x000100C2] ∧
    answered (.rdreg 14) twoColours = [2] ∧ answered (.rdreg 15) twoColours = [0] := by decide +kernel

/-- V-LZ-13 row 7: `LZ_PREFIX` with its valid bit; V-CT-3 row 1. -/
theorem test_rdreg_fields : answered (.rdreg 7) row7 = [0x80000006] ∧ answered (.rdreg 1) haltedState = [0x404] := by
  decide +kernel

/-- V-PQ-8 row 12 and V-CT-3 row 7. -/
theorem test_clrerr : status (after .clrerr (raise .cmd twoColours)) = 0x18 ∧ status (after .clrerr haltedState) = 0x404 := by
  decide +kernel

/-- `ErrInternal` aborts the frame and halts (60_exceptions.md R213, R218). -/
theorem test_internal : sent .lzFinish broken = [(0, true, true)] ∧ status (after .lzFinish broken) = 0x400 := by decide +kernel

/-- The bucket and distance functions (40_palette_quantizer.md R101, R102). -/
theorem test_bucket_dist : bucket 0xE0E0C0 = 255 ∧ bucket 0x1F1F3F = 0 ∧ colourDist 0xFFFFFF 0 = 195075 := by decide

/-! ### Every obligation's hypotheses are met -/

theorem witness_EncodeOfDecodedCommandIsTheWord : decode 0x70FFFFFF = .command (.qMap 0xFFFFFF) := by decide

theorem witness_AssemblerGivesTheTableWords : AsmLine.wellFormed (.lzIndex 256) = false ∧ AsmLine.wellFormed (.lzIndex 255) = true ∧
    assemble (.lzStart 15) = some 0x1000000F ∧ assemble (.lzIndex 255) = some 0x200000FF ∧
    assemble (.qPixelRgb 255 255 255) = some 0x50FFFFFF ∧ assemble (.qMapRgb 255 0 1) = some 0x70FF0001 ∧
    assemble (.qPixelHex 0xFFFFFF) = some 0x50FFFFFF ∧ assemble (.qBuild 1) = some 0x60000001 ∧
    assemble (.qRdpal 255) = some 0x800000FF ∧ assemble (.rdregNum 15) = some 0x9000000F ∧
    assemble (.rdregName .qGctsz) = some 0x9000000F ∧
    16 ≤ 16 ∧ 256 ≤ 256 ∧ 2 ^ 24 ≤ 0x1000000 ∧ 2 ≤ 2 := by decide

theorem witness_PseudoInstructionsExpand : (Pseudo.lzFrame 15 [0, 255]).words = some [0x1000000F, 0x20000000, 0x200000FF, 0x30000000] ∧
    (Pseudo.qPixels [0xFFFFFF]).words = some [0x50FFFFFF] ∧ (Pseudo.qRdpals 2).words = some [0x80000000, 0x80000001] := by decide

theorem witness_StepRunsTheDecodedCommand : (offering [.command 0x20000000] row5).cmdReady = true ∧
    (offering [.command 0x20000000] row5).port = [.command 0x20000000] ∧ decode 0x20000000 = .command (.lzIndex 0) := by decide

theorem witness_ReservedOpcodeOnlySetsErrOpcode : opened.running ∧
    0xB ≤ (opField 0xB0000000).toNat ∧ 0xB ≤ (opField 0xFFFFFFFF).toNat := by decide

theorem witness_ReservedBitOnlySetsErrOpcode : opened.running ∧
    Opcode.ofField (opField 0x71000000) = some .qMap ∧ (0x71000000 : Word).getLsbD 24 = true ∧
    Opcode.qMap.operandMask.getLsbD 24 = false ∧
    Opcode.ofField (opField 0x18000000) = some .lzStart ∧ (0x18000000 : Word).getLsbD 27 = true ∧
    Opcode.lzStart.operandMask.getLsbD 27 = false := by decide

theorem witness_HaltedBlockOnlyAnswers : haltedState.halted ∧ (∃ t, step (offering [.resetEdge] haltedState) = .next t) ∧
    (∃ t, step (offering [.command 0x90000010] haltedState) = .next t) ∧ (offering [.resetEdge] haltedState).halted ∧
    nextEvent (offering [.resetEdge] haltedState).cmdReady [.resetEdge] = some (.resetEdge, []) :=
  ⟨rfl, ⟨_, rfl⟩, ⟨_, rfl⟩, rfl, rfl⟩

theorem witness_NopChangesNothing : opened.running ∧ opField 0x00000001 = 0#4 ∧ (0x00000001 : Word) ≠ 0 ∧
    opField 0x0FFFFFFF = 0#4 ∧ Instr.clrerr ≠ .nop := by decide

theorem witness_IdleBlockKeepsItsState : row5.port = [] := rfl

theorem witness_ResetGivesTheResetTable : (offering [.resetEdge] haltedState).port = [.resetEdge] := rfl

theorem witness_StreamsAreFirstInFirstOut :
    (∃ t, step (offering [.command 0x30000000] row7) = .next t) ∧ (∃ t, step (offering [.takeBeat] row7) = .next t) ∧
    (∃ t, step (offering [.takeWord] row7) = .next t) ∧ (∃ t, step (offering [.resetEdge] row7) = .next t) ∧
    (∃ t, step (offering [] row7) = .next t) := ⟨⟨_, rfl⟩, ⟨_, rfl⟩, ⟨_, rfl⟩, ⟨_, rfl⟩, ⟨_, rfl⟩⟩

theorem witness_EveryResponseBearingWordAnswersOnce : (offering [.command 0x60000000] row7).cmdReady = true ∧
    (opField 0x60000000).toNat = 6 ∧ (opField 0x90000000).toNat = 9 ∧ (opField 0x50000000).toNat = 5 ∧
    (opField 0xA0000000).toNat = 10 := by decide

theorem witness_FailureWordIsNoResult :
    (twoColours.running ∧ legalPhase (.qMap 0) twoColours = true ∧ valueError (.qMap 0) twoColours = none) ∧
    (twoColours.running ∧ legalPhase (.qRdpal 255) twoColours = true ∧ valueError (.qRdpal 255) twoColours = none) ∧
    (overflowed.running ∧ legalPhase (.qBuild true) overflowed = true ∧ valueError (.qBuild true) overflowed = none) ∧
    valueError (.qBuild false) overflowed ≠ none ∧ legalPhase (.qMap 0) collecting = false ∧ ¬haltedState.running ∧
    (0 : BitVec 4) ≠ 8 ∧ (15 : BitVec 4) ≠ 9 ∧ (11 : BitVec 4) ≠ 10 := by decide

/-- Buffers one entry deep, with two beats waiting. -/
def fullBuffers (es : List HostEvent) : State :=
  { State.reset with params := { minRoot := .two, outDepth := some 1 }, lzo := [dataBeat 2, dataBeat 1], port := es }

/-- The same with both buffers exactly full. -/
def atDepth (es : List HostEvent) : State := { fullBuffers es with lzo := [dataBeat 2], rsp := [0] }

theorem witness_FullBufferHoldsOffCommands : (fullBuffers []).params.outDepth = some 1 ∧
    (1 : PNat).val < (fullBuffers []).lzo.length ∧
    (fullBuffers [.command 0, .command 1, .takeBeat]).port = [(0 : Word), 1].map HostEvent.command ++ .takeBeat :: [] ∧
    (fullBuffers [.takeWord]).port = ([] : List Word).map HostEvent.command ++ .takeWord :: [] ∧
    (fullBuffers [.command 0, .resetEdge]).port = [(0 : Word)].map HostEvent.command ++ .resetEdge :: [] ∧
    (fullBuffers [.command 0]).port = [(0 : Word)].map HostEvent.command ∧
    (atDepth [.command 0]).params.outDepth = some 1 ∧ (atDepth [.command 0]).lzo.length ≤ (1 : PNat).val ∧
    (atDepth [.command 0]).rsp.length ≤ (1 : PNat).val ∧ (atDepth [.command 0]).port = [.command 0] ∧
    State.reset.params.outDepth = none ∧ (offering [.command 0] State.reset).port = [.command 0] := by decide

theorem witness_ParametersNeverChange : ∃ t, step (offering [.resetEdge] (fullBuffers [])) = .next t := ⟨_, rfl⟩

theorem witness_ErrorBitsAreSticky :
    (∃ t, step (offering [.command 0xA0000000] opened) = .next t) ∧ (offering [.command 0xA0000000] opened).cmdReady = true ∧
    opened.running ∧ haltedState.halted ∧ (0x30000000 : Word) ≠ 0xA0000000 ∧ broken.running ∧ (after .lzFinish broken).halted := by
  refine ⟨⟨_, rfl⟩, ?_⟩
  decide +kernel

theorem witness_IllegalPhaseOnlyRaisesErrCmd : opened.running ∧ legalPhase (.lzStart 2) opened = false ∧
    legalPhase (.lzIndex 0) opened = true ∧ legalPhase (.qMap 0) collecting = false ∧ legalPhase (.qBuild true) collecting = true ∧
    legalPhase (.qRdpal 0) twoColours = true ∧ legalPhase (.qPixel 0) twoColours = false := by decide

theorem witness_OneErrorInPriorityOrder_halted : haltedState.halted ∧ (offering [.command 0xB0000000] haltedState).cmdReady = true := by
  decide

theorem witness_ErrOutputIsTheOrOfTheBits : opened.running ∧ ErrKind.cmd ≠ ErrKind.input := by decide

theorem witness_ClrerrClearsTheRecoverableBits : opened.running ∧ haltedState.halted := by decide

theorem witness_ReadsGiveTheSameWordTwice : twoColours.running ∧ twoColours.pq.st = .built := by decide

theorem witness_PaletteSizeIsTheLeastPowerOfTwo : roundP 1 = 2 ∧ roundP 2 = 2 ∧ roundP 3 = 4 ∧ roundP 129 = 256 ∧ roundP 256 = 256 := by
  decide

theorem witness_QBeginStartsACollection : twoColours.running := rfl

theorem witness_QPixelCollectsAColour : onePixel.running ∧ onePixel.pq.st = .collect ∧
    (0 < onePixel.pq.exn.toNat ∧ onePixel.pq.ex[0] = 0x123456) ∧ onePixel.pq.seenAt (bucket 0x123456) = true ∧
    onePixel.pq.exn.toNat < 256 ∧ onePixel.pq.seenAt (bucket 0) = false ∧ onePixel.pq.bkn.toNat < 256 ∧
    overflowed.running ∧ overflowed.pq.st = .collect ∧ overflowed.pq.exn.toNat = 256 ∧ overflowed.pq.bkn.toNat < 256 ∧
    twoColours.running ∧ twoColours.pq.st ≠ .collect := by decide +kernel

theorem witness_QBuildFailsWithoutColours : collecting.running ∧ collecting.pq.st = .collect ∧ collecting.pq.any = false ∧
    overflowed.running ∧ overflowed.pq.st = .collect ∧ overflowed.pq.any = true ∧ overflowed.pq.ovf = true := by decide +kernel

theorem witness_QBuildBuildsThePalette : onePixel.running ∧ onePixel.pq.st = .collect ∧ onePixel.pq.any = true ∧
    onePixel.pq.ovf = false ∧ overflowed.pq.ovf = true := by decide +kernel

theorem witness_QMapAnswersTheLowestNearestEntry : twoColours.running ∧ twoColours.pq.st = .built ∧ 1 ≤ twoColours.pq.palN.toNat ∧
    twoColours.pq.palN.toNat ≤ 256 ∧ (after (.qBuild true) onePixel).pq.palN.toNat = 1 ∧
    collecting.running ∧ collecting.pq.st ≠ .built := by decide +kernel

theorem witness_QRdpalReadsAnEntryOrBlack : twoColours.running ∧ twoColours.pq.st = .built ∧ (1 : Index).toNat = 1 ∧
    (1 : Index).toNat < twoColours.pq.palN.toNat ∧ twoColours.pq.palN.toNat ≤ (2 : Index).toNat ∧ collecting.pq.st ≠ .built := by
  decide

/-- A list without repeats is its own list of first occurrences. -/
theorem firstOccurrences_of_nodup {cs : List Colour} (h : cs.Nodup) : firstOccurrences id cs = cs := by
  have aux : ∀ (ds acc : List Colour), (acc ++ ds).Nodup →
      ds.foldl (fun acc c => if acc.any (fun d => decide (id d = id c)) then acc else acc ++ [c]) acc = acc ++ ds := by
    intro ds
    induction ds with
    | nil => intro acc _; simp
    | cons d ds ih =>
      intro acc hn
      have hd : acc.any (fun x => decide (id x = id d)) = false := by
        rw [List.any_eq_false]
        intro x hx
        simpa using (List.nodup_append.1 hn).2.2 x hx d (by simp)
      rw [List.foldl_cons, hd, if_neg (by simp), ih (acc ++ [d]) (by simpa using hn)]
      simp
  exact aux cs [] h

/-- The colours `0 .. n - 1`. -/
def blues (n : Nat) : List Colour := (List.range n).map (BitVec.ofNat 24)

theorem blues_nodup {n : Nat} (h : n ≤ 512) : (blues n).Nodup := by
  refine List.Nodup.of_map BitVec.toNat ?_
  rw [blues, List.map_map, List.map_congr_left (g := id) (by
    intro j hj; have := List.mem_range.1 hj; simp only [Function.comp, BitVec.toNat_ofNat, id]; omega), List.map_id]
  exact List.nodup_range

theorem witness_ExactPaletteOfAPixelSequence : State.reset.running ∧ blues 256 ≠ [] ∧
    (firstOccurrences id (blues 256)).length ≤ 256 ∧ (firstOccurrences id [0xFF0000, 0x0000FF, 0xFF0000]).length = 2 :=
  ⟨rfl, by decide, by rw [firstOccurrences_of_nodup (blues_nodup (by decide))]; simp [blues], by decide⟩

theorem witness_QuantizedPaletteOfAPixelSequence : State.reset.running ∧ 256 < (firstOccurrences id (blues 257)).length :=
  ⟨rfl, by rw [firstOccurrences_of_nodup (blues_nodup (by decide))]; simp [blues]⟩

theorem witness_LzStartOpensAFrame : opened.running ∧ opened.lz.act = true ∧ State.reset.running ∧ State.reset.lz.act = false ∧
    (0 : BitVec 4).toNat = 0 ∧ 8 < (9 : BitVec 4).toNat ∧ 1 ≤ (1 : BitVec 4).toNat ∧ (8 : BitVec 4).toNat ≤ 8 := by decide

theorem witness_BadIndexAndEmptyFrameAbort : opened.running ∧ opened.lz.act = true ∧ 2 ^ opened.lz.k.toNat ≤ (4 : Index).toNat ∧
    opened.lz.pv = false := by decide

theorem witness_LzIndexExtendsTheMatch : opened.running ∧ opened.lz.act = true ∧ (3 : Index).toNat < 2 ^ opened.lz.k.toNat ∧
    opened.lz.pv = false ∧ row5.running ∧ row5.lz.act = true ∧ row5.lz.pv = true ∧
    dictFind 0 1 row5.lz.dict = some 6 := by decide

theorem witness_FrameAppendsFrameBeats : State.reset.running ∧ State.reset.lz.act = false ∧ 1 ≤ (1 : BitVec 4).toNat ∧
    (1 : BitVec 4).toNat ≤ 8 ∧ [(0 : Index), 1, 0, 1, 0, 1] ≠ [] ∧
    (∀ x ∈ [(0 : Index), 1, 0, 1, 0, 1], x.toNat < 2 ^ (1 : BitVec 4).toNat) ∧
    ∀ x ∈ [(0 : Index), 255], x.toNat < 2 ^ (8 : BitVec 4).toNat := by decide

theorem witness_InterleavedFrameAppendsFrameBeats : State.reset.running ∧ State.reset.lz.act = false ∧ 1 ≤ (2 : BitVec 4).toNat ∧
    (2 : BitVec 4).toNat ≤ 8 ∧ [(3 : Index)] ≠ [] ∧ (∀ x ∈ [(3 : Index)], x.toNat < 2 ^ (2 : BitVec 4).toNat) ∧
    [Instr.lzStart 2, .qBegin, .lzIndex 3, .rdreg 9, .lzFinish, .clrerr].filter Instr.isLz = frameInstrs 2 [3] := by decide

/-- V-LZ-6: the codes and the frame output. -/
theorem witness_CodeWidthsFollowTheLaw : 1 ≤ 1 ∧ 1 ≤ 8 ∧ [0, 1, 0, 1, 0, 1] ≠ [] ∧ (∀ x ∈ [0, 1, 0, 1, 0, 1], x < 2 ^ 1) ∧ (lzwCodes .two 1 [0, 1, 0, 1, 0, 1]).map (fun c => (c.code, c.width)) =
    [(4, 3), (0, 3), (1, 3), (6, 3), (6, 4), (5, 4)] := by decide

theorem witness_FrameOutputHasItsShape : 1 ≤ 1 ∧ 1 ≤ 8 ∧ [0, 1, 0, 1, 0, 1] ≠ [] ∧ (∀ x ∈ [0, 1, 0, 1, 0, 1], x < 2 ^ 1) ∧
    (frameBeats .two 1 [0, 1, 0, 1, 0, 1]).map (fun b => b.data.toNat) =
    [0x02, 0x03, 0x44, 0x6C, 0x05, 0x00] := by decide +kernel

theorem witness_FrameDecodesToItsIndices : 1 ≤ 1 ∧ 1 ≤ 8 ∧ [0, 1, 0, 1, 0, 1] ≠ [] ∧ (∀ x ∈ [0, 1, 0, 1, 0, 1], x < 2 ^ 1) ∧
    refDecode [0x02, 0x03, 0x44, 0x6C, 0x05, 0x00] = some [0, 1, 0, 1, 0, 1] := by
  decide +kernel

theorem witness_CodeTableIsAnExactMap : Dict.wf row5.lz.dict := by decide

/-- `twoColours` with a frame open in the LZ unit, and `row5` with a palette built in the PQ unit. -/
def bothUnits : State := { twoColours with lz := row5.lz, lzo := [dataBeat 2] }

theorem witness_UnitsDoNotInterfere : Instr.isPq (.qMap 0) = true ∧ (∃ t, exec (.qMap 0) twoColours = .next t) ∧
    (∃ t, exec (.qMap 0) bothUnits = .next t) ∧ twoColours.err.internal = bothUnits.err.internal ∧ twoColours.pq = bothUnits.pq ∧
    twoColours.rsp = bothUnits.rsp := ⟨rfl, ⟨_, rfl⟩, ⟨_, rfl⟩, rfl, rfl, rfl⟩

theorem witness_UnitsDoNotInterfere_lz : Instr.isLz (.lzIndex 0) = true ∧ (∃ t, exec (.lzIndex 0) row5 = .next t) ∧
    (∃ t, exec (.lzIndex 0) { bothUnits with lzo := row5.lzo } = .next t) ∧ row5.err.internal = bothUnits.err.internal ∧
    row5.params = bothUnits.params ∧ row5.lz = bothUnits.lz := ⟨rfl, ⟨_, rfl⟩, ⟨_, rfl⟩, rfl, rfl, rfl⟩

/-! #### States that meet the invariant -/

/-- The reset PQ unit meets the invariant. -/
theorem pq_reset_inv : PqInv PqUnit.reset := by
  constructor <;> intros <;> simp_all [PqUnit.reset, PqUnit.colours, PqUnit.buckets, PqUnit.seenAt]

/-- The state after row 5 of V-LZ-13 meets the invariant. -/
theorem row5_inv : row5.Inv := by
  refine ⟨rfl, ?_, pq_reset_inv⟩
  constructor <;> decide +kernel

theorem row7_inv : row7.Inv := by
  refine ⟨rfl, ?_, pq_reset_inv⟩
  constructor <;> decide +kernel

theorem witness_OneErrorInPriorityOrder : row5.Inv ∧ (offering [.command 0x10000002] row5).cmdReady = true :=
  ⟨row5_inv, by decide⟩

theorem witness_LzIndexEmitsThePrefix : row5.Inv ∧ row5.lz.act = true ∧ (0 : Index).toNat < 2 ^ row5.lz.k.toNat ∧
    row5.lz.pv = true ∧ dictFind row5.lz.pfx 0 row5.lz.dict = none ∧ row5.lz.n.toNat < 4095 :=
  ⟨row5_inv, by decide⟩

theorem witness_LzFinishClosesTheFrame : row7.Inv ∧ row7.lz.act = true ∧ row7.lz.pv = true := ⟨row7_inv, by decide⟩

theorem witness_EveryStepKeepsTheInvariant : row7.Inv ∧ ∃ t, step row7 = .next t := ⟨row7_inv, ⟨_, rfl⟩⟩

theorem witness_EmittedCodesFitTheirWidth : row7.Inv ∧ row7.lz.act = true ∧ row7.lz.pv = true := ⟨row7_inv, by decide⟩

/-- A table with `m` entries under the keys `0 .. m - 1`, root width 8. -/
def tableOf (m : Nat) : List DictEntry :=
  (List.range m).map fun j => ⟨BitVec.ofNat 12 (j / 256), BitVec.ofNat 8 j, BitVec.ofNat 12 (258 + j)⟩

/-- A frame with `k = 8` and `m` table entries, at width 12. -/
def tableState (m : Nat) : State := frame 8 8 12 (258 + m) true 200 (tableOf m) 0 1

theorem tableOf_keys {m : Nat} (h : m ≤ 3837) : (tableOf m).map DictEntry.key = List.range m := by
  rw [tableOf, List.map_map]
  conv_rhs => rw [← List.map_id (List.range m)]
  apply List.map_congr_left
  intro j hj
  have := List.mem_range.1 hj
  simp only [Function.comp, DictEntry.key, dictKey, BitVec.toNat_ofNat, id]
  omega

theorem tableOf_codes {m : Nat} (h : m ≤ 3837) : ((tableOf m).map DictEntry.code).map BitVec.toNat = (List.range m).map (258 + ·) := by
  rw [tableOf, List.map_map, List.map_map]
  apply List.map_congr_left
  intro j hj
  have := List.mem_range.1 hj
  simp only [Function.comp, BitVec.toNat_ofNat]
  omega

/-- Up to a full table these states meet the invariant. -/
theorem tableState_inv {m : Nat} (h : m ≤ 3837) : (tableState m).Inv := by
  have hn : (tableState m).lz.n.toNat = 258 + m := by simp only [tableState, frame, BitVec.toNat_ofNat]; omega
  have hr : (tableState m).lz.r.toNat = 8 := rfl
  have hw : (tableState m).lz.w.toNat = 12 := rfl
  have hp : (tableState m).lz.pfx.toNat = 200 := rfl
  have hd : (tableState m).lz.dict = tableOf m := rfl
  refine ⟨rfl, ?_, pq_reset_inv⟩
  have hk : (tableState m).lz.k.toNat = 8 := rfl
  refine ⟨fun _ => by rw [hk]; decide, fun _ => by rw [hr, hk]; rfl, fun _ => by rw [hn, hr]; simp only [firstFree]; omega,
    fun _ => by rw [hn, hw]; omega, fun _ => by rw [hr, hw]; omega, fun _ => rfl, fun _ => by rw [hn, hp]; omega,
    fun _ => .inl (by rw [hp, hk]; decide), show (1 : Nat) ≤ 7 by decide, show (0 : Nat) < 2 ^ 1 by decide,
    show (1 : Nat) ≤ 254 by decide, ?_, ?_, ?_, ?_⟩
  · rw [hd, Dict.wf, tableOf_keys h]; exact List.pairwise_lt_range
  · intro _ e he
    rw [hd] at he
    have hc : e.code.toNat ∈ ((tableOf m).map DictEntry.code).map BitVec.toNat :=
      List.mem_map_of_mem (List.mem_map_of_mem he)
    rw [tableOf_codes h] at hc
    obtain ⟨j, hj, heq⟩ := List.mem_map.1 hc
    have := List.mem_range.1 hj
    rw [hn, hr, ← heq]
    simp only [firstFree]
    omega
  · intro _
    rw [hd]
    apply List.Nodup.of_map BitVec.toNat
    rw [tableOf_codes h]
    exact List.nodup_range.map (fun a b hab => by simpa using hab)
  · intro _
    rw [hd, hn, hr]
    simp only [tableOf, List.length_map, List.length_range, firstFree]
    omega

theorem tableState_misses {m : Nat} (h : m ≤ 3837) : dictFind (tableState m).lz.pfx 0 (tableState m).lz.dict = none := by
  have hd : (tableState m).lz.dict = tableOf m := rfl
  have hk : dictKey (tableState m).lz.pfx 0 = 51200 := by
    rw [dictKey, show (tableState m).lz.pfx.toNat = 200 from rfl]; rfl
  have none_of_keys : ∀ d : List DictEntry, (∀ k ∈ d.map DictEntry.key, k ≠ 51200) → dictFind (tableState m).lz.pfx 0 d = none := by
    intro d
    induction d with
    | nil => intro _; rfl
    | cons e d ih =>
      intro hne
      simp only [List.map_cons, List.forall_mem_cons] at hne
      rw [dictFind, if_neg, ih hne.2]
      rintro ⟨hp, hx⟩
      exact hne.1 (by rw [DictEntry.key, hp, hx, hk])
  rw [hd]
  apply none_of_keys
  rw [tableOf_keys h]
  intro k hk'
  have := List.mem_range.1 hk'
  omega

/-- The last insertion without a Clear code: `lz_n` is 4094. -/
theorem witness_LzIndexEmitsThePrefix_last : (tableState 3836).Inv ∧ (tableState 3836).lz.n.toNat = 4094 ∧
    (tableState 3836).lz.act = true ∧ (tableState 3836).lz.pv = true ∧ (0 : Index).toNat < 2 ^ (tableState 3836).lz.k.toNat ∧
    dictFind (tableState 3836).lz.pfx 0 (tableState 3836).lz.dict = none :=
  ⟨tableState_inv (by decide), rfl, rfl, rfl, by decide, tableState_misses (by decide)⟩

/-- The insertion that fills the table: `lz_n` is 4095. -/
theorem witness_LzIndexEmitsThePrefix_full : (tableState 3837).Inv ∧ (tableState 3837).lz.n.toNat = 4095 ∧
    (tableState 3837).lz.act = true ∧ (tableState 3837).lz.pv = true ∧ (0 : Index).toNat < 2 ^ (tableState 3837).lz.k.toNat ∧
    dictFind (tableState 3837).lz.pfx 0 (tableState 3837).lz.dict = none :=
  ⟨tableState_inv (by decide), rfl, rfl, rfl, by decide, tableState_misses (by decide)⟩

/-- The unit of `onePixel` before the two tables take the colour. -/
def counted : PqUnit := { PqUnit.reset.begun with any := true, npix := PqUnit.reset.begun.npix + 1 }

theorem onePixel_pq : onePixel.pq = (counted.collectColour 0x123456).collectBucket 0x123456 := rfl

theorem onePixel_colours : onePixel.pq.colours = [0x123456] := by
  rw [onePixel_pq, collectBucket_eq]
  exact (colours_collectColour 0x123456 counted).trans rfl

theorem onePixel_exn : onePixel.pq.exn = 1 := by decide +kernel

theorem onePixel_bkn : onePixel.pq.bkn = 1 := by decide +kernel

theorem onePixel_buckets : onePixel.pq.buckets = [bucket 0x123456] := by decide +kernel

theorem onePixel_seenAt (b : BitVec 8) : onePixel.pq.seenAt b = decide (b = bucket 0x123456) := by
  rw [onePixel_pq, seenAt_collectBucket, collectColour_eq]
  by_cases h : b = bucket 0x123456
  · simp [h]
  · rw [if_neg h, decide_eq_false h]
    exact begun_seenAt PqUnit.reset b

/-- A collecting state with one colour meets the invariant. -/
theorem onePixel_inv : onePixel.Inv := by
  have hst : onePixel.pq.st = .collect := by decide +kernel
  have hunbuilt : ∀ P : Prop, onePixel.pq.st = .built → P := fun _ h => by rw [hst] at h; cases h
  refine ⟨rfl, by constructor <;> decide +kernel, ?_⟩
  refine ⟨by rw [onePixel_exn]; decide, ?_, ?_, by rw [onePixel_bkn]; decide, ?_, ?_, ?_, ?_, ?_, ?_, fun h => hunbuilt _ h,
    fun h => hunbuilt _ h, fun h => hunbuilt _ h, ?_⟩
  · have : onePixel.pq.ovf = false := by decide +kernel
    rw [this]; intro h; cases h
  · rw [onePixel_colours]; decide
  · rw [onePixel_buckets]; decide
  · intro b; simp [onePixel_seenAt, onePixel_buckets]
  · intro b hb
    rw [onePixel_seenAt, decide_eq_true_eq] at hb
    rw [hb]; decide +kernel
  · simp [onePixel_colours, onePixel_seenAt]
  · rw [onePixel_exn]; decide +kernel
  · rw [onePixel_bkn]; decide
  · intro _; decide +kernel

theorem overflowed_colours : overflowed.pq.colours = blues 256 := by
  apply List.ext_getElem
  · simp [PqUnit.colours, overflowed, blues]
  · intro j _ _
    simp [PqUnit.colours, overflowed, blues]

theorem overflowed_buckets : overflowed.pq.buckets = [0, 1, 2, 3] := by decide +kernel

theorem overflowed_seenAt (b : BitVec 8) : overflowed.pq.seenAt b = decide (b.toNat < 4) := by
  simp [PqUnit.seenAt, overflowed]

/-- A collecting state with 256 colours and an overflow meets the invariant. -/
theorem overflowed_inv : overflowed.Inv := by
  refine ⟨rfl, by constructor <;> decide +kernel, ?_⟩
  refine ⟨by decide, fun _ => rfl, ?_, by decide, ?_, ?_, ?_, ?_, by decide, by decide, ?_, ?_, ?_, ?_⟩
  · rw [overflowed_colours]; exact blues_nodup (by decide)
  · rw [overflowed_buckets]; decide
  · simp only [overflowed_seenAt, overflowed_buckets]; decide
  · simp only [overflowed_seenAt]; decide +kernel
  · intro c hc
    rw [overflowed_colours] at hc
    obtain ⟨j, hj, rfl⟩ := List.mem_map.1 hc
    have hlow : ∀ j < 256, (bucket (BitVec.ofNat 24 j)).toNat < 4 := by decide +kernel
    rw [overflowed_seenAt, decide_eq_true (hlow j (List.mem_range.1 hj))]
  · intro hb; cases hb
  · intro hb; cases hb
  · intro hb; cases hb
  · intro _; exact ⟨rfl, rfl, rfl⟩

theorem witness_BuiltPaletteMeetsItsInvariants : onePixel.Inv ∧ onePixel.pq.st = .collect ∧ onePixel.pq.any = true ∧
    onePixel.pq.ovf = false ∧ overflowed.Inv ∧ overflowed.pq.st = .collect ∧ overflowed.pq.any = true ∧ overflowed.pq.ovf = true :=
  ⟨onePixel_inv, by decide +kernel, by decide +kernel, by decide +kernel, overflowed_inv, rfl, rfl, rfl⟩

/-- The reset state with other contents in the arrays that reset leaves unspecified. -/
def otherReset : State :=
  { State.reset with
    lz := { LzUnit.reset with blk := Vector.replicate 255 0xFF }
    pq := { PqUnit.reset with
      ex := Vector.replicate 256 1, rep := Vector.replicate 256 2, ord := Vector.replicate 256 3, pal := Vector.replicate 256 4 } }

theorem witness_UnspecifiedEntriesAreNeverSeen : State.reset.Inv ∧ State.reset.SameUsed otherReset := by
  refine ⟨⟨rfl, by constructor <;> decide +kernel, pq_reset_inv⟩, ⟨rfl, rfl, ⟨rfl, by decide +kernel⟩, ?_, rfl, rfl, rfl⟩⟩
  refine ⟨rfl, by decide +kernel, ?_, by decide +kernel, by decide +kernel⟩
  intro b hb
  simp [State.reset, State.resetFor, PqUnit.reset, PqUnit.seenAt] at hb

theorem witness_NoRunFromResetHalts : ∃ t, Host.Core.run Sys2Proof.core 1
    { State.resetFor Params.default with port := [.command 0x10000002] } = .next t := ⟨_, rfl⟩

/-- A host that sends the frame of V-LZ-5 and drains it. -/
def drained : State :=
  offering ((frameInstrs 1 [0]).map (fun i => HostEvent.command (encode i)) ++ List.replicate 5 .takeBeat) State.reset

theorem witness_DrainedFrameRunIsSuccessful : 1 ≤ (1 : BitVec 4).toNat ∧ (1 : BitVec 4).toNat ≤ 8 ∧ [(0 : Index)] ≠ [] ∧
    (∀ x ∈ [(0 : Index)], x.toNat < 2 ^ (1 : BitVec 4).toNat) ∧ drained.clean = true ∧ drained.params.outDepth = none ∧
    (frameBeats drained.params.minRoot (1 : BitVec 4).toNat ([(0 : Index)].map BitVec.toNat)).length = 5 ∧
    drained.port = (frameInstrs 1 [0]).map (fun i => HostEvent.command (encode i)) ++ List.replicate 5 .takeBeat := by decide +kernel

end Sys2Proof.Tests
end

section
/-! PROOFS. A step at the command port: which event is served, and that a word served there is accepted (00_scope.md R10). -/

namespace Sys2Proof.Machine

/-- While `cmd_ready` is high, a command that is the oldest event is the next one. -/
@[simp] theorem nextEvent_ready_command (w : Word) (es : List HostEvent) :
    nextEvent true (.command w :: es) = some (.command w, es) := rfl

/-- A step serves the next event, at the state that keeps the events left. -/
theorem step_of_nextEvent {s : State} {e : HostEvent} {es : List HostEvent}
    (h : nextEvent s.cmdReady s.port = some (e, es)) : step s = serve e { s with port := es } := by
  simp only [step, servePort, h]

/-- A step with a word next at the command port and `cmd_ready` high accepts the word. -/
theorem step_command {s : State} {w : Word} {rest : List HostEvent}
    (hport : s.port = .command w :: rest) (hready : s.cmdReady = true) :
    step s = acceptWord w { s with port := rest } :=
  step_of_nextEvent (by rw [hport, hready, nextEvent_ready_command])

/-- Accepting a word that spells a command executes the command (30_encoding.md R80). -/
theorem acceptWord_command {w : Word} {i : Instr} (h : decode w = .command i) (s : State) :
    acceptWord w s = exec i s := by
  simp only [acceptWord, h]

/-- Settles O7: a ready port serves the oldest word (`step_command`), and accepting a command's word is `exec`
(`acceptWord_command`). -/
theorem stepRunsTheDecodedCommand : Obligations.StepRunsTheDecodedCommand := by
  unfold Obligations.StepRunsTheDecodedCommand
  refine ⟨fun s w i rest hport hready hdecode => ?_, fun s w rest hport hready => step_command hport hready⟩
  calc step s = acceptWord w { s with port := rest } := step_command hport hready
    _ = exec i { s with port := rest } := acceptWord_command hdecode _

end Sys2Proof.Machine
end

section
/-! PROOFS. The code table as an exact finite map (10_state.md R29): a table in canonical form lists exactly what it maps, and so it is
the only one with that map. -/

namespace Sys2Proof.Machine

/-- A table in canonical form has at most one entry per pair. -/
theorem Dict.wf.eq_of_key {d : List DictEntry} (h : Dict.wf d) {e e' : DictEntry} (he : e ∈ d) (he' : e' ∈ d)
    (hkey : e.key = e'.key) : e = e' :=
  List.inj_on_of_nodup_map (h.imp ne_of_lt) he he' hkey

/-- A table in canonical form lists exactly the pairs it maps, each with its code. -/
theorem Dict.wf.mem_iff_dictFind {d : List DictEntry} (h : Dict.wf d) (e : DictEntry) :
    e ∈ d ↔ dictFind e.pfx e.idx d = some e.code := by
  constructor
  · intro he
    cases hf : dictFind e.pfx e.idx d with
    | none => exact absurd rfl (dictFind_eq_none_iff.1 hf e he)
    | some c =>
      obtain ⟨e', he', hp, hx, rfl⟩ := dictFind_mem hf
      rw [h.eq_of_key he' he ((e'.key_eq_iff _ _).2 ⟨hp, hx⟩)]
  · intro hf
    obtain ⟨e', he', hp, hx, hc⟩ := dictFind_mem hf
    obtain rfl : e' = e := by cases e'; cases e; simp_all
    exact he'

/-- Two tables in canonical form that map the same pairs to the same codes are equal. -/
theorem Dict.wf.ext {d d' : List DictEntry} (h : Dict.wf d) (h' : Dict.wf d')
    (hfind : ∀ (p : Code) (x : Index), dictFind p x d = dictFind p x d') : d = d' := by
  have hmem : ∀ e : DictEntry, e ∈ d ↔ e ∈ d' := fun e => by
    rw [h.mem_iff_dictFind, h'.mem_iff_dictFind, hfind]
  have hnodup : ∀ {l : List DictEntry}, Dict.wf l → l.Nodup := fun hl => List.Nodup.of_map _ (hl.imp ne_of_lt)
  have hperm : d.Perm d' := (List.perm_ext_iff_of_nodup (hnodup h) (hnodup h')).2 hmem
  exact hperm.eq_of_pairwise (fun _ _ _ _ hlt hgt => absurd hlt (lt_asymm hgt))
    (List.pairwise_map.1 h) (List.pairwise_map.1 h')

/-- Settles O52: insertion keeps the form (`dictInsert_wf`) and changes one pair (`dictFind_dictInsert`), and a canonical table is
determined by its lookups (`Dict.wf.ext`). -/
theorem codeTableIsAnExactMap : Obligations.CodeTableIsAnExactMap := by
  unfold Obligations.CodeTableIsAnExactMap
  exact ⟨fun _ _ hwf => ⟨dictInsert_wf hwf, dictFind_dictInsert hwf⟩, fun _ _ hwf hwf' => hwf.ext hwf'⟩

end Sys2Proof.Machine
end

section
/-! PROOFS. What the word of a decoded command looks like (30_encoding.md R80, R82, R85). -/

namespace Sys2Proof.Machine

/-- A word that spells a command has the opcode of that command, and no reserved bit set (30_encoding.md R80, R85). -/
theorem decode_command {w : Word} {i : Instr} (h : decode w = .command i) :
    ∃ op, Opcode.ofField (opField w) = some op ∧ reservedBits op w = 0 ∧ i = op.instr w := by
  unfold decode at h
  split at h
  · cases h
  · next op hop =>
    split at h
    · next hres => exact ⟨op, hop, hres, (Decoded.command.inj h).symm⟩
    · cases h

/-- The LZ commands have the opcodes 1, 2 and 3 (30_encoding.md R82). -/
theorem opField_of_lz {w : Word} {i : Instr} (h : decode w = .command i) (hlz : i.isLz = true) :
    (opField w).toNat = 1 ∨ (opField w).toNat = 2 ∨ (opField w).toNat = 3 := by
  obtain ⟨op, hop, -, rfl⟩ := decode_command h
  have hfield : ∀ n : BitVec 4,
      (Opcode.ofField n = some .lzStart → n.toNat = 1) ∧ (Opcode.ofField n = some .lzIndex → n.toNat = 2) ∧
      (Opcode.ofField n = some .lzFinish → n.toNat = 3) := by decide
  obtain ⟨hstart, hindex, hfinish⟩ := hfield (opField w)
  cases op
  case lzStart => exact .inl (hstart hop)
  case lzIndex => exact .inr (.inl (hindex hop))
  case lzFinish => exact .inr (.inr (hfinish hop))
  all_goals cases hlz

/-- `CLRERR` is spelled by one word (30_encoding.md R82, R85). -/
theorem eq_of_decode_clrerr {w : Word} (h : decode w = .command .clrerr) : w = 0xA0000000 := by
  obtain ⟨op, hop, hres, hi⟩ := decode_command h
  obtain rfl : op = .clrerr := by cases op <;> cases hi; rfl
  have hfield : ∀ n : BitVec 4, Opcode.ofField n = some .clrerr → n.toNat = 10 := by decide
  have hhigh : w.toNat / 2 ^ 28 % 2 ^ 4 = 10 := by
    simpa [opField, Nat.shiftRight_eq_div_pow] using hfield _ hop
  have hlow : w.toNat % 2 ^ 28 = 0 := by
    have hand : w.toNat &&& (2 ^ 28 - 1) = 0 := by
      simpa [reservedBits, Opcode.operandMask, Nat.and_assoc] using congrArg BitVec.toNat hres
    rwa [Nat.and_two_pow_sub_one_eq_mod] at hand
  bv_omega

end Sys2Proof.Machine
end

section
/-! PROOFS. What accepting one word can do, said once, from any state. Each unit changes its own fields, only appends to its own
stream and clears no error bit (`LzSide`, `PqSide`); `CLRERR` is the one word that clears error bits. -/

namespace Sys2Proof.Machine

/-! ### The two sides -/

/-- From `s` to `t` only the LZ unit, its stream and the error bits change: beats are only appended and no error bit is cleared. -/
structure LzSide (s t : State) : Prop where
  frame  : t = { s with err := t.err, lz := t.lz, lzo := t.lzo }
  beats  : s.lzo <+: t.lzo
  sticky : ∀ e : ErrKind, s.err.bit e = true → t.err.bit e = true

theorem LzSide.of_lz (s : State) (l : LzUnit) : LzSide s { s with lz := l } := ⟨rfl, List.prefix_refl _, fun _ h => h⟩

theorem LzSide.refl (s : State) : LzSide s s := .of_lz s s.lz

theorem LzSide.trans {s t u : State} (h : LzSide s t) (h' : LzSide t u) : LzSide s u := by
  refine ⟨?_, h.beats.trans h'.beats, fun e he => h'.sticky e (h.sticky e he)⟩
  have hframe := h'.frame
  rwa [h.frame] at hframe

theorem LzSide.rsp {s t : State} (h : LzSide s t) : t.rsp = s.rsp := by rw [h.frame]

/-- From `s` to `t` only the PQ unit, its stream and the recoverable error bits change: words are only appended and no error bit is
cleared. -/
structure PqSide (s t : State) : Prop where
  frame    : t = { s with err := t.err, pq := t.pq, rsp := t.rsp }
  words    : s.rsp <+: t.rsp
  sticky   : ∀ e : ErrKind, s.err.bit e = true → t.err.bit e = true
  internal : t.err.internal = s.err.internal

theorem PqSide.of_pq (s : State) (q : PqUnit) : PqSide s { s with pq := q } := ⟨rfl, List.prefix_refl _, fun _ h => h, rfl⟩

theorem PqSide.refl (s : State) : PqSide s s := .of_pq s s.pq

theorem PqSide.trans {s t u : State} (h : PqSide s t) (h' : PqSide t u) : PqSide s u := by
  refine ⟨?_, h.words.trans h'.words, fun e he => h'.sticky e (h.sticky e he), h'.internal.trans h.internal⟩
  have hframe := h'.frame
  rwa [h.frame] at hframe

theorem PqSide.lzo {s t : State} (h : PqSide s t) : t.lzo = s.lzo := by rw [h.frame]

/-- What holds of both branches of the halted gate holds of its result. -/
theorem unlessHalted_of {P : State → Prop} {halted go : State → State} {s : State} (hhalted : P (halted s)) (hgo : P (go s)) :
    P (unlessHalted halted go s) := by
  unfold unlessHalted
  split
  · exact hhalted
  · exact hgo

/-! ### The LZ primitives -/

theorem lzSide_raise (e : ErrKind) (s : State) : LzSide s (raise e s) :=
  ⟨rfl, List.prefix_refl _, fun _ h => ErrBits.set_bit_of_bit e h⟩

theorem lzSide_outBeat (b : Beat) (s : State) : LzSide s (outBeat b s) :=
  ⟨rfl, List.prefix_append _ _, fun _ h => h⟩

theorem lzSide_abortFrame (s : State) : LzSide s (abortFrame s) := (lzSide_outBeat abortBeat s).trans (.of_lz _ _)

theorem lzSide_sendBlock (s : State) : LzSide s (sendBlock s) := by
  rw [sendBlock_eq]
  exact ⟨rfl, List.prefix_append _ _, fun _ h => h⟩

/-- A command that goes on past a primitive stays on the LZ side when every continuation does. -/
theorem LzSide.andThen {s : State} {p : Progress} {f : State → Progress} (h : LzSide s p.state)
    (hf : ∀ u : State, LzSide u (f u).state) : LzSide s (p.andThen f).state := by
  cases p with
  | going u => exact h.trans (hf u)
  | ended u => exact h

theorem lzSide_internalError (s : State) : LzSide s (internalError s).state := by
  refine (lzSide_raise .internal s).trans ?_
  simp only [internalError, Progress.state]
  split
  · exact lzSide_abortFrame _
  · exact .refl _

theorem lzSide_pushByte (b : Byte) (s : State) : LzSide s (pushByte b s).state := by
  unfold pushByte
  split
  · simp only [Progress.state]
    split
    · exact (LzSide.of_lz s _).trans (lzSide_sendBlock _)
    · exact .of_lz s _
  · exact lzSide_internalError s

theorem lzSide_drainBytes (fuel : Nat) (s : State) : LzSide s (drainBytes fuel s).state := by
  induction fuel generalizing s with
  | zero => exact .refl s
  | succ fuel ih =>
    unfold drainBytes
    split
    · exact (lzSide_pushByte _ s).andThen fun u => (LzSide.of_lz u _).trans (ih (shiftByte u))
    · exact .refl s

theorem lzSide_emit (c w : Nat) (s : State) : LzSide s (emit c w s).state := by
  unfold emit
  split
  · exact lzSide_internalError s
  · exact (LzSide.of_lz s _).trans (lzSide_drainBytes 3 (addBits c w s))

theorem lzSide_widthStep (s : State) : LzSide s (widthStep s) := by
  rw [widthStep_eq]
  exact .of_lz s _

theorem lzSide_insertPair (p : Code) (x : Index) (s : State) : LzSide s (insertPair p x s).state := by
  unfold insertPair
  split
  · exact lzSide_internalError s
  · refine (LzSide.of_lz s _ : LzSide s (addEntry p x s)).trans ?_
    simp only
    split
    · exact (lzSide_emit _ _ _).andThen fun u => .of_lz u _
    · exact .refl _

theorem lzSide_flushBits (s : State) : LzSide s (flushBits s).state := by
  unfold flushBits
  split
  · exact .refl s
  · exact (lzSide_pushByte _ s).andThen fun u => .of_lz u _

theorem lzSide_flushBlock (s : State) : LzSide s (flushBlock s) := by
  unfold flushBlock
  split
  · exact .refl s
  · exact lzSide_sendBlock s

theorem lzSide_finalFlush (s : State) : LzSide s (finalFlush s).state :=
  (lzSide_flushBits s).andThen fun u => (lzSide_flushBlock u).trans (lzSide_outBeat _ _)

/-! ### The LZ commands -/

theorem lzSide_sendHeader (s : State) : LzSide s (sendHeader s).state := (lzSide_outBeat _ s).trans (lzSide_emit _ _ _)

theorem lzSide_emitPrefix (i : Index) (s : State) : LzSide s (emitPrefix i s).state :=
  (lzSide_emit _ _ s).andThen fun u =>
    (lzSide_widthStep u).trans ((lzSide_insertPair _ i _).andThen fun v => .of_lz v _)

theorem lzSide_sendTrailer (s : State) : LzSide s (sendTrailer s).state :=
  (lzSide_emit _ _ s).andThen fun u =>
    (lzSide_widthStep u).trans ((lzSide_emit _ _ _).andThen fun v =>
      (lzSide_finalFlush v).andThen fun x => .of_lz x _)

theorem lzSide_lzStart (k : BitVec 4) (s : State) : LzSide s (lzStart k s) := by
  unfold lzStart
  split
  · exact lzSide_raise .cmd s
  · split
    · exact (LzSide.of_lz s _).trans (lzSide_sendHeader (openFrame k s))
    · exact lzSide_raise .input s

theorem lzSide_consumeIndex (i : Index) (s : State) : LzSide s (consumeIndex i s) := by
  unfold consumeIndex
  split
  · split
    · exact .of_lz s _
    · exact lzSide_emitPrefix i s
  · exact .of_lz s _

theorem lzSide_lzIndex (i : Index) (s : State) : LzSide s (lzIndex i s) := by
  unfold lzIndex
  split
  · split
    · exact (lzSide_raise .input s).trans (lzSide_abortFrame _)
    · exact (LzSide.of_lz s _).trans (lzSide_consumeIndex i (countIndex s))
  · exact lzSide_raise .cmd s

theorem lzSide_lzFinish (s : State) : LzSide s (lzFinish s) := by
  unfold lzFinish
  split
  · split
    · exact lzSide_sendTrailer s
    · exact (lzSide_raise .input s).trans (lzSide_abortFrame _)
  · exact lzSide_raise .cmd s

/-! ### The PQ commands, and the answers of the control commands -/

theorem pqSide_raise {e : ErrKind} (he : e ≠ .internal) (s : State) : PqSide s (raise e s) :=
  ⟨rfl, List.prefix_refl _, fun _ h => ErrBits.set_bit_of_bit e h, s.err.set_bit_other he.symm⟩

theorem pqSide_respond (v : Word) (s : State) : PqSide s (respond v s) :=
  ⟨rfl, List.prefix_append _ _, fun _ h => h, rfl⟩

theorem pqSide_respondFailure (s : State) : PqSide s (respondFailure s) := pqSide_respond Config.failureWord s

/-- A command refused for its phase raises `ErrCmd` and answers the failure word. -/
theorem pqSide_refuse (s : State) : PqSide s (respondFailure (raise .cmd s)) :=
  (pqSide_raise (by decide) s).trans (pqSide_respondFailure _)

theorem pqSide_keepPalette (q : PqUnit) (s : State) : PqSide s (keepPalette q s) :=
  (PqSide.of_pq s q.finishBuild).trans (pqSide_respond _ _)

theorem pqSide_failBuild {e : ErrKind} (he : e ≠ .internal) (s : State) : PqSide s (failBuild e s) :=
  (pqSide_raise he s).trans ((PqSide.of_pq _ _).trans (pqSide_respondFailure _))

theorem pqSide_qPixel (c : Colour) (s : State) : PqSide s (qPixel c s) := by
  unfold qPixel
  split
  · exact .of_pq s _
  · exact pqSide_raise (by decide) s

theorem pqSide_qBuild (q : Bool) (s : State) : PqSide s (qBuild q s) := by
  unfold qBuild
  split
  · split
    · split
      · split
        · exact pqSide_keepPalette _ s
        · exact pqSide_failBuild (by decide) s
      · exact pqSide_keepPalette _ s
    · exact pqSide_failBuild (by decide) s
  · exact pqSide_refuse s

theorem pqSide_qMap (c : Colour) (s : State) : PqSide s (qMap c s) := by
  unfold qMap
  split
  · exact pqSide_respond _ s
  · exact pqSide_refuse s

theorem pqSide_qRdpal (i : Index) (s : State) : PqSide s (qRdpal i s) := by
  unfold qRdpal
  split
  · exact pqSide_respond _ s
  · exact pqSide_refuse s

theorem pqSide_rejectWord (r : Reject) (s : State) : PqSide s (rejectWord r s) := by
  have hraise : PqSide s (if s.err.internal then s else raise .opcode s) := by
    split
    · exact .refl s
    · exact pqSide_raise (by decide) s
  unfold rejectWord
  simp only
  split
  · exact hraise.trans (pqSide_respondFailure _)
  · exact hraise

/-! ### One command, one word -/

/-- The LZ commands stay on the LZ side, `CLRERR` clears the recoverable error bits of a running block, and every other command
stays on the PQ side. -/
theorem exec_side {i : Instr} {s t : State} (h : exec i s = .next t) :
    (i.isLz = true ∧ LzSide s t) ∨ (i = .clrerr ∧ t = unlessHalted haltedNothing clearErrors s) ∨ PqSide s t := by
  cases i <;> obtain rfl := Host.Outcome.next.inj h
  case lzStart k => exact .inl ⟨rfl, unlessHalted_of (P := LzSide s) (.refl s) (lzSide_lzStart k s)⟩
  case lzIndex x => exact .inl ⟨rfl, unlessHalted_of (P := LzSide s) (.refl s) (lzSide_lzIndex x s)⟩
  case lzFinish => exact .inl ⟨rfl, unlessHalted_of (P := LzSide s) (.refl s) (lzSide_lzFinish s)⟩
  case clrerr => exact .inr (.inl ⟨rfl, rfl⟩)
  all_goals refine .inr (.inr ?_)
  case nop => exact .refl s
  case qBegin => exact unlessHalted_of (P := PqSide s) (.refl s) (.of_pq s s.pq.begun)
  case qPixel c => exact unlessHalted_of (P := PqSide s) (.refl s) (pqSide_qPixel c s)
  case qBuild q => exact unlessHalted_of (P := PqSide s) (pqSide_respondFailure s) (pqSide_qBuild q s)
  case qMap c => exact unlessHalted_of (P := PqSide s) (pqSide_respondFailure s) (pqSide_qMap c s)
  case qRdpal x => exact unlessHalted_of (P := PqSide s) (pqSide_respondFailure s) (pqSide_qRdpal x s)
  case rdreg n => exact unlessHalted_of (P := PqSide s) (pqSide_respond _ s) (pqSide_respond _ s)

/-- An accepted word is an LZ command on the LZ side, is `CLRERR`, or stays on the PQ side. -/
theorem acceptWord_side {w : Word} {s t : State} (h : acceptWord w s = .next t) :
    (((opField w).toNat = 1 ∨ (opField w).toNat = 2 ∨ (opField w).toNat = 3) ∧ LzSide s t) ∨
    (w = 0xA0000000 ∧ t = unlessHalted haltedNothing clearErrors s) ∨ PqSide s t := by
  cases hd : decode w with
  | command i =>
    rw [acceptWord_command hd] at h
    obtain ⟨hlz, hside⟩ | ⟨rfl, ht⟩ | hside := exec_side h
    · exact .inl ⟨opField_of_lz hd hlz, hside⟩
    · exact .inr (.inl ⟨eq_of_decode_clrerr hd, ht⟩)
    · exact .inr (.inr hside)
  | reject r =>
    obtain rfl : rejectWord r s = t := by simpa [acceptWord, hd] using h
    exact .inr (.inr (pqSide_rejectWord r s))

/-- `CLRERR` clears every error bit of a running block (42_control.md R192). -/
theorem acceptWord_clrerr_err {s t : State} (h : acceptWord 0xA0000000 s = .next t) (hs : s.running) : t.err = ErrBits.reset := by
  have hdecode : decode 0xA0000000 = .command .clrerr := by decide
  rw [acceptWord_command hdecode] at h
  obtain rfl := Host.Outcome.next.inj h
  rw [unlessHalted_running hs, clearErrors_err, ErrBits.clearRecoverable, hs, ErrBits.reset]

/-- An accepted word changes no error bit of a halted block (60_exceptions.md R218). -/
theorem acceptWord_err_of_halted {w : Word} {s t : State} (h : acceptWord w s = .next t) (hs : s.halted) : t.err = s.err := by
  have hgate : ∀ {halted go : State → State}, (halted s).err = s.err → (unlessHalted halted go s).err = s.err :=
    fun hkeep => by rw [unlessHalted_halted hs, hkeep]
  cases hd : decode w with
  | command i =>
    rw [acceptWord_command hd] at h
    cases i <;> obtain rfl := Host.Outcome.next.inj h
    case nop => rfl
    all_goals exact hgate rfl
  | reject r =>
    obtain rfl : rejectWord r s = t := by simpa [acceptWord, hd] using h
    unfold rejectWord
    simp only [if_pos hs]
    split <;> rfl

end Sys2Proof.Machine
end

section
/-! PROOFS. The streams and the error bits from one step to the next (10_state.md R22, R38). -/

namespace Sys2Proof.Machine

/-- An accepted word only appends to the two streams (10_state.md R38). -/
theorem acceptWord_appends {w : Word} {s t : State} (h : acceptWord w s = .next t) : s.lzo <+: t.lzo ∧ s.rsp <+: t.rsp := by
  obtain ⟨-, hlz⟩ | ⟨-, rfl⟩ | hpq := acceptWord_side h
  · exact ⟨hlz.beats, hlz.rsp ▸ List.prefix_refl _⟩
  · exact unlessHalted_of (P := fun t => s.lzo <+: t.lzo ∧ s.rsp <+: t.rsp)
      ⟨List.prefix_refl _, List.prefix_refl _⟩ ⟨List.prefix_refl _, List.prefix_refl _⟩
  · exact ⟨hpq.lzo ▸ List.prefix_refl _, hpq.words⟩

/-- Settles O14, by the event the step serves: a word appends (`acceptWord_appends`), and the other events are their updates of the
streams. -/
theorem streamsAreFirstInFirstOut : Obligations.StreamsAreFirstInFirstOut := by
  unfold Obligations.StreamsAreFirstInFirstOut
  intro s t hstep
  cases hnext : nextEvent s.cmdReady s.port with
  | none =>
    obtain rfl : s = t := by simpa [step, servePort, hnext] using hstep
    exact ⟨rfl, rfl⟩
  | some served =>
    obtain ⟨e, es⟩ := served
    rw [step_of_nextEvent hnext] at hstep
    cases e with
    | command w => exact acceptWord_appends (s := { s with port := es }) hstep
    | takeBeat | takeWord =>
      obtain rfl := Host.Outcome.next.inj hstep
      simp
    | resetEdge =>
      obtain rfl := Host.Outcome.next.inj hstep
      exact ⟨rfl, rfl⟩

/-- An accepted word other than `CLRERR` clears no error bit (60_exceptions.md R210). -/
theorem acceptWord_sticky {w : Word} {s t : State} (h : acceptWord w s = .next t) (hw : w ≠ 0xA0000000) (e : ErrKind)
    (he : s.err.bit e = true) : t.err.bit e = true := by
  obtain ⟨-, hlz⟩ | ⟨hclr, -⟩ | hpq := acceptWord_side h
  · exact hlz.sticky e he
  · exact absurd hclr hw
  · exact hpq.sticky e he

/-- Only the LZ commands can halt a running block (60_exceptions.md R213). -/
theorem opField_of_acceptWord_halts {w : Word} {s t : State} (h : acceptWord w s = .next t) (hs : s.running) (ht : t.halted) :
    (opField w).toNat = 1 ∨ (opField w).toNat = 2 ∨ (opField w).toNat = 3 := by
  obtain ⟨hop, -⟩ | ⟨-, rfl⟩ | hpq := acceptWord_side h
  · exact hop
  · rw [unlessHalted_running hs] at ht
    exact absurd (hs.symm.trans ht) (by decide)
  · exact absurd (hs.symm.trans (hpq.internal.symm.trans ht)) (by decide)

/-- Settles O20: each clause is what accepting a word does to the error bits. -/
theorem errorBitsAreSticky : Obligations.ErrorBitsAreSticky := by
  unfold Obligations.ErrorBitsAreSticky
  intro s t w rest hport hready hstep
  rw [step_command hport hready] at hstep
  have hsticky := acceptWord_sticky hstep
  have hhalted := acceptWord_err_of_halted hstep
  have hhalts := opField_of_acceptWord_halts hstep
  refine ⟨hsticky, ?_, hhalted, hhalts⟩
  rintro rfl hs
  exact acceptWord_clrerr_err hstep hs

end Sys2Proof.Machine
end

section
/-! PROOFS. What the three reading commands answer, and that reading changes nothing but `rsp` (20_memory.md R69). -/

namespace Sys2Proof.Machine

/-- A run goes on from the state its first command leaves. -/
theorem runInstrs_cons_of_next {i : Instr} {s t : State} (h : exec i s = .next t) (is : List Instr) :
    runInstrs (i :: is) s = runInstrs is t := by
  simp only [runInstrs, h]

/-! ### The answers -/

/-- `RDREG` answers its register, halted or not (42_control.md R191, 60_exceptions.md R218). -/
theorem exec_rdreg (n : BitVec 4) (s : State) : exec (.rdreg n) s = .next (respond (regValue s (RegName.ofNumber n)) s) :=
  congrArg Host.Outcome.next (ite_self _)

/-- `Q_RDPAL` of a built palette answers the entry (40_palette_quantizer.md R114). -/
theorem exec_qRdpal_built {s : State} (hs : s.running) (hbuilt : s.pq.st = .built) (x : Index) :
    exec (.qRdpal x) s = .next (respond (s.pq.entryWord x) s) := by
  simp only [exec, execQRdpal, unlessHalted_running hs, qRdpal, if_pos hbuilt]

/-- `Q_MAP` on a built palette answers the nearest index (40_palette_quantizer.md R112). -/
theorem exec_qMap_built {s : State} (hs : s.running) (hbuilt : s.pq.st = .built) (c : Colour) :
    exec (.qMap c) s = .next (respond (Word.ofNat (s.pq.nearest c)) s) := by
  simp only [exec, execQMap, unlessHalted_running hs, qMap, if_pos hbuilt]

/-! ### Reading twice -/

/-- No register shows the response stream (10_state.md R40 to R55). -/
theorem regValue_rsp_irrelevant (s : State) (ws : List Word) (r : RegName) : regValue { s with rsp := ws } r = regValue s r := by
  cases r <;> rfl

/-- A successful read appends one word, which is the same whatever words are waiting in `rsp`. -/
theorem exec_read_appends {i : Instr} {s : State} (hs : s.running)
    (hi : (∃ n, i = .rdreg n) ∨ (s.pq.st = .built ∧ ((∃ x, i = .qRdpal x) ∨ (∃ c, i = .qMap c)))) :
    ∃ v : Word, ∀ ws : List Word, exec i { s with rsp := ws } = .next { s with rsp := ws ++ [v] } := by
  obtain ⟨n, rfl⟩ | ⟨hbuilt, ⟨x, rfl⟩ | ⟨c, rfl⟩⟩ := hi
  · refine ⟨regValue s (RegName.ofNumber n), fun ws => ?_⟩
    rw [exec_rdreg, regValue_rsp_irrelevant, respond]
  · exact ⟨s.pq.entryWord x, fun ws => exec_qRdpal_built (s := { s with rsp := ws }) hs hbuilt x⟩
  · exact ⟨Word.ofNat (s.pq.nearest c), fun ws => exec_qMap_built (s := { s with rsp := ws }) hs hbuilt c⟩

/-- Settles O29: both reads append the same word, since the word does not depend on `rsp` (`exec_read_appends`). -/
theorem readsGiveTheSameWordTwice : Obligations.ReadsGiveTheSameWordTwice := by
  unfold Obligations.ReadsGiveTheSameWordTwice
  intro i s hs hi
  obtain ⟨v, hread⟩ := exec_read_appends hs hi
  have honce (is : List Instr) : runInstrs (i :: is) s = runInstrs is { s with rsp := s.rsp ++ [v] } :=
    runInstrs_cons_of_next (hread s.rsp) is
  refine ⟨v, honce [], ?_⟩
  calc runInstrs [i, i] s = runInstrs [i] { s with rsp := s.rsp ++ [v] } := honce [i]
    _ = .next { s with rsp := s.rsp ++ [v] ++ [v] } := runInstrs_cons_of_next (hread (s.rsp ++ [v])) []
    _ = .next { s with rsp := s.rsp ++ [v, v] } := by rw [List.append_assoc, List.singleton_append]

end Sys2Proof.Machine
end

section
/-! PROOFS. Decoding and encoding agree (30_encoding.md section 2, R82 to R92). A word spells a command of an opcode exactly when its
bits outside the opcode's operand mask are those of the opcode's row in the opcode table (`fixedBits_iff`); the encoder and the fields
of an opcode take care of the bits under the mask (`encode_instr`, `instr_encode`). -/

namespace Sys2Proof

/-! ### The opcode map -/

/-- The value of the field `OP` for each opcode (30_encoding.md R82). -/
def Opcode.code : Opcode → BitVec 4
  | .nop => 0x0
  | .lzStart => 0x1
  | .lzIndex => 0x2
  | .lzFinish => 0x3
  | .qBegin => 0x4
  | .qPixel => 0x5
  | .qBuild => 0x6
  | .qMap => 0x7
  | .qRdpal => 0x8
  | .rdreg => 0x9
  | .clrerr => 0xA

/-- The word of each opcode with every operand bit 0 (30_encoding.md R89). -/
def Opcode.base : Opcode → Word
  | .nop => 0x00000000
  | .lzStart => 0x10000000
  | .lzIndex => 0x20000000
  | .lzFinish => 0x30000000
  | .qBegin => 0x40000000
  | .qPixel => 0x50000000
  | .qBuild => 0x60000000
  | .qMap => 0x70000000
  | .qRdpal => 0x80000000
  | .rdreg => 0x90000000
  | .clrerr => 0xA0000000

/-- The opcode of a command. -/
def Instr.opcode : Instr → Opcode
  | .nop => .nop
  | .lzStart _ => .lzStart
  | .lzIndex _ => .lzIndex
  | .lzFinish => .lzFinish
  | .qBegin => .qBegin
  | .qPixel _ => .qPixel
  | .qBuild _ => .qBuild
  | .qMap _ => .qMap
  | .qRdpal _ => .qRdpal
  | .rdreg _ => .rdreg
  | .clrerr => .clrerr

theorem Opcode.ofField_eq_some_iff {n : BitVec 4} {op : Opcode} : Opcode.ofField n = some op ↔ n = op.code := by
  have hmap : ∀ m : BitVec 4, Opcode.ofField m = some op ↔ m = op.code := by cases op <;> decide
  exact hmap n

theorem Opcode.ofField_eq_none_iff {n : BitVec 4} : Opcode.ofField n = none ↔ 11 ≤ n.toNat := by
  revert n
  decide

theorem Opcode.base_eq (op : Opcode) : op.base = op.code ++ 0#28 := by cases op <;> decide

theorem Opcode.code_le (op : Opcode) : op.code.toNat ≤ 10 := by cases op <;> decide

/-- The response-bearing opcodes are 0x6 to 0x9 (30_encoding.md R86). -/
theorem Opcode.responds_iff {n : BitVec 4} {op : Opcode} (h : Opcode.ofField n = some op) :
    op.responds = true ↔ 6 ≤ n.toNat ∧ n.toNat ≤ 9 := by
  rw [Opcode.ofField_eq_some_iff.1 h]
  cases op <;> decide

@[simp] theorem Opcode.opcode_instr (op : Opcode) (w : Word) : (op.instr w).opcode = op := by cases op <;> rfl

/-! ### The three outcomes of the decoder -/

theorem decode_of_reservedOpcode {w : Word} (h : 11 ≤ (opField w).toNat) : decode w = .reject .reservedOpcode := by
  simp only [decode, Opcode.ofField_eq_none_iff.2 h]

theorem decode_of_reservedBits {w : Word} {op : Opcode} (hop : Opcode.ofField (opField w) = some op)
    (hres : reservedBits op w ≠ 0) : decode w = .reject (.reservedBits op) := by
  simp only [decode, hop, if_neg hres]

theorem decode_of_noReservedBits {w : Word} {op : Opcode} (hop : Opcode.ofField (opField w) = some op)
    (hres : reservedBits op w = 0) : decode w = .command (op.instr w) := by
  simp only [decode, hop, if_pos hres]

/-! ### The bits outside the operand mask -/

/-- A word has the opcode `c` and no operand bit exactly when it is `c` above 28 zeros. -/
theorem eq_append_zero_iff (v : Word) (c : BitVec 4) : v = c ++ 0#28 ↔ opField v = c ∧ v &&& 0x0FFFFFFF = 0 := by
  have hfield : (opField v).toNat = v.toNat / 2 ^ 28 % 2 ^ 4 := by simp [opField, Nat.shiftRight_eq_div_pow]
  have harea : (v &&& 0x0FFFFFFF).toNat = v.toNat % 2 ^ 28 := by
    simpa using Nat.and_two_pow_sub_one_eq_mod v.toNat 28
  have happend : (c ++ 0#28).toNat = c.toNat * 2 ^ 28 := by
    rw [BitVec.toNat_append, BitVec.toNat_ofNat, Nat.zero_mod, Nat.or_zero, Nat.shiftLeft_eq]
  rw [← BitVec.toNat_inj, ← BitVec.toNat_inj (y := c), ← BitVec.toNat_inj (y := 0), hfield, harea, happend]
  bv_omega

/-- No opcode's operand mask reaches the field `OP`, so the bits outside the mask hold it (30_encoding.md R83). -/
theorem opField_and_not_operandMask (op : Opcode) (w : Word) : opField (w &&& ~~~op.operandMask) = opField w := by
  have hmask : opField (~~~op.operandMask) = BitVec.allOnes 4 := by cases op <;> decide
  calc opField (w &&& ~~~op.operandMask) = opField w &&& opField (~~~op.operandMask) := BitVec.extractLsb'_and
    _ = opField w := by rw [hmask, BitVec.and_allOnes]

/-- A word has the opcode `op` and none of its reserved bits exactly when its bits outside the operand mask are those of the row of
the opcode table (30_encoding.md R82, R85). -/
theorem fixedBits_iff {w : Word} {op : Opcode} :
    w &&& ~~~op.operandMask = op.base ↔ Opcode.ofField (opField w) = some op ∧ reservedBits op w = 0 := by
  rw [Opcode.base_eq, eq_append_zero_iff, opField_and_not_operandMask, Opcode.ofField_eq_some_iff, reservedBits]

/-- Which bits count as reserved (30_encoding.md R85). -/
theorem getLsbD_reservedBits (op : Opcode) (w : Word) (j : Nat) :
    (reservedBits op w).getLsbD j = (decide (j < 28) && (w.getLsbD j && !op.operandMask.getLsbD j)) := by
  have harea : (0x0FFFFFFF : Word).getLsbD j = decide (j < 28) := Nat.testBit_two_pow_sub_one 28 j
  rw [reservedBits, BitVec.getLsbD_and, BitVec.getLsbD_and, BitVec.getLsbD_not, harea]
  by_cases hj : j < 28
  · have hj' : j < 32 := by omega
    simp [hj, hj']
  · simp [hj]

/-- No reserved bit is set exactly when every operand bit that is set is under the mask (30_encoding.md R85). -/
theorem reservedBits_eq_zero_iff {op : Opcode} {w : Word} :
    reservedBits op w = 0 ↔ ∀ j < 28, w.getLsbD j = true → op.operandMask.getLsbD j = true := by
  constructor
  · intro h j hj hw
    have hbit := getLsbD_reservedBits op w j
    rw [h] at hbit
    simpa [hj, hw] using hbit
  · intro h
    refine BitVec.eq_of_getLsbD_eq fun j _ => ?_
    rw [getLsbD_reservedBits]
    by_cases hj : j < 28
    · cases hw : w.getLsbD j with
      | false => simp
      | true => simp [h j hj hw]
    · simp [hj]

/-! ### The bits under the operand mask -/

/-- Where `base` leaves the `n` low bits 0, an operand put there is read back from them. -/
theorem lowField_or_setWidth {n : Nat} {base : Word} (x : BitVec n) (hn : n ≤ 32) (hbase : base.extractLsb' 0 n = 0) :
    (base ||| x.setWidth 32).extractLsb' 0 n = x := by
  rw [BitVec.extractLsb'_or, hbase, BitVec.extractLsb'_setWidth_of_le (by omega), BitVec.extractLsb'_eq_self]
  exact BitVec.zero_or

/-- The fields of a command's word hold its operands (30_encoding.md R87, R89). -/
theorem instr_encode (i : Instr) : i.opcode.instr (encode i) = i := by
  cases i with
  | nop | lzFinish | qBegin | clrerr => rfl
  | lzStart k => exact congrArg Instr.lzStart (lowField_or_setWidth k (by decide) (by decide))
  | lzIndex x => exact congrArg Instr.lzIndex (lowField_or_setWidth x (by decide) (by decide))
  | qPixel c => exact congrArg Instr.qPixel (lowField_or_setWidth c (by decide) (by decide))
  | qBuild q => cases q <;> decide
  | qMap c => exact congrArg Instr.qMap (lowField_or_setWidth c (by decide) (by decide))
  | qRdpal x => exact congrArg Instr.qRdpal (lowField_or_setWidth x (by decide) (by decide))
  | rdreg n => exact congrArg Instr.rdreg (lowField_or_setWidth n (by decide) (by decide))

/-- The bits of a command's word outside the operand mask are those of its row of the opcode table (30_encoding.md R82, R89). -/
theorem encode_fixedBits (i : Instr) : encode i &&& ~~~i.opcode.operandMask = i.opcode.base := by
  have hrow : Laws.TableMatch.row i = (~~~i.opcode.operandMask, i.opcode.base) := by
    cases i <;> (simp only [Laws.TableMatch.row, Instr.opcode]; decide)
  have hmatch : Laws.TableMatch.Statement i := by
    cases i with
    | nop => exact Laws.TableMatch.nop
    | lzStart k => exact Laws.TableMatch.lzStart k
    | lzIndex x => exact Laws.TableMatch.lzIndex x
    | lzFinish => exact Laws.TableMatch.lzFinish
    | qBegin => exact Laws.TableMatch.qBegin
    | qPixel c => exact Laws.TableMatch.qPixel c
    | qBuild q => exact Laws.TableMatch.qBuild q
    | qMap c => exact Laws.TableMatch.qMap c
    | qRdpal x => exact Laws.TableMatch.qRdpal x
    | rdreg n => exact Laws.TableMatch.rdreg n
    | clrerr => exact Laws.TableMatch.clrerr
  rwa [Laws.TableMatch.Statement, hrow] at hmatch

/-- Settles O1: the word of a command has its opcode and no reserved bit (`encode_fixedBits`), and its fields hold the operands
(`instr_encode`). -/
theorem decodeOfEncodeIsTheCommand : Obligations.DecodeOfEncodeIsTheCommand := by
  unfold Obligations.DecodeOfEncodeIsTheCommand
  intro i
  obtain ⟨hop, hres⟩ := fixedBits_iff.1 (encode_fixedBits i)
  rw [decode_of_noReservedBits hop hres, instr_encode]

/-- The `n` low bits of a word, put beside the bits of `base`, are the word under the mask of those bits. -/
theorem or_setWidth_lowField (n : Nat) (w : Word) {base mask : Word} (hmask : mask = (BitVec.allOnes n).setWidth 32) :
    base ||| (w.extractLsb' 0 n).setWidth 32 = base ||| (w &&& mask) := by
  subst hmask
  refine congrArg (base ||| ·) ?_
  refine BitVec.eq_of_getLsbD_eq fun j hj => ?_
  simp [hj, Bool.and_comm]

/-- The encoder puts the operand fields of a word back under the operand mask (30_encoding.md R87, R89). -/
theorem encode_instr (op : Opcode) (w : Word) : encode (op.instr w) = op.base ||| (w &&& op.operandMask) := by
  cases op with
  | nop | lzFinish | qBegin | clrerr =>
    simp [Opcode.instr, encode, Opcode.base, Opcode.operandMask]
  | lzStart | rdreg => exact or_setWidth_lowField 4 w (by decide)
  | lzIndex | qRdpal => exact or_setWidth_lowField 8 w (by decide)
  | qPixel | qMap => exact or_setWidth_lowField 24 w (by decide)
  | qBuild =>
    have hbit : BitVec.ofBool (fieldQEN w) = w.extractLsb' 0 1 := by
      refine BitVec.eq_of_getLsbD_eq fun j hj => ?_
      obtain rfl : j = 0 := by omega
      simp [fieldQEN]
    rw [Opcode.instr, encode, hbit]
    exact or_setWidth_lowField 1 w (by decide)

/-- Settles O2: outside the operand mask a command word is its opcode's row of the table, and under the mask it is what the encoder
puts back (`encode_instr`). -/
theorem encodeOfDecodedCommandIsTheWord : Obligations.EncodeOfDecodedCommandIsTheWord := by
  unfold Obligations.EncodeOfDecodedCommandIsTheWord
  intro w i h
  obtain ⟨op, hop, hres, rfl⟩ := Machine.decode_command h
  calc encode (op.instr w) = op.base ||| (w &&& op.operandMask) := encode_instr op w
    _ = (w &&& ~~~op.operandMask) ||| (w &&& op.operandMask) := by rw [fixedBits_iff.2 ⟨hop, hres⟩]
    _ = w := by rw [← BitVec.and_or_distrib_left, BitVec.or_comm, BitVec.or_not_self, BitVec.and_allOnes]

/-- Settles O3: the opcode is reserved, or it is defined and a reserved bit is set (`reservedBits_eq_zero_iff`), or the word is the
command of its opcode. -/
theorem decodeIsTotalOnAllWords : Obligations.DecodeIsTotalOnAllWords := by
  unfold Obligations.DecodeIsTotalOnAllWords
  intro w
  cases hop : Opcode.ofField (opField w) with
  | none =>
    have hreserved := Opcode.ofField_eq_none_iff.1 hop
    exact .inl ⟨hreserved, decode_of_reservedOpcode hreserved⟩
  | some op =>
    refine .inr ⟨op, Opcode.ofField_eq_some_iff.1 hop ▸ op.code_le, rfl, ?_⟩
    by_cases hres : reservedBits op w = 0
    · have hcommand := decode_of_noReservedBits hop hres
      exact .inr ⟨reservedBits_eq_zero_iff.1 hres, op.instr w, hcommand,
        fun i hi => (Decoded.command.inj (hcommand.symm.trans hi)).symm⟩
    · obtain ⟨j, hj, hw, hmask⟩ : ∃ j < 28, w.getLsbD j = true ∧ op.operandMask.getLsbD j ≠ true := by
        simpa using mt reservedBits_eq_zero_iff.2 hres
      exact .inl ⟨⟨j, hj, hw, by simpa using hmask⟩, decode_of_reservedBits hop hres⟩

/-- Settles O4: each word is written out in full, so the decoder computes. -/
theorem specWordsDecode : Obligations.SpecWordsDecode := by
  unfold Obligations.SpecWordsDecode
  decide

end Sys2Proof
end

section
/-! PROOFS. The assembler: the words of R89's table, the lines it refuses, and the expansions of R90 (30_encoding.md). -/

namespace Sys2Proof

/-! ### Lines -/

theorem assemble_wellFormed {l : AsmLine} {w : Word} (h : l.wellFormed = true) (hw : encode l.toInstr = w) :
    assemble l = some w := hw ▸ if_pos h

/-- An operand out of range is an assembly error (30_encoding.md R89). -/
theorem assemble_malformed {l : AsmLine} (h : l.wellFormed = false) : assemble l = none := if_neg (by simp [h])

/-- A number in its field's range, put beside the bits of an opcode, is the same before and after it is cut to the field. -/
theorem or_setWidth_ofNat {n x : Nat} (base : Nat) (hn : n ≤ 32) (hx : x < 2 ^ n) :
    Word.ofNat base ||| (BitVec.ofNat n x).setWidth 32 = Word.ofNat (base ||| x) := by
  rw [BitVec.setWidth_ofNat_of_le_of_lt hn hx]
  exact BitVec.ofNat_or.symm

/-- Three samples in range make a number of 24 bits. -/
theorem rgb_lt {r g b : Nat} (hr : r < 256) (hg : g < 256) (hb : b < 256) : r <<< 16 ||| g <<< 8 ||| b < 2 ^ 24 := by
  have hred : r <<< 16 < 2 ^ 24 := Nat.shiftLeft_lt (n := 8) hr
  have hgreen : g <<< 8 < 2 ^ 24 := (Nat.shiftLeft_lt (n := 8) hg).trans (by decide)
  exact Nat.or_lt_two_pow (Nat.or_lt_two_pow hred hgreen) (hb.trans (by decide))

theorem or_setWidth_rgbColour {r g b : Nat} (base : Nat) (hr : r < 256) (hg : g < 256) (hb : b < 256) :
    Word.ofNat base ||| (rgbColour r g b).setWidth 32 = Word.ofNat (base ||| r <<< 16 ||| g <<< 8 ||| b) := by
  rw [rgbColour, or_setWidth_ofNat base (by decide) (rgb_lt hr hg hb), ← Nat.or_assoc, ← Nat.or_assoc]

section Table
variable {r g b c i k n q : Nat}

theorem assemble_lzStart (hk : k < 16) : assemble (.lzStart k) = some (Word.ofNat (0x10000000 ||| k)) :=
  assemble_wellFormed (decide_eq_true hk) (or_setWidth_ofNat 0x10000000 (by decide) hk)

theorem assemble_lzIndex (hi : i < 256) : assemble (.lzIndex i) = some (Word.ofNat (0x20000000 ||| i)) :=
  assemble_wellFormed (decide_eq_true hi) (or_setWidth_ofNat 0x20000000 (by decide) hi)

theorem assemble_qPixelRgb (hr : r < 256) (hg : g < 256) (hb : b < 256) :
    assemble (.qPixelRgb r g b) = some (Word.ofNat (0x50000000 ||| r <<< 16 ||| g <<< 8 ||| b)) :=
  assemble_wellFormed (by simp [AsmLine.wellFormed, hr, hg, hb]) (or_setWidth_rgbColour 0x50000000 hr hg hb)

theorem assemble_qMapRgb (hr : r < 256) (hg : g < 256) (hb : b < 256) :
    assemble (.qMapRgb r g b) = some (Word.ofNat (0x70000000 ||| r <<< 16 ||| g <<< 8 ||| b)) :=
  assemble_wellFormed (by simp [AsmLine.wellFormed, hr, hg, hb]) (or_setWidth_rgbColour 0x70000000 hr hg hb)

theorem assemble_qPixelHex (hc : c < 2 ^ 24) : assemble (.qPixelHex c) = some (Word.ofNat (0x50000000 ||| c)) :=
  assemble_wellFormed (decide_eq_true hc) (or_setWidth_ofNat 0x50000000 (by decide) hc)

theorem assemble_qMapHex (hc : c < 2 ^ 24) : assemble (.qMapHex c) = some (Word.ofNat (0x70000000 ||| c)) :=
  assemble_wellFormed (decide_eq_true hc) (or_setWidth_ofNat 0x70000000 (by decide) hc)

theorem assemble_qBuild (hq : q < 2) : assemble (.qBuild q) = some (Word.ofNat (0x60000000 ||| q)) := by
  obtain rfl | rfl : q = 0 ∨ q = 1 := by omega
  · decide
  · decide

theorem assemble_qRdpal (hi : i < 256) : assemble (.qRdpal i) = some (Word.ofNat (0x80000000 ||| i)) :=
  assemble_wellFormed (decide_eq_true hi) (or_setWidth_ofNat 0x80000000 (by decide) hi)

theorem assemble_rdregNum (hn : n < 16) : assemble (.rdregNum n) = some (Word.ofNat (0x90000000 ||| n)) :=
  assemble_wellFormed (decide_eq_true hn) (or_setWidth_ofNat 0x90000000 (by decide) hn)

end Table

/-- A register's name and its number are two spellings of one line (30_encoding.md R89). -/
theorem assemble_rdregName (r : RegName) : assemble (.rdregName r) = some (Word.ofNat (0x90000000 ||| r.number.toNat)) := by
  cases r <;> decide

theorem RegName.ofNumber_number (r : RegName) : RegName.ofNumber r.number = r := by cases r <;> decide

/-- Settles O5: a line in range has the word of its command, which decodes to it (O1); each form's word is its `assemble_` lemma; and
a line out of range is malformed. -/
theorem assemblerGivesTheTableWords : Obligations.AssemblerGivesTheTableWords := by
  unfold Obligations.AssemblerGivesTheTableWords
  have hwords (l : AsmLine) (h : l.wellFormed = true) : ∃ w, assemble l = some w ∧ decode w = .command l.toInstr :=
    ⟨encode l.toInstr, assemble_wellFormed h rfl, decodeOfEncodeIsTheCommand l.toInstr⟩
  have hrgb (r g b : Nat) (h : 256 ≤ r ∨ 256 ≤ g ∨ 256 ≤ b) :
      assemble (.qPixelRgb r g b) = none ∧ assemble (.qMapRgb r g b) = none := by
    have hbad : (AsmLine.qPixelRgb r g b).wellFormed = false := by
      simp only [AsmLine.wellFormed, Bool.and_eq_false_iff, decide_eq_false_iff_not]
      omega
    exact ⟨assemble_malformed hbad, assemble_malformed hbad⟩
  exact ⟨fun l => assemble_malformed, hwords,
    rfl,
    fun k => assemble_lzStart,
    fun i => assemble_lzIndex,
    rfl, rfl,
    fun r hr g hg b hb => ⟨assemble_qPixelRgb hr hg hb, assemble_qMapRgb hr hg hb⟩,
    fun c hc => ⟨assemble_qPixelHex hc, assemble_qMapHex hc⟩,
    fun q => assemble_qBuild,
    fun i => assemble_qRdpal,
    fun n => assemble_rdregNum,
    fun r => ⟨assemble_rdregName r, r.ofNumber_number⟩,
    rfl,
    fun k h => assemble_malformed (decide_eq_false h.not_gt),
    fun i h => assemble_malformed (decide_eq_false h.not_gt),
    hrgb,
    fun c h => ⟨assemble_malformed (decide_eq_false h.not_gt), assemble_malformed (decide_eq_false h.not_gt)⟩,
    fun q h => assemble_malformed (decide_eq_false h.not_gt),
    fun i h => assemble_malformed (decide_eq_false h.not_gt),
    fun n h => assemble_malformed (decide_eq_false h.not_gt)⟩

/-! ### Pseudo-instructions -/

/-- A list of lines that each have a word has the list of their words. -/
theorem mapM_assemble_map {line : Nat → AsmLine} {word : Nat → Word} {xs : List Nat}
    (h : ∀ x ∈ xs, assemble (line x) = some (word x)) : (xs.map line).mapM assemble = some (xs.map word) := by
  induction xs with
  | nil => rfl
  | cons x xs ih =>
    have hhead := h x (by simp)
    have htail := ih fun y hy => h y (by simp [hy])
    simp [hhead, htail]

/-- Settles O6: the lines of an expansion are assembled one by one (`mapM_assemble_map`). -/
theorem pseudoInstructionsExpand : Obligations.PseudoInstructionsExpand := by
  unfold Obligations.PseudoInstructionsExpand
  refine ⟨fun k hk is his => ?_, fun cs hcs => mapM_assemble_map fun c hc => assemble_qPixelHex (hcs c hc),
    fun p hp => mapM_assemble_map fun i hi => assemble_qRdpal ?_, ?_⟩
  · have hindices := mapM_assemble_map fun i hi => assemble_lzIndex (his i hi)
    have hfinish : assemble .lzFinish = some 0x30000000 := rfl
    simp [Pseudo.words, Pseudo.expand, List.mapM_append, assemble_lzStart hk, hindices, hfinish]
  · exact lt_of_lt_of_le (List.mem_range.1 hi) hp
  · decide

end Sys2Proof
end

section
/-! PROOFS. Words that spell no command (30_encoding.md R84, R85). -/

namespace Sys2Proof.Machine

/-- Accepting a word that spells no command rejects it (30_encoding.md R84, R85). -/
theorem acceptWord_reject {w : Word} {r : Reject} (h : decode w = .reject r) (s : State) :
    acceptWord w s = .next (rejectWord r s) := by
  simp only [acceptWord, h]

/-- Rejecting a word in a running block raises `ErrOpcode`, and answers the failure word for a response-bearing opcode. -/
theorem rejectWord_running {s : State} (hs : s.running) (r : Reject) :
    rejectWord r s = { s with
      err := { s.err with opcode := true },
      rsp := if rejectResponds r then s.rsp ++ [Config.failureWord] else s.rsp } := by
  have hraise : (if s.err.internal then s else raise .opcode s) = raise .opcode s := if_neg (by simp [hs])
  unfold rejectWord
  rw [hraise]
  split <;> rfl

/-- Settles O8: a reserved opcode decodes to a rejection that is not answered. -/
theorem reservedOpcodeOnlySetsErrOpcode : Obligations.ReservedOpcodeOnlySetsErrOpcode := by
  unfold Obligations.ReservedOpcodeOnlySetsErrOpcode
  intro s w hs hop
  have hreject := decode_of_reservedOpcode hop
  refine ⟨fun i hi => by simp [hreject] at hi, ?_⟩
  rw [acceptWord_reject hreject, rejectWord_running hs]
  rfl

/-- Settles O9: the word decodes to a rejection that is answered exactly for the opcodes 6 to 9 (`Opcode.responds_iff`). -/
theorem reservedBitOnlySetsErrOpcode : Obligations.ReservedBitOnlySetsErrOpcode := by
  unfold Obligations.ReservedBitOnlySetsErrOpcode
  intro s w op j hs hop hj hw hmask
  have hres : reservedBits op w ≠ 0 := fun h => by
    have hmasked := reservedBits_eq_zero_iff.1 h j hj hw
    simp [hmask] at hmasked
  rw [acceptWord_reject (decode_of_reservedBits hop hres), rejectWord_running hs]
  simp only [rejectResponds, Opcode.responds_iff hop]

end Sys2Proof.Machine
end

section
/-! PROOFS. What an accepted word answers (30_encoding.md R86): the response-bearing ones one word each, the failure word when they
fail and a word with bit 31 = 0 when `Q_BUILD`, `Q_MAP` or `Q_RDPAL` succeeds. -/

namespace Sys2Proof.Machine

/-! ### A result, or the failure word -/

/-- From `s` to `t` one word is appended to `rsp`: with bit 31 = 0 when `ok`, and the failure word otherwise. -/
def ResultOrFailure (ok : Prop) (s t : State) : Prop :=
  ∃ v : Word, t.rsp = s.rsp ++ [v] ∧ (ok → v.getLsbD 31 = false) ∧ (¬ok → v = Config.failureWord)

theorem ResultOrFailure.result {ok : Prop} {s t : State} {v : Word} (hok : ok) (hrsp : t.rsp = s.rsp ++ [v])
    (hv : v.getLsbD 31 = false) : ResultOrFailure ok s t :=
  ⟨v, hrsp, fun _ => hv, fun h => absurd hok h⟩

theorem ResultOrFailure.failure {ok : Prop} {s t : State} (hok : ¬ok) (hrsp : t.rsp = s.rsp ++ [Config.failureWord]) :
    ResultOrFailure ok s t :=
  ⟨Config.failureWord, hrsp, fun h => absurd h hok, fun _ => rfl⟩

/-- A command that the halted state answers with the failure word succeeds only in a running block (60_exceptions.md R218). -/
theorem resultOrFailure_unlessHalted {ok : Prop} {go : State → State} {s : State} (hgo : ResultOrFailure ok s (go s)) :
    ResultOrFailure (s.running ∧ ok) s (unlessHalted respondFailure go s) := by
  cases hs : s.err.internal with
  | true =>
    rw [unlessHalted_halted hs]
    exact .failure (fun ⟨hrun, _⟩ => absurd (hs.symm.trans hrun) (by decide)) rfl
  | false =>
    rwa [unlessHalted_running hs, and_iff_right (show s.running from hs)]

/-- The search answers an index of the list it looks at, or the best one so far. -/
theorem nearestFrom_lt (c : Colour) {best i n : Nat} (bd : Nat) {es : List Colour} (hbest : best < n) (hn : i + es.length ≤ n) :
    nearestFrom c best bd i es < n := by
  obtain ⟨h, -⟩ | ⟨j, hj, h, -⟩ := nearestFrom_spec c best bd i es
  · exact h.trans_lt hbest
  · omega

/-- A palette index is below 256 (40_palette_quantizer.md R112). -/
theorem nearest_lt (q : PqUnit) (c : Colour) : q.nearest c < 256 := by
  refine nearestFrom_lt c _ (by decide) ?_
  simp [PqUnit.entries]
  omega

theorem buildResponse_bit31 (q : PqUnit) : q.buildResponse.getLsbD 31 = false := by
  simp [PqUnit.buildResponse]

theorem mapResponse_bit31 (q : PqUnit) (c : Colour) : (Word.ofNat (q.nearest c)).getLsbD 31 = false := by
  have hlt : q.nearest c < 2 ^ 31 := (nearest_lt q c).trans (by decide)
  rw [BitVec.getLsbD_ofNat, Nat.testBit_lt_two_pow hlt, Bool.and_false]

theorem entryWord_bit31 (q : PqUnit) (x : Index) : (q.entryWord x).getLsbD 31 = false := by
  unfold PqUnit.entryWord
  split <;> simp

theorem qMap_answer (c : Colour) (s : State) :
    ResultOrFailure (legalPhase (.qMap c) s = true ∧ valueError (.qMap c) s = none) s (qMap c s) := by
  unfold qMap
  split
  · next hbuilt => exact .result ⟨decide_eq_true hbuilt, rfl⟩ rfl (mapResponse_bit31 s.pq c)
  · next hbuilt => exact .failure (fun ⟨hphase, _⟩ => hbuilt (of_decide_eq_true hphase)) rfl

theorem qRdpal_answer (x : Index) (s : State) :
    ResultOrFailure (legalPhase (.qRdpal x) s = true ∧ valueError (.qRdpal x) s = none) s (qRdpal x s) := by
  unfold qRdpal
  split
  · next hbuilt => exact .result ⟨decide_eq_true hbuilt, rfl⟩ rfl (entryWord_bit31 s.pq x)
  · next hbuilt => exact .failure (fun ⟨hphase, _⟩ => hbuilt (of_decide_eq_true hphase)) rfl

theorem qBuild_answer (q : Bool) (s : State) :
    ResultOrFailure (legalPhase (.qBuild q) s = true ∧ valueError (.qBuild q) s = none) s (qBuild q s) := by
  unfold qBuild
  split
  · next hcollect =>
    split
    · next hany =>
      split
      · next hovf =>
        split
        · next hq =>
          exact .result (by simp [legalPhase, valueError, hcollect, hany, hq]) rfl (buildResponse_bit31 _)
        · next hq => exact .failure (by simp [valueError, hany, hovf, hq]) rfl
      · next hovf =>
        exact .result (by simp [legalPhase, valueError, hcollect, hany, hovf]) rfl (buildResponse_bit31 _)
    · next hany => exact .failure (by simp [valueError, hany]) rfl
  · next hcollect => exact .failure (by simp [legalPhase, hcollect]) rfl

/-- `Q_BUILD`, `Q_MAP` and `Q_RDPAL` answer a word with bit 31 = 0 when they succeed, and the failure word otherwise. -/
theorem exec_resultOrFailure {i : Instr} (hi : (∃ q, i = .qBuild q) ∨ (∃ c, i = .qMap c) ∨ (∃ x, i = .qRdpal x)) (s : State) :
    ∃ t, exec i s = .next t ∧ ResultOrFailure (s.running ∧ legalPhase i s = true ∧ valueError i s = none) s t := by
  obtain ⟨q, rfl⟩ | ⟨c, rfl⟩ | ⟨x, rfl⟩ := hi
  · exact ⟨_, rfl, resultOrFailure_unlessHalted (qBuild_answer q s)⟩
  · exact ⟨_, rfl, resultOrFailure_unlessHalted (qMap_answer c s)⟩
  · exact ⟨_, rfl, resultOrFailure_unlessHalted (qRdpal_answer x s)⟩

/-- A bit at or above the low part of a concatenation is a bit of its high part. -/
theorem getLsbD_append_of_ge {n m j : Nat} (x : BitVec n) (y : BitVec m) (h : m ≤ j) :
    (x ++ y).getLsbD j = x.getLsbD (j - m) := by
  rw [BitVec.getLsbD_append, if_neg h.not_gt]

theorem statusWord_bit23 (e : ErrBits) (st : Phase) (isExact pv act : Bool) :
    (statusWord e st isExact pv act).getLsbD 23 = false := by
  unfold statusWord
  iterate 10 refine (getLsbD_append_of_ge _ _ (by decide)).trans ?_
  decide

theorem capsWord_bit23 (p : Params) : (capsWord p).getLsbD 23 = false := by
  unfold capsWord
  cases p.minRoot <;> decide

theorem gctszWord_bit23 (q : PqUnit) : (gctszWord q).getLsbD 23 = false := by
  unfold gctszWord
  split <;> simp

/-- Bit 23 of every register but the three 32-bit counters reads 0 (10_state.md R40 to R55). -/
theorem regValue_bit23 (s : State) {r : RegName} (hcount : r ≠ .lzCount) (hbytes : r ≠ .lzBytes) (hnpix : r ≠ .qNpix) :
    (regValue s r).getLsbD 23 = false := by
  cases r with
  | id => exact (by decide : Config.idValue.getLsbD 23 = false)
  | status => exact statusWord_bit23 ..
  | caps => exact capsWord_bit23 _
  | lzPrefix | qNdistinct =>
    exact (getLsbD_append_of_ge _ _ (by decide)).trans (BitVec.getLsbD_append.trans (by simp))
  | lzK | lzRoot | lzWidth | lzNext | qNbuckets | qNcolors | qPsize => simp [regValue]
  | qGctsz => exact gctszWord_bit23 _
  | lzCount => exact absurd rfl hcount
  | lzBytes => exact absurd rfl hbytes
  | qNpix => exact absurd rfl hnpix

/-- The counters are the registers 8, 9 and 10 (10_state.md R40). -/
theorem RegName.ofNumber_counters (n : BitVec 4) :
    (RegName.ofNumber n = .lzCount → n = 8) ∧ (RegName.ofNumber n = .lzBytes → n = 9) ∧ (RegName.ofNumber n = .qNpix → n = 10) := by
  revert n
  decide

/-- Settles O16: a result has bit 31 = 0, a register that is no counter bit 23 = 0, and the failure word has neither. -/
theorem failureWordIsNoResult : Obligations.FailureWordIsNoResult := by
  unfold Obligations.FailureWordIsNoResult
  refine ⟨fun s i hi => ?_, fun s n h8 h9 h10 => ?_⟩
  · obtain ⟨t, hexec, v, hrsp, hresult, hfailure⟩ := exec_resultOrFailure hi s
    exact ⟨t, v, hexec, hrsp, hresult, hfailure⟩
  · obtain ⟨hcount, hbytes, hnpix⟩ := RegName.ofNumber_counters n
    have hbit := regValue_bit23 s (mt hcount h8) (mt hbytes h9) (mt hnpix h10)
    exact ⟨_, exec_rdreg n s, fun h => by simp [h] at hbit⟩

/-! ### One answer, or none -/

/-- From `s` to `t` one word is appended to `rsp` when `b` is true, and none otherwise. -/
def Answers (b : Bool) (s t : State) : Prop := if b then ∃ v : Word, t.rsp = s.rsp ++ [v] else t.rsp = s.rsp

theorem ResultOrFailure.answers {ok : Prop} {s t : State} (h : ResultOrFailure ok s t) : Answers true s t := by
  obtain ⟨v, hrsp, -⟩ := h
  exact ⟨v, hrsp⟩

theorem qPixel_rsp (c : Colour) (s : State) : (qPixel c s).rsp = s.rsp := by
  unfold qPixel
  split <;> rfl

/-- A command of a response-bearing opcode appends one word, whatever the state, and no other command appends any
(30_encoding.md R86). -/
theorem exec_answers (i : Instr) (s : State) : ∃ t, exec i s = .next t ∧ Answers i.opcode.responds s t := by
  have hsilent {go : State → State} (hgo : (go s).rsp = s.rsp) : Answers false s (unlessHalted haltedNothing go s) :=
    unlessHalted_of (P := Answers false s) rfl hgo
  cases i with
  | nop => exact ⟨_, rfl, rfl⟩
  | lzStart k => exact ⟨_, rfl, hsilent (lzSide_lzStart k s).rsp⟩
  | lzIndex x => exact ⟨_, rfl, hsilent (lzSide_lzIndex x s).rsp⟩
  | lzFinish => exact ⟨_, rfl, hsilent (lzSide_lzFinish s).rsp⟩
  | qBegin => exact ⟨_, rfl, hsilent rfl⟩
  | qPixel c => exact ⟨_, rfl, hsilent (qPixel_rsp c s)⟩
  | qBuild q => exact ⟨_, rfl, (resultOrFailure_unlessHalted (qBuild_answer q s)).answers⟩
  | qMap c => exact ⟨_, rfl, (resultOrFailure_unlessHalted (qMap_answer c s)).answers⟩
  | qRdpal x => exact ⟨_, rfl, (resultOrFailure_unlessHalted (qRdpal_answer x s)).answers⟩
  | rdreg n => exact ⟨_, exec_rdreg n s, ⟨_, rfl⟩⟩
  | clrerr => exact ⟨_, rfl, hsilent rfl⟩

/-- A rejected word is answered exactly when its opcode is response-bearing, halted or not (30_encoding.md R86). -/
theorem rejectWord_answers (r : Reject) (s : State) : Answers (rejectResponds r) s (rejectWord r s) := by
  have hkeep : (if s.err.internal then s else raise .opcode s).rsp = s.rsp := by split <;> rfl
  unfold rejectWord
  cases rejectResponds r with
  | true => exact ⟨Config.failureWord, congrArg (· ++ [Config.failureWord]) hkeep⟩
  | false => exact hkeep

/-- Whether an accepted word is answered depends on its opcode alone (30_encoding.md R86). -/
theorem acceptWord_answers (w : Word) (s : State) :
    ∃ t, acceptWord w s = .next t ∧ Answers (decide (6 ≤ (opField w).toNat ∧ (opField w).toNat ≤ 9)) s t := by
  cases hop : Opcode.ofField (opField w) with
  | none =>
    have hreserved := Opcode.ofField_eq_none_iff.1 hop
    rw [decide_eq_false (by omega)]
    exact ⟨_, acceptWord_reject (decode_of_reservedOpcode hreserved) s, rejectWord_answers .reservedOpcode s⟩
  | some op =>
    have hresponds : decide (6 ≤ (opField w).toNat ∧ (opField w).toNat ≤ 9) = op.responds := by
      rw [Bool.eq_iff_iff, decide_eq_true_iff, Opcode.responds_iff hop]
    rw [hresponds]
    by_cases hres : reservedBits op w = 0
    · rw [acceptWord_command (decode_of_noReservedBits hop hres)]
      simpa using exec_answers (op.instr w) s
    · exact ⟨_, acceptWord_reject (decode_of_reservedBits hop hres) s, rejectWord_answers (.reservedBits op) s⟩

/-- Settles O15: the step accepts the word, and the word is answered by its opcode (`acceptWord_answers`). -/
theorem everyResponseBearingWordAnswersOnce : Obligations.EveryResponseBearingWordAnswersOnce := by
  unfold Obligations.EveryResponseBearingWordAnswersOnce
  intro s w rest hport hready
  obtain ⟨t, haccept, hanswers⟩ := acceptWord_answers w { s with port := rest }
  refine ⟨t, (step_command hport hready).trans haccept, fun hop => ?_, fun hop => ?_⟩
  · rwa [decide_eq_true hop] at hanswers
  · rwa [decide_eq_false (by omega)] at hanswers

end Sys2Proof.Machine
end

section
/-! PROOFS. The colour functions of the palette unit: the bucket of a colour, the distance of two colours and the rounding of palette
sizes (40_palette_quantizer.md R101, R102, R104). -/

namespace Sys2Proof.Machine

/-! ### Channels -/

theorem red_toNat (c : Colour) : (red c).toNat = (channels c).1 := by
  simp only [red, channels, BitVec.extractLsb'_toNat, Nat.shiftRight_eq_div_pow]
  omega

theorem green_toNat (c : Colour) : (green c).toNat = (channels c).2.1 := by
  simp only [green, channels, BitVec.extractLsb'_toNat, Nat.shiftRight_eq_div_pow]

theorem blue_toNat (c : Colour) : (blue c).toNat = (channels c).2.2 := by
  simp only [blue, channels, BitVec.extractLsb'_toNat, Nat.shiftRight_zero]

theorem channels_lt (c : Colour) : (channels c).1 < 256 ∧ (channels c).2.1 < 256 ∧ (channels c).2.2 < 256 := by
  simp only [channels]
  omega

theorem channels_injective {c d : Colour} (h : channels c = channels d) : c = d := by
  simp only [channels, Prod.mk.injEq] at h
  apply BitVec.eq_of_toNat_eq
  omega

/-! ### Buckets -/

/-- The number of a concatenation. -/
theorem toNat_append_eq {n m : Nat} (x : BitVec n) (y : BitVec m) : (x ++ y).toNat = x.toNat * 2 ^ m + y.toNat := by
  rw [BitVec.toNat_append, ← Nat.shiftLeft_add_eq_or_of_lt y.isLt, Nat.shiftLeft_eq]

/-- The number of a bucket is made of the top bits of the channels (40_palette_quantizer.md R101). -/
theorem bucket_toNat (c : Colour) : (bucket c).toNat =
    (channels c).1 / 2 ^ 5 * 2 ^ 5 + (channels c).2.1 / 2 ^ 5 * 2 ^ 2 + (channels c).2.2 / 2 ^ 6 := by
  simp only [bucket, channels, toNat_append_eq, BitVec.extractLsb'_toNat, Nat.shiftRight_eq_div_pow]
  omega

/-- Two colours share a bucket exactly when the top bits of their channels agree (40_palette_quantizer.md R101). -/
theorem bucket_eq_iff (c d : Colour) : bucket c = bucket d ↔
    (channels c).1 / 2 ^ 5 = (channels d).1 / 2 ^ 5 ∧ (channels c).2.1 / 2 ^ 5 = (channels d).2.1 / 2 ^ 5 ∧
      (channels c).2.2 / 2 ^ 6 = (channels d).2.2 / 2 ^ 6 := by
  have hc := channels_lt c
  have hd := channels_lt d
  rw [← BitVec.toNat_inj, bucket_toNat, bucket_toNat]
  omega

/-- Every bucket holds a colour: the one with the bucket's bits on top and no other bit set. -/
theorem bucket_surjective (b : BitVec 8) : ∃ c : Colour, bucket c = b := by
  obtain ⟨r, g, l, hr, hg, hl, hb⟩ : ∃ r g l, r < 2 ^ 3 ∧ g < 2 ^ 3 ∧ l < 2 ^ 2 ∧ b.toNat = r * 2 ^ 5 + g * 2 ^ 2 + l :=
    ⟨b.toNat / 2 ^ 5, b.toNat / 2 ^ 2 % 2 ^ 3, b.toNat % 2 ^ 2, by omega, by omega, by omega, by omega⟩
  obtain ⟨c, hc⟩ : ∃ c, channels c = (r * 2 ^ 5, g * 2 ^ 5, l * 2 ^ 6) := by
    refine ⟨BitVec.ofNat 24 (r * 2 ^ 21 + g * 2 ^ 13 + l * 2 ^ 6), ?_⟩
    rw [channels, BitVec.toNat_ofNat, Nat.mod_eq_of_lt (by omega)]
    simp only [Prod.mk.injEq]
    omega
  refine ⟨c, ?_⟩
  rw [← BitVec.toNat_inj, bucket_toNat, hc, hb]
  simp

/-- Settles O30: the number of a bucket (`bucket_toNat`), when two are equal (`bucket_eq_iff`), and a colour for each
(`bucket_surjective`). -/
theorem bucketIsTheTopBits : Obligations.BucketIsTheTopBits := by
  unfold Obligations.BucketIsTheTopBits
  exact ⟨bucket_toNat, bucket_eq_iff, bucket_surjective⟩

/-! ### Distances -/

/-- The squared difference is exact over the integers (40_palette_quantizer.md R102). -/
theorem sqDiff_cast (a b : BitVec 8) : (sqDiff a b : Int) = ((a.toNat : Int) - b.toNat) ^ 2 :=
  Int.toNat_of_nonneg (sq_nonneg _)

/-- A squared difference is at most the square of a bound on the difference. -/
theorem sqDiff_le {a b : BitVec 8} {n : Nat} (h : ((a.toNat : Int) - b.toNat).natAbs ≤ n) : sqDiff a b ≤ n ^ 2 := by
  rw [sqDiff, ← Int.natAbs_sq, ← Nat.cast_pow, Int.toNat_natCast]
  exact Nat.pow_le_pow_left h 2

theorem eq_of_sqDiff_eq_zero {a b : BitVec 8} (h : sqDiff a b = 0) : a = b := by
  have hsq := sqDiff_cast a b
  rw [h, Nat.cast_zero, eq_comm, sq_eq_zero_iff, sub_eq_zero] at hsq
  exact BitVec.eq_of_toNat_eq (Int.ofNat_inj.1 hsq)

/-- Only a colour itself is at distance 0 from it. -/
theorem colourDist_eq_zero_iff {a b : Colour} : colourDist a b = 0 ↔ a = b := by
  constructor
  · intro h
    simp only [colourDist, Nat.add_eq_zero_iff] at h
    obtain ⟨⟨hr, hg⟩, hb⟩ := h
    refine channels_injective (Prod.ext ?_ (Prod.ext ?_ ?_))
    · rw [← red_toNat, ← red_toNat, eq_of_sqDiff_eq_zero hr]
    · rw [← green_toNat, ← green_toNat, eq_of_sqDiff_eq_zero hg]
    · rw [← blue_toNat, ← blue_toNat, eq_of_sqDiff_eq_zero hb]
  · rintro rfl
    simp [colourDist, sqDiff]

/-- Bounds on the differences of the channels bound the distance. -/
theorem colourDist_le {a b : Colour} {r g l : Nat} (hr : (((channels a).1 : Int) - (channels b).1).natAbs ≤ r)
    (hg : (((channels a).2.1 : Int) - (channels b).2.1).natAbs ≤ g)
    (hl : (((channels a).2.2 : Int) - (channels b).2.2).natAbs ≤ l) : colourDist a b ≤ r ^ 2 + g ^ 2 + l ^ 2 := by
  rw [← red_toNat, ← red_toNat] at hr
  rw [← green_toNat, ← green_toNat] at hg
  rw [← blue_toNat, ← blue_toNat] at hl
  exact Nat.add_le_add (Nat.add_le_add (sqDiff_le hr) (sqDiff_le hg)) (sqDiff_le hl)

/-- Two colours of one bucket are within the quantization error bound (40_palette_quantizer.md R110). -/
theorem colourDist_le_of_bucket_eq {a b : Colour} (h : bucket a = bucket b) : colourDist a b ≤ 5891 := by
  have htop := (bucket_eq_iff a b).1 h
  exact colourDist_le (r := 31) (g := 31) (l := 63) (by omega) (by omega) (by omega)

/-- Settles O31: the sum of the exact squares (`sqDiff_cast`), bounded through the channels (`colourDist_le`); the square root is
strictly increasing. -/
theorem distanceIsExact : Obligations.DistanceIsExact := by
  unfold Obligations.DistanceIsExact
  refine ⟨fun a b => ?_, fun a b c d => ?_⟩
  · have ha := channels_lt a
    have hb := channels_lt b
    have hexact : (colourDist a b : Int) =
        ((channels a).1 - (channels b).1 : Int) ^ 2 + ((channels a).2.1 - (channels b).2.1 : Int) ^ 2
          + ((channels a).2.2 - (channels b).2.2 : Int) ^ 2 := by
      simp only [colourDist, Nat.cast_add, sqDiff_cast, red_toNat, green_toNat, blue_toNat]
    have hr : (((channels a).1 : Int) - (channels b).1).natAbs ≤ 255 := by omega
    have hg : (((channels a).2.1 : Int) - (channels b).2.1).natAbs ≤ 255 := by omega
    have hl : (((channels a).2.2 : Int) - (channels b).2.2).natAbs ≤ 255 := by omega
    have hle : colourDist a b ≤ 195075 := colourDist_le hr hg hl
    exact ⟨hexact, hr, hg, hl, hle, by omega⟩
  · rw [Real.sqrt_lt_sqrt_iff (Nat.cast_nonneg _), Nat.cast_lt]

/-! ### Palette sizes -/

/-- Doubling a power of two stops at the least power of two, from there on, that is at least `n`, or when the fuel is used up. -/
theorem doubleUpTo_two_pow (n fuel i : Nat) : ∃ j, i ≤ j ∧ j ≤ i + fuel ∧ doubleUpTo n fuel (2 ^ i) = 2 ^ j ∧
    (n ≤ 2 ^ (i + fuel) → n ≤ 2 ^ j) ∧ ∀ m, i ≤ m → n ≤ 2 ^ m → j ≤ m := by
  induction fuel generalizing i with
  | zero => exact ⟨i, le_rfl, le_rfl, rfl, id, fun _ hm _ => hm⟩
  | succ fuel ih =>
    by_cases hn : n ≤ 2 ^ i
    · exact ⟨i, le_rfl, by omega, if_pos hn, fun _ => hn, fun _ hm _ => hm⟩
    · obtain ⟨j, hij, hj, heq, hle, hleast⟩ := ih (i + 1)
      have hstep : doubleUpTo n (fuel + 1) (2 ^ i) = doubleUpTo n fuel (2 ^ (i + 1)) := by
        rw [doubleUpTo, if_neg hn, ← Nat.pow_succ']
      refine ⟨j, by omega, by omega, hstep.trans heq, fun h => hle (by rwa [Nat.add_right_comm]), fun m him hm => ?_⟩
      have hne : i ≠ m := fun him => hn (him ▸ hm)
      exact hleast m (by omega) hm

/-- `RoundP(n)` is one of the eight palette sizes; for `n` up to 256 it is at least `n`, and the least such (40_palette_quantizer.md
R104). -/
theorem roundP_eq_two_pow (n : Nat) : ∃ j, 1 ≤ j ∧ j ≤ 8 ∧ roundP n = 2 ^ j ∧ (n ≤ 256 → n ≤ 2 ^ j) ∧
    ∀ m, 1 ≤ m → n ≤ 2 ^ m → j ≤ m :=
  doubleUpTo_two_pow n 7 1

/-- Settles O32: the exponent of `roundP_eq_two_pow`, which for `n <= 2` is at most 1; for `n > 2` no power below 2 reaches `n`. -/
theorem paletteSizeIsTheLeastPowerOfTwo : Obligations.PaletteSizeIsTheLeastPowerOfTwo := by
  unfold Obligations.PaletteSizeIsTheLeastPowerOfTwo
  intro n _ hn
  obtain ⟨j, hj1, hj8, heq, hle, hleast⟩ := roundP_eq_two_pow n
  refine ⟨fun h2 => ?_, fun h2 => ⟨j, heq, hle hn, fun m hm => hleast m ?_ hm⟩, j, hj1, hj8, heq⟩
  · have hj := hleast 1 le_rfl h2
    rw [heq, show j = 1 by omega, pow_one]
  · by_contra h0
    obtain rfl : m = 0 := by omega
    omega

end Sys2Proof.Machine
end

section
/-! PROOFS. What each PQ command does in a block that is not halted, case by case (40_palette_quantizer.md section 2). -/

namespace Sys2Proof.Machine

/-! ### The commands of a running block -/

/-- An operand of the encoder, put beside the bits of an opcode, is its number put there. -/
theorem or_setWidth_toNat {n : Nat} (base : Nat) (x : BitVec n) :
    Word.ofNat base ||| x.setWidth 32 = Word.ofNat (base ||| x.toNat) := by
  simp

variable {s : State}

theorem exec_qBegin_running (hs : s.running) : exec .qBegin s = .next (qBegin s) :=
  congrArg Host.Outcome.next (unlessHalted_running hs)

theorem exec_qPixel_running (hs : s.running) (c : Colour) : exec (.qPixel c) s = .next (qPixel c s) :=
  congrArg Host.Outcome.next (unlessHalted_running hs)

theorem exec_qBuild_running (hs : s.running) (q : Bool) : exec (.qBuild q) s = .next (qBuild q s) :=
  congrArg Host.Outcome.next (unlessHalted_running hs)

/-- `Q_MAP` with no palette built is refused (40_palette_quantizer.md R112). -/
theorem exec_qMap_unbuilt (hs : s.running) (hbuilt : s.pq.st ≠ .built) (c : Colour) :
    exec (.qMap c) s = .next (respondFailure (raise .cmd s)) := by
  simp only [exec, execQMap, unlessHalted_running hs, qMap, if_neg hbuilt]

/-- `Q_RDPAL` with no palette built is refused (40_palette_quantizer.md R114). -/
theorem exec_qRdpal_unbuilt (hs : s.running) (hbuilt : s.pq.st ≠ .built) (x : Index) :
    exec (.qRdpal x) s = .next (respondFailure (raise .cmd s)) := by
  simp only [exec, execQRdpal, unlessHalted_running hs, qRdpal, if_neg hbuilt]

/-- `Q_PIXEL` outside a collection is refused (40_palette_quantizer.md R107). -/
theorem exec_qPixel_refused (hs : s.running) (hphase : s.pq.st ≠ .collect) (c : Colour) :
    exec (.qPixel c) s = .next (raise .cmd s) := by
  rw [exec_qPixel_running hs, qPixel, if_neg hphase]

/-- `Q_PIXEL` while collecting (40_palette_quantizer.md R107). -/
theorem exec_qPixel_collect (hs : s.running) (hphase : s.pq.st = .collect) (c : Colour) :
    exec (.qPixel c) s = .next { s with pq := s.pq.collected c } := by
  rw [exec_qPixel_running hs, qPixel, if_pos hphase]

/-! ### `Q_BEGIN` -/

/-- The field `Q_ST` of `STATUS` (10_state.md R42). -/
theorem statusWord_phase (e : ErrBits) (st : Phase) (isExact pv act : Bool) :
    hasField (statusWord e st isExact pv act) 2 2 st.bits.toNat := by
  rw [hasField, statusWord, BitVec.extractLsb'_append_eq_of_le (by decide), BitVec.extractLsb'_append_eq_of_le (by decide),
    BitVec.extractLsb'_append_eq_right]

/-- The field `Q_EXACT` of `STATUS` (10_state.md R42). -/
theorem statusWord_exact (e : ErrBits) (st : Phase) (isExact pv act : Bool) :
    (statusWord e st isExact pv act).getLsbD 4 = isExact := by
  unfold statusWord
  iterate 3 refine (getLsbD_append_of_ge _ _ (by decide)).trans ?_
  exact BitVec.getLsbD_append.trans (by simp)

/-- Settles O33: the state after `Q_BEGIN` is `qBegin s`, whose unit is `PqUnit.begun`. -/
theorem qBeginStartsACollection : Obligations.QBeginStartsACollection := by
  unfold Obligations.QBeginStartsACollection
  refine ⟨rfl, fun s hs => ⟨qBegin s, exec_qBegin_running hs, rfl, rfl, rfl, rfl, rfl, begun_seenAt s.pq, rfl, rfl, rfl, rfl,
    rfl, rfl, rfl, rfl, statusWord_phase .., statusWord_exact .., rfl, ?_⟩⟩
  exact exec_qBegin_running (s := qBegin s) hs

/-! ### `Q_PIXEL` -/

/-- A colour is collected when it stands below `q_exn` in `q_ex` (10_state.md R35). -/
theorem mem_colours_iff {q : PqUnit} {c : Colour} :
    c ∈ q.colours ↔ ∃ j : Fin 256, j.val < q.exn.toNat ∧ q.ex[j.val] = c := by
  simp only [PqUnit.colours, List.mem_take_iff_getElem, Vector.length_toList, Vector.getElem_toList, lt_min_iff]
  exact ⟨fun ⟨j, hj, h⟩ => ⟨⟨j, hj.2⟩, hj.1, h⟩, fun ⟨j, hj, h⟩ => ⟨j.val, ⟨hj, j.isLt⟩, h⟩⟩

section Cases
variable {q : PqUnit} {c : Colour}

theorem collectColour_of_mem (h : c ∈ q.colours) : q.collectColour c = q := if_pos h

theorem collectColour_of_room (h : c ∉ q.colours) (hroom : q.exn.toNat < 256) :
    q.collectColour c = { q with ex := q.ex.set q.exn.toNat c hroom, exn := q.exn + 1 } :=
  (if_neg h).trans (dif_pos hroom)

theorem collectColour_of_full (h : c ∉ q.colours) (hfull : ¬q.exn.toNat < 256) : q.collectColour c = { q with ovf := true } :=
  (if_neg h).trans (dif_neg hfull)

theorem collectBucket_of_seen (h : q.seenAt (bucket c) = true) : q.collectBucket c = q := if_pos h

theorem collectBucket_of_new (h : ¬q.seenAt (bucket c) = true) :
    q.collectBucket c = { q with
      seen := q.seen.set (bucket c).toNat true (bucket c).isLt, rep := q.rep.set (bucket c).toNat c (bucket c).isLt,
      ord := q.ord.setIfInBounds q.bkn.toNat (bucket c), bkn := q.bkn + 1 } := if_neg h

end Cases

/-- `Q_PIXEL` counts the pixel, and its two parts, the exact-colour list and the bucket table, do not touch each other
(40_palette_quantizer.md R107). -/
theorem collected_eq (c : Colour) (q : PqUnit) :
    q.collected c = { q with
      any := true, npix := q.npix + 1,
      ex := (q.collectColour c).ex, exn := (q.collectColour c).exn, ovf := (q.collectColour c).ovf,
      seen := (q.collectBucket c).seen, rep := (q.collectBucket c).rep, ord := (q.collectBucket c).ord,
      bkn := (q.collectBucket c).bkn } := by
  have hcolour : ({ q with any := true, npix := q.npix + 1 } : PqUnit).collectColour c =
      { q.collectColour c with any := true, npix := q.npix + 1 } := by
    by_cases hmem : c ∈ q.colours
    · rw [collectColour_of_mem hmem, collectColour_of_mem (q := { q with any := true, npix := q.npix + 1 }) hmem]
    · by_cases hroom : q.exn.toNat < 256
      · rw [collectColour_of_room hmem hroom,
          collectColour_of_room (q := { q with any := true, npix := q.npix + 1 }) hmem hroom]
      · rw [collectColour_of_full hmem hroom,
          collectColour_of_full (q := { q with any := true, npix := q.npix + 1 }) hmem hroom]
  rw [PqUnit.collected, hcolour, collectColour_eq]
  by_cases hseen : q.seenAt (bucket c) = true
  · rw [collectBucket_of_seen hseen]
    exact collectBucket_of_seen hseen
  · rw [collectBucket_of_new hseen]
    exact collectBucket_of_new hseen

/-- The exact-colour list after `Q_PIXEL`, in every case of the rule (40_palette_quantizer.md R107). -/
theorem collectColour_cases (c : Colour) (q : PqUnit) :
    if c ∈ q.colours then
      (q.collectColour c).ex = q.ex ∧ (q.collectColour c).exn = q.exn ∧ (q.collectColour c).ovf = q.ovf
    else if q.exn.toNat < 256 then
      (q.collectColour c).exn.toNat = q.exn.toNat + 1 ∧ (q.collectColour c).ovf = q.ovf ∧
      ∀ j : Fin 256, (q.collectColour c).ex[j.val] = if j.val = q.exn.toNat then c else q.ex[j.val]
    else (q.collectColour c).ex = q.ex ∧ (q.collectColour c).exn = q.exn ∧ (q.collectColour c).ovf = true := by
  split
  · next hmem => simp [collectColour_of_mem hmem]
  · next hmem =>
    split
    · next hroom =>
      rw [collectColour_of_room hmem hroom]
      refine ⟨succ_toNat_9 hroom, rfl, fun j => ?_⟩
      simp only [Vector.getElem_set, eq_comm]
    · next hfull => simp [collectColour_of_full hmem hfull]

/-- The bucket table after `Q_PIXEL`, in every case of the rule (40_palette_quantizer.md R107). -/
theorem collectBucket_cases (c : Colour) {q : PqUnit} (hroom : q.seenAt (bucket c) = false → q.bkn.toNat < 256) :
    if q.seenAt (bucket c) = true then
      (q.collectBucket c).seen = q.seen ∧ (q.collectBucket c).rep = q.rep ∧ (q.collectBucket c).ord = q.ord ∧
        (q.collectBucket c).bkn = q.bkn
    else
      (∀ b : BitVec 8, (q.collectBucket c).seenAt b = if b = bucket c then true else q.seenAt b) ∧
      (∀ b : BitVec 8, (q.collectBucket c).repAt b = if b = bucket c then c else q.repAt b) ∧
      (∀ j : Fin 256, (q.collectBucket c).ord[j.val] = if j.val = q.bkn.toNat then bucket c else q.ord[j.val]) ∧
      (q.collectBucket c).bkn.toNat = q.bkn.toNat + 1 := by
  split
  · next hseen => simp [collectBucket_of_seen hseen]
  · next hseen =>
    refine ⟨seenAt_collectBucket c q, fun b => ?_, fun j => ?_, ?_⟩
    · simp [repAt_collectBucket, hseen]
    · rw [collectBucket_of_new hseen]
      simp only [Vector.getElem_setIfInBounds, eq_comm]
    · rw [collectBucket_of_new hseen]
      exact succ_toNat_9 (hroom (by simpa using hseen))

/-- Settles O34: the unit after an accepted `Q_PIXEL` (`collected_eq`), with its two parts case by case. -/
theorem qPixelCollectsAColour : Obligations.QPixelCollectsAColour := by
  unfold Obligations.QPixelCollectsAColour
  refine fun s c hs => ⟨or_setWidth_toNat 0x50000000 c, fun hphase => exec_qPixel_refused hs hphase c,
    fun hphase _ hroom => ⟨_, exec_qPixel_collect hs hphase c, rfl, ?_⟩⟩
  have hnpix : (s.pq.npix + 1).toNat = (s.pq.npix.toNat + 1) % 2 ^ 32 := BitVec.toNat_add ..
  simp only [collected_eq, ← mem_colours_iff, true_and]
  exact ⟨rfl, hphase, hnpix, collectColour_cases c s.pq, collectBucket_cases c hroom⟩

end Sys2Proof.Machine
end

section
/-! PROOFS. Building a palette (40_palette_quantizer.md R108, R111). -/

namespace Sys2Proof.Machine

variable {s : State}

/-! ### The four builds of a collection -/

/-- `Q_BUILD` of an empty collection fails (40_palette_quantizer.md R108). -/
theorem exec_qBuild_empty (hs : s.running) (hphase : s.pq.st = .collect) (hany : s.pq.any = false) (q : Bool) :
    exec (.qBuild q) s = .next (failBuild .input s) := by
  rw [exec_qBuild_running hs, qBuild, if_pos hphase, if_neg (by simp [hany])]

/-- `Q_BUILD 0` after an overflow fails (40_palette_quantizer.md R108). -/
theorem exec_qBuild_overflow (hs : s.running) (hphase : s.pq.st = .collect) (hany : s.pq.any = true) (hovf : s.pq.ovf = true) :
    exec (.qBuild false) s = .next (failBuild .palette s) := by
  rw [exec_qBuild_running hs, qBuild, if_pos hphase, if_pos hany, if_pos hovf, if_neg (by decide)]

/-- `Q_BUILD` with no overflow keeps the exact palette (40_palette_quantizer.md R108, R109). -/
theorem exec_qBuild_exact (hs : s.running) (hphase : s.pq.st = .collect) (hany : s.pq.any = true) (hovf : s.pq.ovf = false)
    (q : Bool) : exec (.qBuild q) s = .next (keepPalette s.pq.exactPalette s) := by
  rw [exec_qBuild_running hs, qBuild, if_pos hphase, if_pos hany, if_neg (by simp [hovf])]

/-- `Q_BUILD 1` after an overflow keeps the quantized palette (40_palette_quantizer.md R108, R110). -/
theorem exec_qBuild_quantized (hs : s.running) (hphase : s.pq.st = .collect) (hany : s.pq.any = true) (hovf : s.pq.ovf = true) :
    exec (.qBuild true) s = .next (keepPalette s.pq.quantizedPalette s) := by
  rw [exec_qBuild_running hs, qBuild, if_pos hphase, if_pos hany, if_pos hovf, if_pos rfl]

/-- Settles O35: both failing builds are `failBuild`. -/
theorem qBuildFailsWithoutColours : Obligations.QBuildFailsWithoutColours := by
  unfold Obligations.QBuildFailsWithoutColours
  exact fun s q hs hphase => ⟨fun hany => exec_qBuild_empty hs hphase hany q, exec_qBuild_overflow hs hphase⟩

/-! ### The palettes -/

/-- The exact palette differs from the unit only in the palette (40_palette_quantizer.md R108). -/
theorem exactPalette_eq (q : PqUnit) :
    q.exactPalette = { q with pal := q.exactPalette.pal, palN := q.exn, isExact := true } := by
  unfold PqUnit.exactPalette
  rfl

/-- The quantized palette differs from the unit only in the palette (40_palette_quantizer.md R108). -/
theorem quantizedPalette_eq (q : PqUnit) :
    q.quantizedPalette = { q with pal := q.quantizedPalette.pal, palN := q.bkn, isExact := false } := by
  unfold PqUnit.quantizedPalette
  rfl

theorem exactPalette_getElem (q : PqUnit) (j : Fin 256) :
    q.exactPalette.pal[j.val] = if j.val < q.exn.toNat then q.ex[j.val] else q.pal[j.val] := by
  simp [PqUnit.exactPalette]

theorem quantizedPalette_getElem (q : PqUnit) (j : Fin 256) :
    q.quantizedPalette.pal[j.val] = if j.val < q.bkn.toNat then q.repAt q.ord[j.val] else q.pal[j.val] := by
  simp [PqUnit.quantizedPalette]

/-- The register `pal_P` holds every palette size (40_palette_quantizer.md R104). -/
theorem finishBuild_palP_toNat (q : PqUnit) : q.finishBuild.palP.toNat = roundP q.palN.toNat := by
  obtain ⟨j, -, hj8, heq, -⟩ := roundP_eq_two_pow q.palN.toNat
  have hlt : roundP q.palN.toNat < 2 ^ 9 := heq ▸ Nat.pow_lt_pow_right (by decide) (by omega)
  rw [finishBuild_palP, BitVec.toNat_ofNat, Nat.mod_eq_of_lt hlt]

/-! ### The response word -/

/-- The number of a word with a field put above its other bits. -/
theorem toNat_or_field {w n : Nat} {lo : Word} (x : BitVec w) (hlo : lo.toNat < 2 ^ n) (hw : w + n ≤ 32) :
    (lo ||| (x.setWidth 32 <<< n)).toNat = x.toNat * 2 ^ n + lo.toNat := by
  have hx : x.toNat <<< n < 2 ^ 32 :=
    lt_of_lt_of_le (Nat.shiftLeft_lt x.isLt) (Nat.pow_le_pow_right (by decide) hw)
  rw [BitVec.toNat_or, BitVec.toNat_shiftLeft, BitVec.toNat_setWidth_of_le (by omega), Nat.mod_eq_of_lt hx, Nat.or_comm,
    ← Nat.shiftLeft_add_eq_or_of_lt hlo, Nat.shiftLeft_eq]

/-- The response word as the concatenation of its fields (40_palette_quantizer.md R111). -/
theorem buildResponse_eq_append (q : PqUnit) :
    q.buildResponse = 0#3 ++ BitVec.ofBool q.isExact ++ 0#3 ++ q.palP ++ 0#7 ++ q.palN := by
  have hn : (q.palN.setWidth 32).toNat = q.palN.toNat := BitVec.toNat_setWidth_of_le (by decide)
  have hsize := toNat_or_field (n := 16) (lo := q.palN.setWidth 32) q.palP (by omega) (by decide)
  apply BitVec.eq_of_toNat_eq
  rw [PqUnit.buildResponse, toNat_or_field _ (by omega) (by decide), hsize, hn]
  simp only [toNat_append_eq, BitVec.toNat_ofNat]
  omega

theorem isBuildResponse_buildResponse (q : PqUnit) : isBuildResponse q.buildResponse q := by
  rw [isBuildResponse, buildResponse_eq_append]
  simp only [hasField]
  refine ⟨?_, ?_, ?_, ?_, ?_, ?_⟩
  · rw [BitVec.extractLsb'_append_eq_right]
  · rw [BitVec.extractLsb'_append_eq_of_le (by decide), BitVec.extractLsb'_append_eq_right]
    rfl
  · rw [BitVec.extractLsb'_append_eq_of_le (by decide), BitVec.extractLsb'_append_eq_of_le (by decide),
      BitVec.extractLsb'_append_eq_right]
  · iterate 3 rw [BitVec.extractLsb'_append_eq_of_le (by decide)]
    rw [BitVec.extractLsb'_append_eq_right]
    rfl
  · iterate 4 refine (getLsbD_append_of_ge _ _ (by decide)).trans ?_
    exact BitVec.getLsbD_append.trans (by simp)
  · iterate 5 rw [BitVec.extractLsb'_append_eq_of_le (by decide)]
    rfl

/-- A kept palette: its phase, its size, its response word, and nothing else (40_palette_quantizer.md R108, R111). -/
theorem keepPalette_spec {u : PqUnit} (hu : u = { s.pq with pal := u.pal, palN := u.palN, isExact := u.isExact }) :
    ∃ v : Word, (keepPalette u s).pq.st = .built ∧ (keepPalette u s).pq.palP.toNat = roundP (keepPalette u s).pq.palN.toNat ∧
      isBuildResponse v (keepPalette u s).pq ∧
      keepPalette u s = { s with
        pq := { s.pq with
          st := .built, pal := (keepPalette u s).pq.pal, palN := (keepPalette u s).pq.palN,
          palP := (keepPalette u s).pq.palP, isExact := (keepPalette u s).pq.isExact },
        rsp := s.rsp ++ [v] } := by
  obtain ⟨p, n, b, rfl⟩ : ∃ p n b, u = { s.pq with pal := p, palN := n, isExact := b } := ⟨_, _, _, hu⟩
  exact ⟨_, rfl, finishBuild_palP_toNat _, isBuildResponse_buildResponse _, rfl⟩

/-- Settles O36: an overflow decides between the two palettes, each entry by entry, and both are kept alike (`keepPalette_spec`). -/
theorem qBuildBuildsThePalette : Obligations.QBuildBuildsThePalette := by
  unfold Obligations.QBuildBuildsThePalette
  intro s q hs hphase hany hq
  cases hovf : s.pq.ovf with
  | false =>
    obtain ⟨v, hbuilt, hsize, hword, hframe⟩ := keepPalette_spec (exactPalette_eq s.pq)
    exact ⟨_, v, exec_qBuild_exact hs hphase hany hovf q, hbuilt,
      fun _ => ⟨exactPalette_palN s.pq, exactPalette_isExact s.pq, exactPalette_getElem s.pq⟩, nofun, hsize, hword, hframe⟩
  | true =>
    obtain rfl : q = true := hq.resolve_left (by simp [hovf])
    obtain ⟨v, hbuilt, hsize, hword, hframe⟩ := keepPalette_spec (quantizedPalette_eq s.pq)
    exact ⟨_, v, exec_qBuild_quantized hs hphase hany hovf, hbuilt, nofun,
      fun _ => ⟨quantizedPalette_palN s.pq, quantizedPalette_isExact s.pq, quantizedPalette_getElem s.pq⟩, hsize, hword, hframe⟩

end Sys2Proof.Machine
end

section
/-! PROOFS. Reading a built palette: the nearest entry and the entry of an index (40_palette_quantizer.md R112, R114). -/

namespace Sys2Proof.Machine

/-! ### Entries -/

/-- The entries are the first `pal_n` of `pal` (10_state.md R37). -/
theorem entries_getElem?_eq_some_iff {q : PqUnit} {j : Fin 256} {e : Colour} :
    q.entries[j.val]? = some e ↔ j.val < q.palN.toNat ∧ q.pal[j.val] = e := by
  simp [PqUnit.entries, List.getElem?_take]

theorem length_entries {q : PqUnit} (h : q.palN.toNat ≤ 256) : q.entries.length = q.palN.toNat := by
  simpa [PqUnit.entries] using h

theorem entries_ne_nil {q : PqUnit} (h : 1 ≤ q.palN.toNat) : q.entries ≠ [] := fun hnil => by
  have hhead := (entries_getElem?_eq_some_iff (j := 0)).2 ⟨h, rfl⟩
  simp [hnil] at hhead

/-! ### The nearest entry -/

/-- `Q_MAP` answers a nearest entry, the first of them (40_palette_quantizer.md R112). -/
theorem nearest_spec {q : PqUnit} (h : q.entries ≠ []) (c : Colour) :
    ∃ e, q.entries[q.nearest c]? = some e ∧ (∀ d ∈ q.entries, colourDist c e ≤ colourDist c d) ∧
      ∀ i d, i < q.nearest c → q.entries[i]? = some d → colourDist c e < colourDist c d := by
  obtain ⟨e, es, hes⟩ := List.exists_cons_of_ne_nil h
  have he : q.pal[0] = e := by
    have hhead : q.entries[(0 : Fin 256).val]? = some e := by simp [hes]
    exact (entries_getElem?_eq_some_iff.1 hhead).2
  rw [PqUnit.nearest, hes, he, List.drop_one, List.tail_cons]
  obtain ⟨hr, hmin⟩ | ⟨j, hj, hr, hlt, hmin, hfirst⟩ := nearestFrom_spec c 0 (colourDist c e) 1 es
  · rw [hr]
    exact ⟨e, rfl, by simpa using hmin, nofun⟩
  · rw [hr, Nat.add_comm]
    refine ⟨es[j], by simp, by simpa using ⟨hlt.le, hmin⟩, fun i d hi hd => ?_⟩
    cases i with
    | zero => simpa using (by simpa using hd : e = d) ▸ hlt
    | succ i =>
      have hij : i < j := by omega
      obtain ⟨_, rfl⟩ := List.getElem?_eq_some_iff.1 (List.getElem?_cons_succ ▸ hd)
      exact hfirst i hij

/-- The index that `Q_MAP` answers is that of a real entry. -/
theorem nearest_lt_palN {q : PqUnit} (h : 1 ≤ q.palN.toNat) (c : Colour) : q.nearest c < q.palN.toNat := by
  obtain ⟨e, he, -⟩ := nearest_spec (entries_ne_nil h) c
  exact (entries_getElem?_eq_some_iff (j := ⟨q.nearest c, nearest_lt q c⟩).1 he).1

/-- Settles O38: the entry of `nearest_spec`, read in `pal`. -/
theorem qMapAnswersTheLowestNearestEntry : Obligations.QMapAnswersTheLowestNearestEntry := by
  unfold Obligations.QMapAnswersTheLowestNearestEntry
  refine fun s c hs => ⟨or_setWidth_toNat 0x70000000 c, fun hbuilt => exec_qMap_unbuilt hs hbuilt c, fun hbuilt hone _ => ?_⟩
  obtain ⟨e, he, hmin, hfirst⟩ := nearest_spec (entries_ne_nil hone) c
  have hentry {i : Fin 256} (hi : i.val < s.pq.palN.toNat) : s.pq.entries[i.val]? = some s.pq.pal[i.val] :=
    entries_getElem?_eq_some_iff.2 ⟨hi, rfl⟩
  obtain ⟨j, hj⟩ : ∃ j : Fin 256, j.val = s.pq.nearest c := ⟨⟨_, nearest_lt s.pq c⟩, rfl⟩
  rw [← hj] at he hfirst
  obtain ⟨hlt, rfl⟩ := entries_getElem?_eq_some_iff.1 he
  exact ⟨j, hlt, hj ▸ exec_qMap_built hs hbuilt c, fun i hi => hmin _ (List.mem_of_getElem? (hentry hi)),
    fun i hi => hfirst i.val _ hi (hentry (hi.trans hlt))⟩

/-! ### The entry of an index -/

/-- Settles O39: the word `Q_RDPAL` answers is `PqUnit.entryWord`, which decides between the entry and black. -/
theorem qRdpalReadsAnEntryOrBlack : Obligations.QRdpalReadsAnEntryOrBlack := by
  unfold Obligations.QRdpalReadsAnEntryOrBlack
  refine fun s i j hs hij => ⟨or_setWidth_toNat 0x80000000 i, fun hbuilt => ⟨s.pq.entryWord i, exec_qRdpal_built hs hbuilt i,
    fun hi => ?_, fun hi => if_neg hi.not_gt⟩, fun hbuilt => exec_qRdpal_unbuilt hs hbuilt i⟩
  rw [PqUnit.entryWord, if_pos hi, BitVec.toNat_setWidth_of_le (by omega)]
  simp only [hij]

/-! ### Built palettes -/

/-- `Q_MAP` on a palette just kept (40_palette_quantizer.md R112). -/
theorem exec_qMap_keepPalette {s : State} (hs : s.running) (u : PqUnit) (c : Colour) :
    exec (.qMap c) (keepPalette u s) =
      .next { keepPalette u s with rsp := (keepPalette u s).rsp ++ [Word.ofNat (u.finishBuild.nearest c)] } :=
  exec_qMap_built (s := keepPalette u s) hs rfl c

/-- A kept palette with a legal count and distinct entries meets R105. -/
theorem keepPalette_invariants {s : State} (hs : s.running) {u : PqUnit} (hone : 1 ≤ u.palN.toNat) (hle : u.palN.toNat ≤ 256)
    (hnodup : u.entries.Nodup) :
    let t := keepPalette u s
    1 ≤ t.pq.palN.toNat ∧ t.pq.palN.toNat ≤ 256 ∧ t.pq.palP.toNat = roundP t.pq.palN.toNat ∧
      (∃ j, 1 ≤ j ∧ j ≤ 8 ∧ t.pq.palP.toNat = 2 ^ j) ∧ t.pq.palN.toNat ≤ t.pq.palP.toNat ∧
      (∀ i j : Fin 256, i.val < t.pq.palN.toNat → j.val < t.pq.palN.toNat → t.pq.pal[i.val] = t.pq.pal[j.val] → i = j) ∧
      ∀ c : Colour, ∃ x : Nat, x < t.pq.palN.toNat ∧
        exec (.qMap c) t = .next { t with rsp := t.rsp ++ [Word.ofNat x] } := by
  obtain ⟨j, hj1, hj8, heq, hsize, -⟩ := roundP_eq_two_pow u.palN.toNat
  have hpalP : u.finishBuild.palP.toNat = 2 ^ j := (finishBuild_palP_toNat u).trans heq
  refine ⟨hone, hle, finishBuild_palP_toNat u, ⟨j, hj1, hj8, hpalP⟩, ?_, fun i k hi hk hpal => ?_,
    fun c => ⟨_, nearest_lt_palN (q := u.finishBuild) hone c, exec_qMap_keepPalette hs u c⟩⟩
  · rw [keepPalette_pq, hpalP]
    exact hsize hle
  · have hentry {m : Fin 256} (hm : m.val < u.palN.toNat) : u.entries[m.val]? = some u.pal[m.val] :=
      entries_getElem?_eq_some_iff.2 ⟨hm, rfl⟩
    have hsame : u.entries[i.val]? = u.entries[k.val]? := by rw [hentry hi, hentry hk]; exact congrArg some hpal
    exact Fin.ext ((List.getElem?_inj ((length_entries hle).symm ▸ hi) hnodup).1 hsame)

/-- The representatives of the occupied buckets are distinct, as each lies in its bucket (40_palette_quantizer.md R110). -/
theorem PqInv.reps_nodup {q : PqUnit} (h : PqInv q) : (q.buckets.map q.repAt).Nodup := by
  refine List.Nodup.map_on (fun b hb d hd hrep => ?_) h.bucketsOnce
  rw [← h.repInBucket b ((h.seenListed b).2 hb), hrep, h.repInBucket d ((h.seenListed d).2 hd)]

/-- Settles O37: both palettes have a legal count and distinct entries by the invariant, and `keepPalette_invariants` does the
rest. -/
theorem builtPaletteMeetsItsInvariants : Obligations.BuiltPaletteMeetsItsInvariants := by
  unfold Obligations.BuiltPaletteMeetsItsInvariants
  intro s q hinv hphase hany hq
  have hs := hinv.notHalted
  have hpq := hinv.pqInv
  cases hovf : s.pq.ovf with
  | false =>
    refine ⟨_, exec_qBuild_exact hs hphase hany hovf q, keepPalette_invariants hs ?_ ?_ ?_⟩
    · rw [exactPalette_palN]
      exact hpq.anyListed.1 hany
    · rw [exactPalette_palN]
      exact hpq.exnRange
    · rw [entries_exactPalette]
      exact hpq.coloursOnce
  | true =>
    obtain rfl : q = true := hq.resolve_left (by simp [hovf])
    refine ⟨_, exec_qBuild_quantized hs hphase hany hovf, keepPalette_invariants hs ?_ ?_ ?_⟩
    · rw [quantizedPalette_palN]
      exact hpq.anyBucket hany
    · rw [quantizedPalette_palN]
      exact hpq.bknRange
    · rw [entries_quantizedPalette]
      exact hpq.reps_nodup

end Sys2Proof.Machine
end

section
/-! PROOFS. The palette of a whole pixel sequence (40_palette_quantizer.md R109, R110). `Collected` says what the unit holds after a
`Q_BEGIN` and any pixels, in terms of the first occurrences in the sequence; both palettes are read off it. -/

namespace Sys2Proof.Machine

/-! ### First occurrences -/

section FirstOccurrences
variable {β : Type} [DecidableEq β] (f : Colour → β)

@[simp] theorem firstOccurrences_nil : firstOccurrences f [] = [] := rfl

/-- One more element is a first occurrence exactly when its class is new. -/
theorem firstOccurrences_concat (cs : List Colour) (c : Colour) :
    firstOccurrences f (cs ++ [c]) =
      if f c ∈ (firstOccurrences f cs).map f then firstOccurrences f cs else firstOccurrences f cs ++ [c] := by
  have hany : (firstOccurrences f cs).any (fun d => decide (f d = f c)) = true ↔ f c ∈ (firstOccurrences f cs).map f := by
    simp
  exact (List.foldl_concat ..).trans (if_congr hany rfl rfl)

/-- The first occurrences are of different classes. -/
theorem firstOccurrences_nodup (cs : List Colour) : ((firstOccurrences f cs).map f).Nodup := by
  induction cs using List.reverseRecOn with
  | nil => exact List.nodup_nil
  | append_singleton cs c ih =>
    rw [firstOccurrences_concat]
    split
    · exact ih
    · next hnew => simpa using List.nodup_append.2 ⟨ih, by simp, by simpa using hnew⟩

/-- Every class of the sequence has a first occurrence. -/
theorem mem_firstOccurrences {cs : List Colour} {c : Colour} (h : c ∈ cs) : f c ∈ (firstOccurrences f cs).map f := by
  induction cs using List.reverseRecOn with
  | nil => simp at h
  | append_singleton cs d ih =>
    rw [firstOccurrences_concat]
    split
    · next hold =>
      obtain hc | rfl := by simpa using h
      exacts [ih hc, hold]
    · obtain hc | rfl := by simpa using h
      · rw [List.map_append]
        exact List.mem_append_left _ (ih hc)
      · simp

end FirstOccurrences

/-- There are at most 256 occupied buckets (40_palette_quantizer.md R101). -/
theorem length_firstOccurrences_bucket (cs : List Colour) : (firstOccurrences bucket cs).length ≤ 256 := by
  simpa using ((firstOccurrences_nodup bucket cs).map (f := BitVec.toFin) fun _ _ => BitVec.toFin_inj.1).length_le_card

/-! ### A collection -/

/-- What the unit holds when it has collected the pixels `cs` (40_palette_quantizer.md R107). -/
structure Collected (cs : List Colour) (q : PqUnit) : Prop where
  st      : q.st = .collect
  any     : q.any = true ↔ cs ≠ []
  exn     : q.exn.toNat = min 256 (firstOccurrences id cs).length
  ovf     : q.ovf = true ↔ 256 < (firstOccurrences id cs).length
  colours : q.colours = (firstOccurrences id cs).take 256
  bkn     : q.bkn.toNat = (firstOccurrences bucket cs).length
  buckets : q.buckets = (firstOccurrences bucket cs).map bucket
  seen    : ∀ b, q.seenAt b = true ↔ b ∈ (firstOccurrences bucket cs).map bucket
  reps    : ∀ d ∈ firstOccurrences bucket cs, q.repAt (bucket d) = d

/-- `Q_BEGIN` has collected nothing (40_palette_quantizer.md R106). -/
theorem collected_begun (q : PqUnit) : Collected [] q.begun := by
  constructor <;> simp

/-- The part of `Collected` about the exact-colour list. -/
theorem Collected.colour_step {cs : List Colour} {q : PqUnit} (h : Collected cs q) (c : Colour) :
    (q.collectColour c).exn.toNat = min 256 (firstOccurrences id (cs ++ [c])).length ∧
    ((q.collectColour c).ovf = true ↔ 256 < (firstOccurrences id (cs ++ [c])).length) ∧
    (q.collectColour c).colours = (firstOccurrences id (cs ++ [c])).take 256 := by
  have hexn := h.exn
  have hovf := h.ovf
  have hcolours := h.colours
  rw [firstOccurrences_concat, List.map_id, id]
  by_cases hmem : c ∈ q.colours
  · have hold : c ∈ firstOccurrences id cs := List.mem_of_mem_take (hcolours ▸ hmem)
    rw [collectColour_of_mem hmem, if_pos hold]
    exact ⟨hexn, hovf, hcolours⟩
  · by_cases hroom : q.exn.toNat < 256
    · have hall : (firstOccurrences id cs).take 256 = firstOccurrences id cs := List.take_of_length_le (by omega)
      have hnew : c ∉ firstOccurrences id cs := by rwa [hcolours, hall] at hmem
      have hcolours' := colours_collectColour c q
      rw [if_neg hmem, if_pos hroom, hcolours, hall] at hcolours'
      rw [hcolours', if_neg hnew, List.take_of_length_le (by simp; omega), List.length_append, List.length_singleton,
        collectColour_of_room hmem hroom]
      exact ⟨by rw [succ_toNat_9 hroom]; omega, hovf.trans (by omega), rfl⟩
    · have hmany : 256 < (firstOccurrences id cs).length ∨ c ∉ firstOccurrences id cs := by
        by_contra hcon
        rw [not_or, not_lt, not_not] at hcon
        rw [hcolours, List.take_of_length_le hcon.1] at hmem
        exact hmem hcon.2
      have hcolours' := colours_collectColour c q
      rw [if_neg hmem, if_neg hroom] at hcolours'
      rw [hcolours', collectColour_of_full hmem hroom]
      split
      · next hold => exact ⟨hexn, by simpa using hmany.resolve_right (not_not_intro hold), hcolours⟩
      · rw [List.length_append, List.length_singleton, List.take_append_of_le_length (by omega)]
        exact ⟨by simp only; omega, by simp; omega, hcolours⟩

/-- The part of `Collected` about the bucket table. -/
theorem Collected.bucket_step {cs : List Colour} {q : PqUnit} (h : Collected cs q) (c : Colour) :
    (q.collectBucket c).bkn.toNat = (firstOccurrences bucket (cs ++ [c])).length ∧
    (q.collectBucket c).buckets = (firstOccurrences bucket (cs ++ [c])).map bucket ∧
    (∀ b, (q.collectBucket c).seenAt b = true ↔ b ∈ (firstOccurrences bucket (cs ++ [c])).map bucket) ∧
    ∀ d ∈ firstOccurrences bucket (cs ++ [c]), (q.collectBucket c).repAt (bucket d) = d := by
  have hlen := length_firstOccurrences_bucket (cs ++ [c])
  rw [firstOccurrences_concat] at *
  by_cases hseen : q.seenAt (bucket c) = true
  · rw [collectBucket_of_seen hseen, if_pos ((h.seen _).1 hseen)]
    exact ⟨h.bkn, h.buckets, h.seen, h.reps⟩
  · rw [if_neg (mt (h.seen _).2 hseen)] at *
    have hroom : q.bkn.toNat < 256 := by
      rw [h.bkn]
      simpa using hlen
    have hnew : ∀ d ∈ firstOccurrences bucket cs, bucket d ≠ bucket c := fun d hd heq =>
      hseen ((h.seen _).2 (List.mem_map.2 ⟨d, hd, heq⟩))
    refine ⟨?_, ?_, fun b => ?_, fun d hd => ?_⟩
    · rw [collectBucket_of_new hseen, List.length_append, ← h.bkn]
      exact succ_toNat_9 hroom
    · rw [buckets_collectBucket c hroom, if_neg hseen, h.buckets, List.map_append, List.map_singleton]
    · rw [seenAt_collectBucket, List.map_append, List.mem_append, ← h.seen]
      by_cases hb : b = bucket c
      · simp [hb]
      · simp [hb]
    · rw [repAt_collectBucket]
      obtain hd | rfl := by simpa using hd
      · rw [if_neg fun heq => hnew d hd heq.1, h.reps d hd]
      · simp [hseen]

/-- One more pixel (40_palette_quantizer.md R107). -/
theorem Collected.step {cs : List Colour} {q : PqUnit} (h : Collected cs q) (c : Colour) :
    Collected (cs ++ [c]) (q.collected c) := by
  obtain ⟨hexn, hovf, hcolours⟩ := h.colour_step c
  obtain ⟨hbkn, hbuckets, hseen, hreps⟩ := h.bucket_step c
  rw [collected_eq]
  exact ⟨h.st, by simp, hexn, hovf, hcolours, hbkn, hbuckets, hseen, hreps⟩

/-- The unit after a `Q_BEGIN` and the pixels `cs` (40_palette_quantizer.md R106, R107). -/
theorem collected_foldl (q : PqUnit) (cs : List Colour) : Collected cs (cs.foldl (fun u c => u.collected c) q.begun) := by
  induction cs using List.reverseRecOn with
  | nil => exact collected_begun q
  | append_singleton cs c ih =>
    rw [List.foldl_concat]
    exact ih.step c

/-! ### The run -/

/-- A run of one command is that command. -/
theorem runInstrs_singleton (i : Instr) (s : State) : runInstrs [i] s = exec i s := by
  obtain ⟨t, ht⟩ := exec_next i s
  rw [runInstrs_cons_of_next ht, ht, runInstrs]

/-- The pixels of a run are collected one after the other, and only the PQ unit changes. -/
theorem runInstrs_qPixels (cs : List Colour) (is : List Instr) {s : State} (hs : s.running) (hphase : s.pq.st = .collect) :
    runInstrs (cs.map Instr.qPixel ++ is) s = runInstrs is { s with pq := cs.foldl (fun u c => u.collected c) s.pq } := by
  induction cs generalizing s with
  | nil => rfl
  | cons c cs ih =>
    have hphase' : (s.pq.collected c).st = .collect := by
      rw [collected_eq]
      exact hphase
    exact (runInstrs_cons_of_next (exec_qPixel_collect hs hphase c) _).trans (ih (s := { s with pq := s.pq.collected c }) hs hphase')

/-- The commands of a palette come to a `Q_BUILD` of the collected pixels. -/
theorem runInstrs_paletteInstrs {s : State} (hs : s.running) (cs : List Colour) (q : Bool) :
    ∃ u, Collected cs u ∧ runInstrs (paletteInstrs cs q) s = exec (.qBuild q) { s with pq := u } := by
  refine ⟨_, collected_foldl s.pq cs, ?_⟩
  calc runInstrs (paletteInstrs cs q) s = runInstrs (cs.map Instr.qPixel ++ [Instr.qBuild q]) (qBegin s) :=
        runInstrs_cons_of_next (exec_qBegin_running hs) _
    _ = runInstrs [Instr.qBuild q] { s with pq := cs.foldl (fun u c => u.collected c) s.pq.begun } :=
        runInstrs_qPixels cs _ (s := qBegin s) hs rfl
    _ = exec (.qBuild q) { s with pq := cs.foldl (fun u c => u.collected c) s.pq.begun } := runInstrs_singleton _ _

/-! ### The two palettes -/

/-- The nearest entry to an entry is itself (40_palette_quantizer.md R112). -/
theorem nearest_of_mem {q : PqUnit} {c : Colour} (h : c ∈ q.entries) : q.entries[q.nearest c]? = some c := by
  obtain ⟨e, he, hmin, -⟩ := nearest_spec (List.ne_nil_of_mem h) c
  have hself : colourDist c c = 0 := colourDist_eq_zero_iff.2 rfl
  obtain rfl : c = e := colourDist_eq_zero_iff.1 (Nat.le_zero.1 (hself ▸ hmin c h))
  exact he

/-- The nearest entry to a colour of an entry's bucket is within the quantization error bound (40_palette_quantizer.md R110). -/
theorem nearest_of_bucket {q : PqUnit} {c : Colour} (h : bucket c ∈ q.entries.map bucket) :
    ∃ e, q.entries[q.nearest c]? = some e ∧ colourDist c e ≤ 5891 := by
  obtain ⟨d, hd, hbucket⟩ := List.mem_map.1 h
  obtain ⟨e, he, hmin, -⟩ := nearest_spec (List.ne_nil_of_mem hd) c
  exact ⟨e, he, (hmin d hd).trans (colourDist_le_of_bucket_eq hbucket.symm)⟩

/-- The representatives of the occupied buckets are their first colours (40_palette_quantizer.md R110). -/
theorem Collected.map_repAt {cs : List Colour} {q : PqUnit} (h : Collected cs q) :
    q.buckets.map q.repAt = firstOccurrences bucket cs := by
  rw [h.buckets, List.map_map]
  exact (List.map_congr_left h.reps).trans (List.map_id _)

/-- Settles O40: with at most 256 colours nothing overflowed, so the collected colours are the palette (`entries_exactPalette`), and a
collected colour is its own nearest entry. -/
theorem exactPaletteOfAPixelSequence : Obligations.ExactPaletteOfAPixelSequence := by
  unfold Obligations.ExactPaletteOfAPixelSequence
  intro s cs q hs hne hfew
  obtain ⟨u, hu, hrun⟩ := runInstrs_paletteInstrs hs cs q
  have hovf : u.ovf = false := by simpa using mt hu.ovf.1 hfew.not_gt
  have hentries : u.exactPalette.entries = firstOccurrences id cs := by
    rw [entries_exactPalette, hu.colours, List.take_of_length_le hfew]
  refine ⟨_, hrun.trans (exec_qBuild_exact (s := { s with pq := u }) hs hu.st (hu.any.2 hne) hovf q), rfl,
    exactPalette_isExact u, hentries, ?_, rfl, rfl, rfl, fun c hc => ⟨_, ?_, exec_qMap_keepPalette (s := { s with pq := u }) hs _ c⟩⟩
  · rw [keepPalette_pq, finishBuild_palN, exactPalette_palN, hu.exn, Nat.min_eq_right hfew]
  · refine nearest_of_mem (q := u.exactPalette.finishBuild) ?_
    rw [finishBuild_entries, hentries]
    simpa using mem_firstOccurrences id hc

/-- Settles O41: with more than 256 colours the list overflowed, so the first colours of the buckets are the palette
(`entries_quantizedPalette`), and a collected colour has the one of its bucket within the bound. -/
theorem quantizedPaletteOfAPixelSequence : Obligations.QuantizedPaletteOfAPixelSequence := by
  unfold Obligations.QuantizedPaletteOfAPixelSequence
  intro s cs hs hmany
  obtain ⟨u, hu, hrun⟩ := runInstrs_paletteInstrs hs cs true
  have hne : cs ≠ [] := by
    rintro rfl
    simp at hmany
  have hentries : u.quantizedPalette.entries = firstOccurrences bucket cs := by
    rw [entries_quantizedPalette, hu.map_repAt]
  have hnear (c : Colour) (hc : c ∈ cs) := nearest_of_bucket (q := u.quantizedPalette.finishBuild)
    (by rw [finishBuild_entries, hentries]; exact mem_firstOccurrences bucket hc)
  refine ⟨_, hrun.trans (exec_qBuild_quantized (s := { s with pq := u }) hs hu.st (hu.any.2 hne) (hu.ovf.2 hmany)), rfl,
    quantizedPalette_isExact u, hentries, ?_, rfl, rfl, rfl, fun c hc => ?_⟩
  · rw [keepPalette_pq, finishBuild_entries, hentries]
    exact (firstOccurrences_nodup bucket cs).of_map
  · obtain ⟨e, he, hdist⟩ := hnear c hc
    exact ⟨_, e, he, hdist, exec_qMap_keepPalette (s := { s with pq := u }) hs _ c⟩

end Sys2Proof.Machine
end

section
/-! PROOFS. The two units share no state apart from the error bits and the halt (40_palette_quantizer.md R116). Each side is a relation
of two states that agree on what the unit owns (`PqAgree`, `LzAgree`), and each operation of the unit keeps its relation. -/

namespace Sys2Proof.Machine

/-! ### Frames -/

/-- An LZ command stays on the LZ side. -/
theorem exec_lzSide {i : Instr} {s t : State} (hi : i.isLz = true) (h : exec i s = .next t) : LzSide s t := by
  cases i <;> cases hi <;> obtain rfl := Host.Outcome.next.inj h
  case lzStart.refl k => exact unlessHalted_of (P := LzSide s) (.refl s) (lzSide_lzStart k s)
  case lzIndex.refl x => exact unlessHalted_of (P := LzSide s) (.refl s) (lzSide_lzIndex x s)
  case lzFinish.refl => exact unlessHalted_of (P := LzSide s) (.refl s) (lzSide_lzFinish s)

/-- A PQ command stays on the PQ side. -/
theorem exec_pqSide {i : Instr} {s t : State} (hi : i.isPq = true) (h : exec i s = .next t) : PqSide s t := by
  obtain ⟨hlz, -⟩ | ⟨rfl, -⟩ | hside := exec_side h
  · cases i <;> cases hi <;> cases hlz
  · cases hi
  · exact hside

/-- What two states have in common after both branches of the halted gate, they have in common after the gate. -/
theorem unlessHalted_related {R : State → State → Prop} {halted go : State → State} {s s' : State}
    (hgate : s.err.internal = s'.err.internal) (hhalted : R (halted s) (halted s')) (hgo : R (go s) (go s')) :
    R (unlessHalted halted go s) (unlessHalted halted go s') := by
  unfold unlessHalted
  rw [hgate]
  split
  · exact hhalted
  · exact hgo

/-! ### What a PQ command depends on -/

/-- Two states with the same PQ unit and the same response stream. -/
structure PqAgree (s s' : State) : Prop where
  pq  : s.pq = s'.pq
  rsp : s.rsp = s'.rsp

section
variable {s s' : State}

theorem PqAgree.respond (h : PqAgree s s') (v : Word) : PqAgree (respond v s) (respond v s') :=
  ⟨h.pq, congrArg (· ++ [v]) h.rsp⟩

theorem PqAgree.respondFailure (h : PqAgree s s') : PqAgree (respondFailure s) (respondFailure s') := h.respond _

theorem PqAgree.refuse (h : PqAgree s s') : PqAgree (Machine.respondFailure (raise .cmd s)) (Machine.respondFailure (raise .cmd s')) :=
  PqAgree.respondFailure ⟨h.pq, h.rsp⟩

theorem PqAgree.qBegin (h : PqAgree s s') : PqAgree (qBegin s) (qBegin s') := ⟨congrArg PqUnit.begun h.pq, h.rsp⟩

theorem PqAgree.qPixel (h : PqAgree s s') (c : Colour) : PqAgree (qPixel c s) (qPixel c s') := by
  unfold Machine.qPixel
  rw [h.pq]
  split
  · exact ⟨rfl, h.rsp⟩
  · exact ⟨h.pq, h.rsp⟩

theorem PqAgree.keepPalette (h : PqAgree s s') (q : PqUnit) : PqAgree (keepPalette q s) (keepPalette q s') :=
  ⟨rfl, congrArg (· ++ [q.finishBuild.buildResponse]) h.rsp⟩

theorem PqAgree.failBuild (h : PqAgree s s') (e : ErrKind) : PqAgree (failBuild e s) (failBuild e s') :=
  PqAgree.respondFailure ⟨congrArg (fun q : PqUnit => { q with st := .idle }) h.pq, h.rsp⟩

theorem PqAgree.qBuild (h : PqAgree s s') (q : Bool) : PqAgree (qBuild q s) (qBuild q s') := by
  unfold Machine.qBuild
  rw [h.pq]
  split
  · split
    · split
      · split
        · exact h.keepPalette _
        · exact h.failBuild _
      · exact h.keepPalette _
    · exact h.failBuild _
  · exact h.refuse

theorem PqAgree.qMap (h : PqAgree s s') (c : Colour) : PqAgree (qMap c s) (qMap c s') := by
  unfold Machine.qMap
  rw [h.pq]
  split
  · exact h.respond _
  · exact h.refuse

theorem PqAgree.qRdpal (h : PqAgree s s') (x : Index) : PqAgree (qRdpal x s) (qRdpal x s') := by
  unfold Machine.qRdpal
  rw [h.pq]
  split
  · exact h.respond _
  · exact h.refuse

end

/-- A PQ command takes states that agree on the PQ side, and on the halt, to states that agree there. -/
theorem exec_pqAgree {i : Instr} {s s' t t' : State} (hi : i.isPq = true) (hgate : s.err.internal = s'.err.internal)
    (h : PqAgree s s') (ht : exec i s = .next t) (ht' : exec i s' = .next t') : PqAgree t t' := by
  cases i <;> cases hi <;> obtain rfl := Host.Outcome.next.inj ht <;> obtain rfl := Host.Outcome.next.inj ht'
  case qBegin.refl => exact unlessHalted_related hgate h h.qBegin
  case qPixel.refl c => exact unlessHalted_related hgate h (h.qPixel c)
  case qBuild.refl q => exact unlessHalted_related hgate h.respondFailure (h.qBuild q)
  case qMap.refl c => exact unlessHalted_related hgate h.respondFailure (h.qMap c)
  case qRdpal.refl x => exact unlessHalted_related hgate h.respondFailure (h.qRdpal x)

/-! ### What an LZ command depends on -/

/-- Two states with the same parameters, the same LZ unit and the same beat stream. -/
structure LzAgree (s s' : State) : Prop where
  params : s.params = s'.params
  lz     : s.lz = s'.lz
  lzo    : s.lzo = s'.lzo

/-- Two outcomes of a primitive that go on alike or end alike, in states that agree on the LZ side. -/
inductive Progress.Agree : Progress → Progress → Prop where
  | going {s s' : State} (h : LzAgree s s') : Progress.Agree (.going s) (.going s')
  | ended {s s' : State} (h : LzAgree s s') : Progress.Agree (.ended s) (.ended s')

theorem Progress.Agree.state {p p' : Progress} (h : p.Agree p') : LzAgree p.state p'.state := by
  cases h with
  | going h => exact h
  | ended h => exact h

theorem Progress.Agree.andThen {p p' : Progress} {f f' : State → Progress} (h : p.Agree p')
    (hf : ∀ u u', LzAgree u u' → (f u).Agree (f' u')) : (p.andThen f).Agree (p'.andThen f') := by
  cases h with
  | going h => exact hf _ _ h
  | ended h => exact .ended h

section
variable {s s' : State}

/-- The same update of the LZ unit keeps the agreement. -/
theorem LzAgree.update (h : LzAgree s s') (f : Params → LzUnit → LzUnit) :
    LzAgree { s with lz := f s.params s.lz } { s' with lz := f s'.params s'.lz } :=
  ⟨h.params, by rw [h.params, h.lz], h.lzo⟩

theorem LzAgree.raise (h : LzAgree s s') (e : ErrKind) : LzAgree (raise e s) (raise e s') := ⟨h.params, h.lz, h.lzo⟩

theorem LzAgree.outBeat (h : LzAgree s s') (b : Beat) : LzAgree (outBeat b s) (outBeat b s') :=
  ⟨h.params, congrArg (fun l : LzUnit => { l with bytes := l.bytes + 1 }) h.lz, congrArg (· ++ [b]) h.lzo⟩

theorem LzAgree.outBytes (h : LzAgree s s') (bs : List Byte) : LzAgree (outBytes bs s) (outBytes bs s') := by
  induction bs generalizing s s' with
  | nil => exact h
  | cons b bs ih => exact ih (h.outBeat (dataBeat b))

theorem LzAgree.abortFrame (h : LzAgree s s') : LzAgree (abortFrame s) (abortFrame s') :=
  (h.outBeat abortBeat).update fun _ l => { l with act := false, pv := false, acc := 0, nb := 0, bl := 0 }

theorem LzAgree.sendBlock (h : LzAgree s s') : LzAgree (sendBlock s) (sendBlock s') := by
  unfold Machine.sendBlock
  rw [h.lz]
  exact (h.outBytes _).update fun _ l => { l with bl := 0 }

theorem LzAgree.internalError (h : LzAgree s s') : (internalError s).Agree (internalError s') := by
  refine .ended ?_
  rw [raise_lz, raise_lz, h.lz]
  split
  · exact (h.raise .internal).abortFrame
  · exact h.raise .internal

theorem LzAgree.sendBlock_ite (h : LzAgree s s') (n : Nat) :
    LzAgree (if s.lz.bl.toNat = n then Machine.sendBlock s else s) (if s'.lz.bl.toNat = n then Machine.sendBlock s' else s') := by
  rw [h.lz]
  split
  · exact h.sendBlock
  · exact h

theorem LzAgree.pushByte (h : LzAgree s s') (b : Byte) : (pushByte b s).Agree (pushByte b s') := by
  by_cases hroom : s.lz.bl.toNat < Config.maxBlock
  · have hroom' : s'.lz.bl.toNat < Config.maxBlock := h.lz ▸ hroom
    have hstored : LzAgree { s with lz := { s.lz with blk := s.lz.blk.set s.lz.bl.toNat b hroom, bl := s.lz.bl + 1 } }
        { s' with lz := { s'.lz with blk := s'.lz.blk.set s'.lz.bl.toNat b hroom', bl := s'.lz.bl + 1 } } :=
      ⟨h.params, by simp only [h.lz], h.lzo⟩
    rw [Machine.pushByte, Machine.pushByte, dif_pos hroom, dif_pos hroom']
    exact .going (hstored.sendBlock_ite Config.maxBlock)
  · have hroom' : ¬s'.lz.bl.toNat < Config.maxBlock := h.lz ▸ hroom
    rw [Machine.pushByte, Machine.pushByte, dif_neg hroom, dif_neg hroom']
    exact h.internalError

theorem LzAgree.shiftByte (h : LzAgree s s') : LzAgree (shiftByte s) (shiftByte s') :=
  h.update fun _ l => { l with acc := l.acc >>> 8, nb := l.nb - 8 }

theorem LzAgree.drainBytes (h : LzAgree s s') (fuel : Nat) : (drainBytes fuel s).Agree (drainBytes fuel s') := by
  induction fuel generalizing s s' with
  | zero => exact .going h
  | succ fuel ih =>
    unfold Machine.drainBytes
    rw [h.lz]
    split
    · exact (h.pushByte _).andThen fun _ _ hu => ih hu.shiftByte
    · exact .going h

theorem LzAgree.emit (h : LzAgree s s') (c w : Nat) : (emit c w s).Agree (emit c w s') := by
  unfold Machine.emit
  split
  · exact h.internalError
  · exact LzAgree.drainBytes (h.update fun _ l => { l with
      acc := l.acc ||| BitVec.ofNat 19 (c <<< l.nb.toNat), nb := l.nb + BitVec.ofNat 5 w }) 3

theorem LzAgree.widthStep (h : LzAgree s s') : LzAgree (widthStep s) (widthStep s') := by
  unfold Machine.widthStep
  rw [h.lz]
  split
  · exact ⟨h.params, rfl, h.lzo⟩
  · exact h

theorem LzAgree.resetTable (h : LzAgree s s') : LzAgree (resetTable s) (resetTable s') :=
  h.update fun _ l => { l with dict := [], n := BitVec.ofNat 13 (firstFree l.r.toNat), w := l.r + 1 }

theorem LzAgree.addEntry (h : LzAgree s s') (p : Code) (x : Index) : LzAgree (addEntry p x s) (addEntry p x s') :=
  h.update fun _ l => { l with dict := dictInsert { pfx := p, idx := x, code := l.n.setWidth 12 } l.dict, n := l.n + 1 }

theorem LzAgree.insertPair (h : LzAgree s s') (p : Code) (x : Index) : (insertPair p x s).Agree (insertPair p x s') := by
  unfold Machine.insertPair
  simp only
  rw [h.lz, (h.addEntry p x).lz]
  split
  · exact h.internalError
  · split
    · exact ((h.addEntry p x).emit _ _).andThen fun _ _ hu => .going hu.resetTable
    · exact .going (h.addEntry p x)

theorem LzAgree.flushBits (h : LzAgree s s') : (flushBits s).Agree (flushBits s') := by
  unfold Machine.flushBits
  rw [h.lz]
  split
  · exact .going h
  · exact (h.pushByte _).andThen fun _ _ hu => .going (hu.update fun _ l => { l with acc := 0, nb := 0 })

theorem LzAgree.flushBlock (h : LzAgree s s') : LzAgree (flushBlock s) (flushBlock s') := by
  unfold Machine.flushBlock
  rw [h.lz]
  split
  · exact h
  · exact h.sendBlock

theorem LzAgree.finalFlush (h : LzAgree s s') : (finalFlush s).Agree (finalFlush s') :=
  h.flushBits.andThen fun _ _ hu => .going (hu.flushBlock.outBeat _)

theorem LzAgree.openFrame (h : LzAgree s s') (k : BitVec 4) : LzAgree (openFrame k s) (openFrame k s') :=
  h.update fun p l => { l with
    act := true, k := k, r := BitVec.ofNat 4 (rootWidth p.minRoot k.toNat), w := BitVec.ofNat 4 (rootWidth p.minRoot k.toNat + 1),
    n := BitVec.ofNat 13 (firstFree (rootWidth p.minRoot k.toNat)), dict := [], pv := false, pfx := 0, acc := 0, nb := 0, bl := 0,
    count := 0, bytes := 0 }

theorem LzAgree.sendHeader (h : LzAgree s s') : (sendHeader s).Agree (sendHeader s') := by
  unfold Machine.sendHeader
  rw [h.lz]
  exact (h.outBeat _).emit _ _

theorem LzAgree.setPrefix (h : LzAgree s s') (p : Code) : LzAgree (setPrefix p s) (setPrefix p s') :=
  h.update fun _ l => { l with pfx := p }

theorem LzAgree.emitPrefix (h : LzAgree s s') (x : Index) : (emitPrefix x s).Agree (emitPrefix x s') := by
  unfold Machine.emitPrefix
  rw [h.lz]
  exact (h.emit _ _).andThen fun _ _ hu => (hu.widthStep.insertPair _ x).andThen fun _ _ hv => .going (hv.setPrefix _)

theorem LzAgree.countIndex (h : LzAgree s s') : LzAgree (countIndex s) (countIndex s') :=
  h.update fun _ l => { l with count := l.count + 1 }

theorem LzAgree.consumeIndex (h : LzAgree s s') (x : Index) : LzAgree (consumeIndex x s) (consumeIndex x s') := by
  unfold Machine.consumeIndex
  rw [h.lz]
  split
  · split
    · exact h.setPrefix _
    · exact (h.emitPrefix x).state
  · exact h.update fun _ l => { l with pfx := x.setWidth 12, pv := true }

theorem LzAgree.sendTrailer (h : LzAgree s s') : (sendTrailer s).Agree (sendTrailer s') := by
  unfold Machine.sendTrailer
  rw [h.lz]
  refine (h.emit _ _).andThen fun u u' hu => ?_
  simp only
  rw [hu.widthStep.lz]
  exact (hu.widthStep.emit _ _).andThen fun _ _ hv => hv.finalFlush.andThen fun _ _ hx =>
    .going (hx.update fun _ l => { l with act := false, pv := false })

theorem LzAgree.lzStart (h : LzAgree s s') (k : BitVec 4) : LzAgree (lzStart k s) (lzStart k s') := by
  unfold Machine.lzStart
  rw [h.lz]
  split
  · exact h.raise .cmd
  · split
    · exact (h.openFrame k).sendHeader.state
    · exact h.raise .input

theorem LzAgree.lzIndex (h : LzAgree s s') (x : Index) : LzAgree (lzIndex x s) (lzIndex x s') := by
  unfold Machine.lzIndex
  rw [h.lz]
  split
  · split
    · exact (h.raise .input).abortFrame
    · exact h.countIndex.consumeIndex x
  · exact h.raise .cmd

theorem LzAgree.lzFinish (h : LzAgree s s') : LzAgree (lzFinish s) (lzFinish s') := by
  unfold Machine.lzFinish
  rw [h.lz]
  split
  · split
    · exact h.sendTrailer.state
    · exact (h.raise .input).abortFrame
  · exact h.raise .cmd

end

/-- An LZ command takes states that agree on the LZ side, and on the halt, to states that agree there. -/
theorem exec_lzAgree {i : Instr} {s s' t t' : State} (hi : i.isLz = true) (hgate : s.err.internal = s'.err.internal)
    (h : LzAgree s s') (ht : exec i s = .next t) (ht' : exec i s' = .next t') : LzAgree t t' := by
  cases i <;> cases hi <;> obtain rfl := Host.Outcome.next.inj ht <;> obtain rfl := Host.Outcome.next.inj ht'
  case lzStart.refl k => exact unlessHalted_related hgate h (h.lzStart k)
  case lzIndex.refl x => exact unlessHalted_related hgate h (h.lzIndex x)
  case lzFinish.refl => exact unlessHalted_related hgate h h.lzFinish

/-- Settles O53: the frames are the two sides (`exec_pqSide`, `exec_lzSide`), the independence the two agreements. -/
theorem unitsDoNotInterfere : Obligations.UnitsDoNotInterfere := by
  unfold Obligations.UnitsDoNotInterfere
  refine ⟨fun i s t hi ht => ?_, fun i s t hi ht => ?_, fun i s s' t t' hi hgate hpq hrsp ht ht' => ?_,
    fun i s s' t t' hi hgate hparams hlz hlzo ht ht' => ?_⟩
  · rw [(exec_pqSide hi ht).frame]
    exact ⟨rfl, rfl⟩
  · rw [(exec_lzSide hi ht).frame]
    exact ⟨rfl, rfl⟩
  · have h := exec_pqAgree hi hgate ⟨hpq, hrsp⟩ ht ht'
    exact ⟨h.pq, h.rsp⟩
  · have h := exec_lzAgree hi hgate ⟨hparams, hlz, hlzo⟩ ht ht'
    exact ⟨h.lz, h.lzo⟩

end Sys2Proof.Machine
end

section
/-! PROOFS. The ranges of an open frame (41_lzw_encoder.md R150): its root width, the codes it writes and the width after a width
step. -/

namespace Sys2Proof.Machine

/-! ### Root widths, codes and widths -/

/-- The root width of a legal exponent (41_lzw_encoder.md R140). -/
theorem rootWidth_range (m : MinRoot) {k : Nat} (hk : k ≤ 8) : 1 ≤ rootWidth m k ∧ k ≤ rootWidth m k ∧ rootWidth m k ≤ 8 := by
  cases m <;> simp only [rootWidth, MinRoot.toNat] <;> omega

/-- The End code, and so the Clear code below it, fits every width from `r + 1` on (41_lzw_encoder.md R151). -/
theorem endCode_lt {r w : Nat} (hr : 1 ≤ r) (hw : r + 1 ≤ w) : endCode r < 2 ^ w := by
  have hle : 2 ^ (r + 1) ≤ 2 ^ w := Nat.pow_le_pow_right (by decide) hw
  have htwo : 2 ^ 1 ≤ 2 ^ r := Nat.pow_le_pow_right (by decide) hr
  rw [endCode]
  omega

theorem clearCode_lt {r w : Nat} (hw : r + 1 ≤ w) : clearCode r < 2 ^ w := Nat.pow_lt_pow_right (by decide) hw

/-- The first free code of a legal root width. -/
theorem firstFree_le {r : Nat} (hr : r ≤ 8) : firstFree r ≤ 258 := by
  have hle : 2 ^ r ≤ 2 ^ 8 := Nat.pow_le_pow_right (by decide) hr
  rw [firstFree]
  omega

theorem firstFree_le_two_pow {r : Nat} (hr : 1 ≤ r) : firstFree r ≤ 2 ^ (r + 1) := by
  have htwo : 2 ^ 1 ≤ 2 ^ r := Nat.pow_le_pow_right (by decide) hr
  rw [firstFree]
  omega

/-- A width step never narrows, and stays within 12 bits. -/
theorem grownWidth_range {w : Nat} (hw : w ≤ 12) (n : Nat) : w ≤ grownWidth w n ∧ grownWidth w n ≤ 12 := by
  unfold grownWidth
  split
  · next h =>
    obtain ⟨-, hlt⟩ := h
    simp only [Config.maxCodeWidth] at hlt
    omega
  · omega

/-- After a width step the next code fits, and one more (41_lzw_encoder.md R145). -/
theorem succ_le_two_pow_grownWidth {w n : Nat} (hw : w ≤ 12) (hn : n ≤ 2 ^ w) (hmax : n ≤ 4095) : n + 1 ≤ 2 ^ grownWidth w n := by
  unfold grownWidth
  split
  · rw [Nat.pow_succ]
    have := Nat.two_pow_pos w
    omega
  · next h =>
    rw [Config.maxCodeWidth, not_and_or] at h
    obtain h | h := h
    · omega
    · obtain rfl : w = 12 := by omega
      exact Nat.succ_le_succ hmax

@[simp] theorem grownWidth_twelve (n : Nat) : grownWidth 12 n = 12 := if_neg (by simp)

/-- With the last code free the width is 12. -/
theorem eq_twelve_of_last_code {w n : Nat} (hw : w ≤ 12) (hn : n ≤ 2 ^ w) (hlast : n = 4095) : w = 12 := by
  by_contra hne
  have hle : 2 ^ w ≤ 2 ^ 11 := Nat.pow_le_pow_right (by decide) (by omega)
  omega

/-! ### Under the invariant -/

section
variable {p : Params} {l : LzUnit}

theorem LzInv.buffered (h : LzInv p l) : l.Buffered := ⟨h.nbRange, h.accRange, h.blRange⟩

/-- The root width of an open frame lies in 1..8 and is at least the exponent. -/
theorem LzInv.rootRange (h : LzInv p l) (hact : l.act = true) : 1 ≤ l.r.toNat ∧ l.k.toNat ≤ l.r.toNat ∧ l.r.toNat ≤ 8 := by
  rw [h.root hact]
  exact rootWidth_range p.minRoot (h.exponent hact).2

/-- A valid matched code fits the width (41_lzw_encoder.md R151). -/
theorem LzInv.pfx_lt (h : LzInv p l) (hpv : l.pv = true) : l.pfx.toNat < 2 ^ l.w.toNat :=
  lt_of_lt_of_le (h.pfxRange hpv) (h.nextFits (h.pvOpen hpv))

/-- With no frame open, the invariant is about the buffers and the form of the table only. -/
theorem LzInv.of_closed (hact : l.act = false) (hpv : l.pv = false) (hbuf : l.Buffered) (hdict : Dict.wf l.dict) : LzInv p l where
  exponent h := absurd (hact.symm.trans h) (by decide)
  root h := absurd (hact.symm.trans h) (by decide)
  nextRange h := absurd (hact.symm.trans h) (by decide)
  nextFits h := absurd (hact.symm.trans h) (by decide)
  widthRange h := absurd (hact.symm.trans h) (by decide)
  pvOpen h := absurd (hpv.symm.trans h) (by decide)
  pfxRange h := absurd (hpv.symm.trans h) (by decide)
  pfxData h := absurd (hpv.symm.trans h) (by decide)
  nbRange := hbuf.nb
  accRange := hbuf.acc
  blRange := hbuf.bl
  dictWf := hdict
  dictCodes h := absurd (hact.symm.trans h) (by decide)
  dictOnce h := absurd (hact.symm.trans h) (by decide)
  dictSize h := absurd (hact.symm.trans h) (by decide)

end

/-- Settles O58: the codes fit `r + 1` bits, and the width is at least that before and after a width step. -/
theorem emittedCodesFitTheirWidth : Obligations.EmittedCodesFitTheirWidth := by
  unfold Obligations.EmittedCodesFitTheirWidth
  intro s hinv hact
  have hlz := hinv.lzInv
  obtain ⟨hr, -, -⟩ := hlz.rootRange hact
  obtain ⟨hw, hw12⟩ := hlz.widthRange hact
  obtain ⟨hgrow, hgrow12⟩ := grownWidth_range hw12 s.lz.n.toNat
  rw [← widthStep_w] at hgrow hgrow12
  exact ⟨clearCode_lt hw, endCode_lt hr hw, endCode_lt hr (hw.trans hgrow), hlz.pfx_lt, hw12, hgrow12⟩

end Sys2Proof.Machine
end

section
/-! PROOFS. What each LZ command does in a block that is not halted, case by case (41_lzw_encoder.md section 5). -/

namespace Sys2Proof.Machine

variable {s : State}

theorem exec_lzStart_running (hs : s.running) (k : BitVec 4) : exec (.lzStart k) s = .next (lzStart k s) :=
  congrArg Host.Outcome.next (unlessHalted_running hs)

theorem exec_lzIndex_running (hs : s.running) (x : Index) : exec (.lzIndex x) s = .next (lzIndex x s) :=
  congrArg Host.Outcome.next (unlessHalted_running hs)

theorem exec_lzFinish_running (hs : s.running) : exec .lzFinish s = .next (lzFinish s) :=
  congrArg Host.Outcome.next (unlessHalted_running hs)

/-! ### `LZ_START` -/

theorem legalExponent_iff {k : BitVec 4} : legalExponent k = true ↔ 1 ≤ k.toNat ∧ k.toNat ≤ 8 := by
  simp only [legalExponent, Bool.and_eq_true, decide_eq_true_iff]
  omega

theorem lzStart_open (hact : s.lz.act = true) (k : BitVec 4) : lzStart k s = raise .cmd s := if_pos hact

theorem lzStart_illegal (hact : s.lz.act = false) {k : BitVec 4} (hk : ¬(1 ≤ k.toNat ∧ k.toNat ≤ 8)) :
    lzStart k s = raise .input s := by
  rw [lzStart, if_neg (by simp [hact]), if_neg (mt legalExponent_iff.1 hk)]

theorem lzStart_legal (hact : s.lz.act = false) {k : BitVec 4} (hk : 1 ≤ k.toNat ∧ k.toNat ≤ 8) :
    lzStart k s = (sendHeader (openFrame k s)).state := by
  rw [lzStart, if_neg (by simp [hact]), if_pos (legalExponent_iff.2 hk)]

/-! ### `LZ_INDEX` -/

theorem lzIndex_closed (hact : s.lz.act = false) (x : Index) : lzIndex x s = raise .cmd s := if_neg (by simp [hact])

/-- An index outside the palette aborts the frame (41_lzw_encoder.md R161). -/
theorem lzIndex_bad (hact : s.lz.act = true) {x : Index} (hx : 2 ^ s.lz.k.toNat ≤ x.toNat) : lzIndex x s = abortedState s := by
  rw [lzIndex, if_pos hact, if_pos hx]
  rfl

theorem lzIndex_accepted (hact : s.lz.act = true) {x : Index} (hx : x.toNat < 2 ^ s.lz.k.toNat) :
    lzIndex x s = consumeIndex x (countIndex s) := by
  rw [lzIndex, if_pos hact, if_neg hx.not_ge]

theorem lzIndex_first (hact : s.lz.act = true) {x : Index} (hx : x.toNat < 2 ^ s.lz.k.toNat) (hpv : s.lz.pv = false) :
    lzIndex x s = firstIndex x (countIndex s) := by
  rw [lzIndex_accepted hact hx, consumeIndex, if_neg (by simp [hpv])]

theorem lzIndex_match (hact : s.lz.act = true) {x : Index} (hx : x.toNat < 2 ^ s.lz.k.toNat) (hpv : s.lz.pv = true) {c : Code}
    (hfind : dictFind s.lz.pfx x s.lz.dict = some c) : lzIndex x s = setPrefix c (countIndex s) := by
  rw [lzIndex_accepted hact hx, consumeIndex, countIndex_lz_pv, if_pos hpv, countIndex_lz_pfx, countIndex_lz_dict, hfind]

theorem lzIndex_new (hact : s.lz.act = true) {x : Index} (hx : x.toNat < 2 ^ s.lz.k.toNat) (hpv : s.lz.pv = true)
    (hfind : dictFind s.lz.pfx x s.lz.dict = none) : lzIndex x s = (emitPrefix x (countIndex s)).state := by
  rw [lzIndex_accepted hact hx, consumeIndex, countIndex_lz_pv, if_pos hpv, countIndex_lz_pfx, countIndex_lz_dict, hfind]

/-! ### `LZ_FINISH` -/

theorem lzFinish_closed (hact : s.lz.act = false) : lzFinish s = raise .cmd s := if_neg (by simp [hact])

/-- A frame without an index is aborted (41_lzw_encoder.md R163). -/
theorem lzFinish_empty (hact : s.lz.act = true) (hpv : s.lz.pv = false) : lzFinish s = abortedState s := by
  rw [lzFinish, if_pos hact, if_neg (by simp [hpv])]
  rfl

theorem lzFinish_prefix (hact : s.lz.act = true) (hpv : s.lz.pv = true) : lzFinish s = (sendTrailer s).state := by
  rw [lzFinish, if_pos hact, if_pos hpv]

/-- Settles O43: both commands end in `abortedState` (`lzIndex_bad`, `lzFinish_empty`). -/
theorem badIndexAndEmptyFrameAbort : Obligations.BadIndexAndEmptyFrameAbort := by
  unfold Obligations.BadIndexAndEmptyFrameAbort
  exact fun s x hs hact => ⟨fun hx => (exec_lzIndex_running hs x).trans (congrArg _ (lzIndex_bad hact hx)),
    fun hpv => (exec_lzFinish_running hs).trans (congrArg _ (lzFinish_empty hact hpv))⟩

/-- Settles O44: the two cases of an accepted index that write nothing (`lzIndex_first`, `lzIndex_match`). -/
theorem lzIndexExtendsTheMatch : Obligations.LzIndexExtendsTheMatch := by
  unfold Obligations.LzIndexExtendsTheMatch
  exact fun s x hs hact hx => ⟨fun hpv => (exec_lzIndex_running hs x).trans (congrArg _ (lzIndex_first hact hx hpv)),
    fun c hpv hfind => (exec_lzIndex_running hs x).trans (congrArg _ (lzIndex_match hact hx hpv hfind))⟩

end Sys2Proof.Machine
end

section
/-! PROOFS. What the LZ commands of an open frame write (41_lzw_encoder.md sections 2 and 5). `Writes` says that bits were
appended to what the unit has sent or holds back, and that nothing outside the unit changed; each command that writes is given
with the bits it writes and the state it leaves. -/

namespace Sys2Proof.Machine

/-! ### Writing bits -/

/-- From `s` to `t` the LZ unit wrote the bits `bits`, and nothing outside it changed but its beats. -/
structure Writes (s t : State) (bits : List Bool) : Prop where
  ranges : t.lz.Buffered
  frame  : t = { s with lz := t.lz, lzo := t.lzo }
  stream : ∃ chunks, Sent s t chunks ∧ chunks.flatten.flatMap byteBits ++ t.lz.pendingBits = s.lz.pendingBits ++ bits

theorem Appends.writes {s t : State} {bits : List Bool} (h : Appends s t bits) : Writes s t bits := by
  refine ⟨h.ranges, ?_, h.stream⟩
  have hsame := h.same
  unfold SameButBuffers at hsame
  rw [hsame]

/-- An update of the LZ unit that leaves its buffers writes nothing. -/
theorem Writes.of_lz {s : State} (hbuf : s.lz.Buffered) {l : LzUnit}
    (hl : l = { l with acc := s.lz.acc, nb := s.lz.nb, blk := s.lz.blk, bl := s.lz.bl, bytes := s.lz.bytes }) :
    Writes s { s with lz := l } [] := by
  refine ⟨?_, rfl, [], Sent.none _ _ rfl ?_, ?_⟩
  · rw [hl]
    exact ⟨hbuf.nb, hbuf.acc, hbuf.bl⟩
  · simp only
    rw [hl]
  · simp only
    rw [hl, List.append_nil]
    rfl

theorem Writes.refl {s : State} (hbuf : s.lz.Buffered) : Writes s s [] := .of_lz hbuf (l := s.lz) rfl

theorem Writes.trans {s t u : State} {bs cs : List Bool} (h : Writes s t bs) (h' : Writes t u cs) : Writes s u (bs ++ cs) := by
  obtain ⟨ch, hsent, hbits⟩ := h.stream
  obtain ⟨ch', hsent', hbits'⟩ := h'.stream
  refine ⟨h'.ranges, ?_, ch ++ ch', hsent.trans hsent', ?_⟩
  · have hframe := h'.frame
    rwa [h.frame] at hframe
  · rw [List.flatten_append, List.flatMap_append, List.append_assoc, hbits', ← List.append_assoc, hbits, List.append_assoc]

theorem Writes.silent {s t u : State} {bits : List Bool} (h : Writes s t bits) (h' : Writes t u []) : Writes s u bits := by
  simpa using h.trans h'

theorem writes_countIndex {s : State} (h : s.lz.Buffered) : Writes s (countIndex s) [] := .of_lz h rfl

theorem writes_setPrefix {s : State} (h : s.lz.Buffered) (p : Code) : Writes s (setPrefix p s) [] := .of_lz h rfl

theorem writes_firstIndex {s : State} (h : s.lz.Buffered) (x : Index) : Writes s (firstIndex x s) [] := .of_lz h rfl

theorem writes_addEntry {s : State} (h : s.lz.Buffered) (p : Code) (x : Index) : Writes s (addEntry p x s) [] := .of_lz h rfl

theorem writes_resetTable {s : State} (h : s.lz.Buffered) : Writes s (resetTable s) [] := .of_lz h rfl

theorem writes_widthStep {s : State} (h : s.lz.Buffered) : Writes s (widthStep s) [] := by
  rw [widthStep_eq]
  exact .of_lz h rfl

theorem length_flatMap_byteBits (bs : List Byte) : (bs.flatMap byteBits).length = 8 * bs.length := by
  induction bs with
  | nil => rfl
  | cons b bs ih =>
    rw [List.flatMap_cons, List.length_append, length_byteBits, ih, List.length_cons]
    omega

theorem length_pendingBits {l : LzUnit} (h : l.Buffered) : l.pendingBits.length = 8 * l.bl.toNat + l.nb.toNat := by
  have hbl := h.bl
  rw [pendingBits_eq, List.length_append, length_flatMap_byteBits, length_accBits, length_pending]
  omega

theorem length_flatten_full {chunks : List (List Byte)} (h : ∀ c ∈ chunks, c.length = 255) :
    chunks.flatten.length = 255 * chunks.length := by
  rw [List.length_flatten, List.map_congr_left h, List.map_const', List.sum_replicate, smul_eq_mul, Nat.mul_comm]

/-- The bits of two codes complete at most one sub-block (41_lzw_encoder.md R144). -/
theorem Writes.bitsAppended {s t : State} {bits : List Bool} (h : Writes s t bits) (hs : s.lz.Buffered) (hfew : bits.length ≤ 24) :
    bitsAppended s t bits := by
  obtain ⟨chunks, hsent, hbits⟩ := h.stream
  have hlen := congrArg List.length hbits
  rw [List.length_append, List.length_append, length_flatMap_byteBits, length_flatten_full hsent.full, length_pendingBits hs,
    length_pendingBits h.ranges] at hlen
  have hnb := hs.nb
  have hbl := hs.bl
  match chunks, hsent, hbits, hlen with
  | [], hsent, hbits, _ =>
    exact ⟨[], hbits, .inl ⟨rfl, by simpa [chunkBeats] using hsent.lzo, by simpa [chunkBeats] using hsent.bytes⟩⟩
  | [c], hsent, hbits, _ =>
    have hfull : c.length = 255 := hsent.full c (List.mem_singleton_self c)
    have hbeats : chunkBeats [c] = ((255 : Byte) :: c).map dataBeat := by simp [chunkBeats]
    refine ⟨c, by simpa using hbits, .inr ⟨hfull, hsent.lzo.trans (congrArg (s.lzo ++ ·) hbeats), ?_⟩⟩
    simpa [chunkBeats, hfull] using hsent.bytes
  | c :: d :: rest, _, _, hlen =>
    simp only [List.length_cons] at hlen
    omega

/-! ### `LZ_START` -/

/-- The fields of the LZ unit that `LZ_START` sets before it sends anything (41_lzw_encoder.md R160). -/
theorem openFrame_fields (s : State) {k : BitVec 4} (hk : k.toNat ≤ 8) :
    (openFrame k s).lz.r.toNat = rootWidth s.params.minRoot k.toNat ∧
    (openFrame k s).lz.w.toNat = rootWidth s.params.minRoot k.toNat + 1 ∧
    (openFrame k s).lz.n.toNat = firstFree (rootWidth s.params.minRoot k.toNat) := by
  obtain ⟨-, -, hr8⟩ := rootWidth_range s.params.minRoot hk
  have hfree := firstFree_le hr8
  simp only [openFrame_lz_r, openFrame_lz_w, openFrame_lz_n, BitVec.toNat_ofNat]
  omega

/-- The buffers of a newly opened frame are empty. -/
@[simp] theorem openFrame_pendingBits (k : BitVec 4) (s : State) : (openFrame k s).lz.pendingBits = [] := by
  simp [LzUnit.pendingBits, LzUnit.pending]

/-- The state of a newly opened frame behind its minimum-code-size beat (41_lzw_encoder.md R160). -/
def headerSent (k : BitVec 4) (s : State) : State :=
  outBeat (dataBeat (BitVec.ofNat 8 (rootWidth s.params.minRoot k.toNat))) (openFrame k s)

@[simp] theorem headerSent_pendingBits (k : BitVec 4) (s : State) : (headerSent k s).lz.pendingBits = [] :=
  openFrame_pendingBits k s

@[simp] theorem headerSent_lz_bytes (k : BitVec 4) (s : State) : (headerSent k s).lz.bytes = 1 := rfl

@[simp] theorem headerSent_lzo (k : BitVec 4) (s : State) :
    (headerSent k s).lzo = s.lzo ++ [dataBeat (BitVec.ofNat 8 (rootWidth s.params.minRoot k.toNat))] := rfl

/-- A newly opened frame sends the minimum code size and emits the Clear code (41_lzw_encoder.md R160). -/
theorem lzStart_eq {s : State} (hact : s.lz.act = false) {k : BitVec 4} (hk : 1 ≤ k.toNat ∧ k.toNat ≤ 8) :
    lzStart k s = (emit (clearCode (rootWidth s.params.minRoot k.toNat)) (rootWidth s.params.minRoot k.toNat + 1)
      (headerSent k s)).state := by
  obtain ⟨-, -, hr8⟩ := rootWidth_range s.params.minRoot hk.2
  obtain ⟨hroot, hwidth, -⟩ := openFrame_fields s hk.2
  have hbeat : (openFrame k s).lz.r.setWidth 8 = BitVec.ofNat 8 (rootWidth s.params.minRoot k.toNat) := by
    apply BitVec.eq_of_toNat_eq
    rw [BitVec.toNat_setWidth_of_le (by decide), hroot, BitVec.toNat_ofNat]
    omega
  rw [lzStart_legal hact hk, sendHeader, hroot, hwidth, hbeat, headerSent]

/-- A newly opened frame writes the Clear code behind its minimum-code-size beat (41_lzw_encoder.md R160). -/
theorem lzStart_spec {s : State} (hact : s.lz.act = false) {k : BitVec 4} (hk : 1 ≤ k.toNat ∧ k.toNat ≤ 8) :
    Appends (headerSent k s) (lzStart k s)
      (WideCode.bits ⟨clearCode (rootWidth s.params.minRoot k.toNat), rootWidth s.params.minRoot k.toNat + 1⟩) := by
  obtain ⟨-, -, hr8⟩ := rootWidth_range s.params.minRoot hk.2
  obtain ⟨t, hemit, happ⟩ := emit_spec (clearCode (rootWidth s.params.minRoot k.toNat)) (rootWidth s.params.minRoot k.toNat + 1)
    (headerSent k s) ⟨by simp [headerSent], by simp [headerSent], by simp [headerSent]⟩ (clearCode_lt le_rfl) (by omega)
  rw [lzStart_eq hact hk, hemit]
  exact happ

/-- The root width, the width and the next code of a frame just opened (41_lzw_encoder.md R160). -/
theorem lzStart_fields {s : State} (hact : s.lz.act = false) {k : BitVec 4} (hk : 1 ≤ k.toNat ∧ k.toNat ≤ 8) :
    (lzStart k s).lz.r.toNat = rootWidth s.params.minRoot k.toNat ∧
    (lzStart k s).lz.w.toNat = rootWidth s.params.minRoot k.toNat + 1 ∧
    (lzStart k s).lz.n.toNat = firstFree (rootWidth s.params.minRoot k.toNat) := by
  have hsame := (lzStart_spec hact hk).same
  rw [hsame.lz_r, hsame.lz_w, hsame.lz_n]
  exact openFrame_fields s hk.2

/-! ### `LZ_INDEX` -/

/-- From `s` to `t` an index was consumed, which makes the matched code `p`; the frame stays as it was opened (41_lzw_encoder.md
R161). -/
structure Consumed (s : State) (p : Code) (t : State) : Prop where
  act   : t.lz.act = s.lz.act
  k     : t.lz.k = s.lz.k
  r     : t.lz.r = s.lz.r
  pv    : t.lz.pv = true
  pfx   : t.lz.pfx = p
  count : t.lz.count = s.lz.count + 1

section
variable {s : State} (hinv : LzInv s.params s.lz) (hact : s.lz.act = true) {x : Index} (hx : x.toNat < 2 ^ s.lz.k.toNat)
include hinv hact hx

/-- The first index of a frame is the matched code, and nothing is written (41_lzw_encoder.md R161). -/
theorem lzIndex_first_spec (hpv : s.lz.pv = false) :
    Writes s (lzIndex x s) [] ∧ Consumed s (x.setWidth 12) (lzIndex x s) ∧ (lzIndex x s).lz.n = s.lz.n ∧
      (lzIndex x s).lz.w = s.lz.w ∧ (lzIndex x s).lz.dict = s.lz.dict := by
  rw [lzIndex_first hact hx hpv]
  have hcount := writes_countIndex hinv.buffered
  exact ⟨hcount.silent (writes_firstIndex hcount.ranges x), ⟨rfl, rfl, rfl, rfl, rfl, rfl⟩, rfl, rfl, rfl⟩

/-- An index that extends the match: the code found is the new matched code, and nothing is written (41_lzw_encoder.md R161). -/
theorem lzIndex_match_spec (hpv : s.lz.pv = true) {c : Code} (hfind : dictFind s.lz.pfx x s.lz.dict = some c) :
    Writes s (lzIndex x s) [] ∧ Consumed s c (lzIndex x s) ∧ (lzIndex x s).lz.n = s.lz.n ∧ (lzIndex x s).lz.w = s.lz.w ∧
      (lzIndex x s).lz.dict = s.lz.dict := by
  rw [lzIndex_match hact hx hpv hfind]
  have hcount := writes_countIndex hinv.buffered
  exact ⟨hcount.silent (writes_setPrefix hcount.ranges c), ⟨rfl, rfl, rfl, hpv, rfl, rfl⟩, rfl, rfl, rfl⟩

variable (hpv : s.lz.pv = true) (hfind : dictFind s.lz.pfx x s.lz.dict = none)
include hpv hfind

/-- An index that ends the match, with a code left: the matched code is written, the width steps, the pair takes the code
(41_lzw_encoder.md R161, R146). -/
theorem lzIndex_room_spec (hn : s.lz.n.toNat < 4095) :
    Writes s (lzIndex x s) (WideCode.bits ⟨s.lz.pfx.toNat, s.lz.w.toNat⟩) ∧ Consumed s (x.setWidth 12) (lzIndex x s) ∧
      (lzIndex x s).lz.n.toNat = s.lz.n.toNat + 1 ∧ (lzIndex x s).lz.w.toNat = grownWidth s.lz.w.toNat s.lz.n.toNat ∧
      (lzIndex x s).lz.dict = dictInsert { pfx := s.lz.pfx, idx := x, code := s.lz.n.setWidth 12 } s.lz.dict := by
  have hcount := writes_countIndex hinv.buffered
  obtain ⟨u, hemit, happ⟩ := emit_spec s.lz.pfx.toNat s.lz.w.toNat (countIndex s) hcount.ranges (hinv.pfx_lt hpv)
    (hinv.widthRange hact).2
  have hsame := happ.same
  have hun : u.lz.n = s.lz.n := hsame.lz_n
  have heq : lzIndex x s = setPrefix (x.setWidth 12) (addEntry s.lz.pfx x (widthStep u)) := by
    rw [lzIndex_new hact hx hpv hfind, emitPrefix, countIndex_lz_pfx, countIndex_lz_w, hemit, Progress.andThen,
      insertPair_room (by rwa [widthStep_lz_n, hun])]
    rfl
  have hwidth := (hcount.trans happ.writes).silent (writes_widthStep happ.ranges)
  have hentry := hwidth.silent (writes_addEntry hwidth.ranges s.lz.pfx x)
  rw [heq]
  refine ⟨hentry.silent (writes_setPrefix hentry.ranges _), ?_, ?_, ?_, ?_⟩
  · constructor <;> simp [hsame.lz_act, hsame.lz_k, hsame.lz_r, hsame.lz_pv, hsame.lz_count, hpv]
  · rw [setPrefix_lz_n, addEntry_lz_n, widthStep_lz_n, hun, BitVec.toNat_add]
    simp
    omega
  · rw [setPrefix_lz_w, addEntry_lz_w, widthStep_w, hun, hsame.lz_w, countIndex_lz_w]
  · rw [setPrefix_lz_dict, addEntry_lz_dict, widthStep_lz_n, widthStep_lz_dict, hun, hsame.lz_dict, countIndex_lz_dict]

/-- An index that ends the match, with the last code: the matched code and the Clear code are written, and the table is initial
again (41_lzw_encoder.md R161, R146). -/
theorem lzIndex_full_spec (hn : s.lz.n.toNat = 4095) :
    Writes s (lzIndex x s) (WideCode.bits ⟨s.lz.pfx.toNat, s.lz.w.toNat⟩ ++ WideCode.bits ⟨clearCode s.lz.r.toNat, 12⟩) ∧
      Consumed s (x.setWidth 12) (lzIndex x s) ∧ (lzIndex x s).lz.n.toNat = firstFree s.lz.r.toNat ∧
      (lzIndex x s).lz.w.toNat = s.lz.r.toNat + 1 ∧ (lzIndex x s).lz.dict = [] := by
  obtain ⟨-, -, hr8⟩ := hinv.rootRange hact
  obtain ⟨hw, hw12⟩ := hinv.widthRange hact
  have hfree := firstFree_le hr8
  have hcount := writes_countIndex hinv.buffered
  obtain ⟨u, hemit, happ⟩ := emit_spec s.lz.pfx.toNat s.lz.w.toNat (countIndex s) hcount.ranges (hinv.pfx_lt hpv) hw12
  have hsame := happ.same
  have hun : u.lz.n = s.lz.n := hsame.lz_n
  have hur : (widthStep u).lz.r = s.lz.r := by rw [widthStep_lz_r, hsame.lz_r, countIndex_lz_r]
  have huw : (widthStep u).lz.w.toNat = 12 := by
    rw [widthStep_w, hun, hsame.lz_w, countIndex_lz_w, eq_twelve_of_last_code hw12 (hinv.nextFits hact) hn, grownWidth_twelve]
  have hwidth := (hcount.trans happ.writes).silent (writes_widthStep happ.ranges)
  obtain ⟨v, hins, happ'⟩ := insertPair_full (p := s.lz.pfx) (x := x) (by rw [widthStep_lz_n, hun, hn]) hwidth.ranges
    (by rw [hur, huw]; exact clearCode_lt (hw.trans hw12)) huw.le
  rw [hur, huw] at happ'
  have hsame' := happ'.same
  have heq : lzIndex x s = setPrefix (x.setWidth 12) (resetTable v) := by
    rw [lzIndex_new hact hx hpv hfind, emitPrefix, countIndex_lz_pfx, countIndex_lz_w, hemit, Progress.andThen, hins]
    rfl
  have hclear := (hwidth.silent (writes_addEntry hwidth.ranges s.lz.pfx x)).trans happ'.writes
  have hreset := hclear.silent (writes_resetTable hclear.ranges)
  have hvr : v.lz.r = s.lz.r := hsame'.lz_r.trans hur
  rw [heq]
  refine ⟨hreset.silent (writes_setPrefix hreset.ranges _), ?_, ?_, ?_, rfl⟩
  · constructor <;> simp [hsame'.lz_act, hsame'.lz_k, hsame'.lz_r, hsame'.lz_pv, hsame'.lz_count, hsame.lz_act, hsame.lz_k,
      hsame.lz_r, hsame.lz_pv, hsame.lz_count, hpv]
  · rw [setPrefix_lz_n, resetTable_lz_n, hvr, BitVec.toNat_ofNat]
    omega
  · rw [setPrefix_lz_w, resetTable_lz_w, hvr, BitVec.toNat_add]
    simp
    omega

end

/-! ### `LZ_FINISH` -/

/-- What `FinalFlush` sends, together with what was sent before: the sub-blocks of all packed bytes (41_lzw_encoder.md R148, R154,
R155). -/
theorem finalFlush_writes {s v : State} {bits : List Bool} (h : Writes s v bits) :
    ∃ t, finalFlush v = .going t ∧ SameButBuffers v t ∧ t.lz.acc = 0 ∧ t.lz.nb = 0 ∧ t.lz.bl = 0 ∧
      t.lzo = s.lzo ++ ((blocks (packBits (s.lz.pendingBits ++ bits))).map dataBeat ++ [terminatorBeat]) ∧
      t.lz.bytes = s.lz.bytes + BitVec.ofNat 32 ((blocks (packBits (s.lz.pendingBits ++ bits))).length + 1) := by
  obtain ⟨chunks, hsent, hbits⟩ := h.stream
  obtain ⟨t, chunks', last, hflush, hfull, hlast, hpend, hlzo, hbytes, hacc, hnb, hbl, hsame⟩ := finalFlush_spec v h.ranges
  have hpack : packBits (s.lz.pendingBits ++ bits) = (chunks ++ chunks').flatten ++ last := by
    rw [← hbits, packBits_bytes, packBits_pendingBits v.lz h.ranges, ← hpend, List.flatten_append, List.append_assoc]
  have hblocks := blocks_chunks (chunks ++ chunks') last
    (fun c hc => (List.mem_append.1 hc).elim (hsent.full c) (hfull c)) hlast
  have hlen := congrArg List.length hblocks
  simp only [List.length_map, List.length_append, chunkBeats, List.flatMap_append] at hlen
  refine ⟨t, hflush, hsame, hacc, hnb, hbl, ?_, ?_⟩
  · rw [hpack, hblocks, hlzo, hsent.lzo]
    simp [chunkBeats]
  · rw [hpack, hlen, hbytes, hsent.bytes, BitVec.add_assoc, ← BitVec.ofNat_add]
    simp only [chunkBeats, Nat.add_assoc]

/-- `LZ_FINISH` of a frame with a matched code writes the matched code and the End code, sends all bits written since `s₀` as packed
sub-blocks, and closes the frame (41_lzw_encoder.md R163). -/
theorem lzFinish_spec {s₀ s : State} {bits : List Bool} (hwritten : Writes s₀ s bits) (hinv : LzInv s.params s.lz)
    (hact : s.lz.act = true) (hpv : s.lz.pv = true) :
    ∃ out, out = blocks (packBits (s₀.lz.pendingBits ++ (bits ++ (WideCode.bits ⟨s.lz.pfx.toNat, s.lz.w.toNat⟩ ++
        WideCode.bits ⟨endCode s.lz.r.toNat, grownWidth s.lz.w.toNat s.lz.n.toNat⟩)))) ∧
      (lzFinish s).lzo = s₀.lzo ++ (out.map dataBeat ++ [terminatorBeat]) ∧
      (lzFinish s).lz.bytes = s₀.lz.bytes + BitVec.ofNat 32 (out.length + 1) ∧
      (lzFinish s).lz.w.toNat = grownWidth s.lz.w.toNat s.lz.n.toNat ∧
      lzFinish s = { s with
        lzo := (lzFinish s).lzo
        lz := { s.lz with
          act := false, pv := false, w := (lzFinish s).lz.w, acc := 0, nb := 0, bl := 0, blk := (lzFinish s).lz.blk
          bytes := (lzFinish s).lz.bytes } } := by
  obtain ⟨hw, hw12⟩ := hinv.widthRange hact
  obtain ⟨hr1, -, -⟩ := hinv.rootRange hact
  obtain ⟨hgrow, hgrow12⟩ := grownWidth_range hw12 s.lz.n.toNat
  obtain ⟨u, hemit, happ⟩ := emit_spec s.lz.pfx.toNat s.lz.w.toNat s hinv.buffered (hinv.pfx_lt hpv) hw12
  have hur : (widthStep u).lz.r = s.lz.r := by rw [widthStep_lz_r, happ.same.lz_r]
  have huw : (widthStep u).lz.w.toNat = grownWidth s.lz.w.toNat s.lz.n.toNat := by
    rw [widthStep_w, happ.same.lz_w, happ.same.lz_n]
  have hwidth := happ.writes.silent (writes_widthStep happ.ranges)
  obtain ⟨v, hemit', happ'⟩ := emit_spec (endCode s.lz.r.toNat) (grownWidth s.lz.w.toNat s.lz.n.toNat) (widthStep u)
    hwidth.ranges (endCode_lt hr1 (hw.trans hgrow)) hgrow12
  obtain ⟨t, hflush, hsame, hacc, hnb, hbl, hlzo, hbytes⟩ := finalFlush_writes (hwritten.trans (hwidth.trans happ'.writes))
  have heq : lzFinish s = closeFrame t := by
    simp only [lzFinish_prefix hact hpv, sendTrailer, hemit, Progress.andThen, hur, huw, hemit', hflush, Progress.state]
  have htw : t.lz.w = (widthStep u).lz.w := hsame.lz_w.trans happ'.same.lz_w
  refine ⟨_, rfl, by rw [heq]; exact hlzo, by rw [heq]; exact hbytes, by rw [heq, closeFrame_lz_w, htw, huw], ?_⟩
  obtain ⟨w', hw'⟩ : ∃ w', widthStep u = { u with lz := { u.lz with w := w' } } := ⟨_, widthStep_eq u⟩
  have hsu := happ.same
  have hst := happ'.same.trans hsame
  unfold SameButBuffers at hsu hst
  rw [hw', hsu, hacc, hnb, hbl] at hst
  rw [heq, hst]
  rfl

end Sys2Proof.Machine
end

section
/-! PROOFS. One LZ command and the whole state it leaves (41_lzw_encoder.md section 5): `LZ_START`, an `LZ_INDEX` that writes, and
`LZ_FINISH`. -/

namespace Sys2Proof.Machine

/-! ### The bits of the Clear code -/

theorem numOfBits_append (a b : List Bool) : numOfBits (a ++ b) = numOfBits a + 2 ^ a.length * numOfBits b := by
  induction a with
  | nil => simp [numOfBits]
  | cons x a ih =>
    rw [List.cons_append, numOfBits, numOfBits, ih, List.length_cons, Nat.pow_succ']
    ring

/-- The bits of a code that fits its width are the code. -/
theorem numOfBits_wideCode {c w : Nat} (h : c < 2 ^ w) : numOfBits (WideCode.bits ⟨c, w⟩) = c := by
  rw [WideCode.bits, numOfBits_testBit, Nat.mod_eq_of_lt h]

/-- A code written into empty buffers, with a whole byte but no two: the byte is in the block buffer, the rest in the bit buffer. -/
theorem Writes.one_byte {s t : State} {c w : Nat} (h : Writes s t (WideCode.bits ⟨c, w⟩)) (hempty : s.lz.pendingBits = [])
    (hc : c < 2 ^ w) (h8 : 8 ≤ w) (h16 : w < 16) :
    t.lzo = s.lzo ∧ t.lz.bytes = s.lz.bytes ∧ t.lz.bl = 1 ∧ t.lz.nb.toNat = w - 8 ∧
      t.lz.pending = [BitVec.ofNat 8 c] ∧ t.lz.acc.toNat = c / 256 := by
  obtain ⟨chunks, hsent, hbits⟩ := h.stream
  rw [hempty, List.nil_append] at hbits
  have hlen := congrArg List.length hbits
  have hnb := h.ranges.nb
  rw [List.length_append, length_flatMap_byteBits, length_flatten_full hsent.full, length_pendingBits h.ranges,
    length_wideCode_bits] at hlen
  dsimp only at hlen
  obtain rfl : chunks = [] := List.length_eq_zero_iff.1 (by omega)
  have hbl : t.lz.bl.toNat = 1 := by
    simp only [List.length_nil] at hlen
    omega
  obtain ⟨b, hb⟩ : ∃ b, t.lz.pending = [b] := List.length_eq_one_iff.1 (by rw [length_pending, hbl]; rfl)
  have hnum := congrArg numOfBits hbits
  rw [List.flatten_nil, List.flatMap_nil, List.nil_append, pendingBits_eq, hb, List.flatMap_singleton, numOfBits_append,
    numOfBits_byteBits, numOfBits_accBits h.ranges.acc, length_byteBits, numOfBits_wideCode hc] at hnum
  have hbyte := b.isLt
  refine ⟨by simpa [chunkBeats] using hsent.lzo, by simpa [chunkBeats] using hsent.bytes, BitVec.eq_of_toNat_eq hbl, ?_, ?_,
    by omega⟩
  · simp only [List.length_nil] at hlen
    omega
  · rw [hb, ← hnum]
    congr 1
    apply BitVec.eq_of_toNat_eq
    rw [BitVec.toNat_ofNat]
    omega

/-- A code that completes no byte stays in the bit buffer (41_lzw_encoder.md R142). -/
theorem emit_short {c w : Nat} {s : State} (hc : c < 2 ^ w) (hw : s.lz.nb.toNat + w < 8) : emit c w s = .going (addBits c w s) := by
  have hnb : (addBits c w s).lz.nb.toNat = s.lz.nb.toNat + w := by
    rw [addBits_lz_nb, BitVec.toNat_add, BitVec.toNat_ofNat]
    omega
  rw [emit, if_neg (by simp only [Config.maxCodeWidth]; omega), drainBytes, if_neg (by omega)]

/-! ### The commands -/

/-- Settles O42: the header of `lzStart_spec`, whose bits are one code written into empty buffers (`emit_short`,
`Writes.one_byte`). -/
theorem lzStartOpensAFrame : Obligations.LzStartOpensAFrame := by
  unfold Obligations.LzStartOpensAFrame
  intro s k hs
  refine ⟨fun hact => (exec_lzStart_running hs k).trans (congrArg _ (lzStart_open hact k)),
    fun hact hk => (exec_lzStart_running hs k).trans (congrArg _ (lzStart_illegal hact (by omega))), fun hact hk1 hk8 => ?_⟩
  obtain ⟨hr1, -, hr8⟩ := rootWidth_range s.params.minRoot hk8
  obtain ⟨hr, hw, hn⟩ := lzStart_fields hact ⟨hk1, hk8⟩
  have heq := lzStart_eq hact ⟨hk1, hk8⟩
  have happ := lzStart_spec hact ⟨hk1, hk8⟩
  have hsame := happ.same
  have hframe := happ.writes.frame
  generalize hroot : rootWidth s.params.minRoot k.toNat = r at *
  refine ⟨lzStart k s, r, hroot.symm, exec_lzStart_running hs k, hsame.lz_act, hsame.lz_k, hr, hw, hn,
    hsame.lz_dict, hsame.lz_pv, hsame.lz_pfx, hsame.lz_count, ?_⟩
  have hfits : clearCode r < 2 ^ (r + 1) := clearCode_lt le_rfl
  obtain hshort | hlong := Nat.lt_or_ge r 7
  · have hstart : lzStart k s = addBits (clearCode r) (r + 1) (headerSent k s) := by
      rw [heq, emit_short hfits (by simp [headerSent]; omega), Progress.state]
    rw [hstart] at hframe ⊢
    refine ⟨by simp [headerSent], fun _ => ⟨?_, ?_, rfl, rfl⟩, fun h => by omega, ?_⟩
    · simp only [headerSent, addBits_lz_acc, outBeat_lz_acc, openFrame_lz_acc, outBeat_lz_nb, openFrame_lz_nb]
      have hle : 2 ^ (r + 1) ≤ 2 ^ 19 := Nat.pow_le_pow_right (by decide) (by omega)
      simpa [clearCode] using Nat.mod_eq_of_lt (hfits.trans_le hle)
    · simp [headerSent]
      omega
    · rw [headerSent, hroot]
      rfl
  · obtain ⟨hlzo, hbytes, hbl, hnb, hpending, hacc⟩ := happ.writes.one_byte (openFrame_pendingBits k s) hfits
      (by omega) (by omega)
    rw [hlzo] at hframe
    refine ⟨hbytes.trans (by simp [headerSent]), fun h => by omega, fun _ => ⟨hacc, by omega, hbl, hpending⟩, ?_⟩
    rwa [headerSent, hroot] at hframe

/-- Settles O45: the two cases of an index that ends the match, with a code left (`lzIndex_room_spec`) and with the last code
(`lzIndex_full_spec`). -/
theorem lzIndexEmitsThePrefix : Obligations.LzIndexEmitsThePrefix := by
  unfold Obligations.LzIndexEmitsThePrefix
  intro s x hinv hact hx hpv hfind
  have hlz := hinv.lzInv
  have hexec := exec_lzIndex_running hinv.notHalted x
  have hpfx : (x.setWidth 12 : Code).toNat = x.toNat := BitVec.toNat_setWidth_of_le (by decide)
  obtain ⟨-, hmax⟩ := hlz.nextRange hact
  obtain ⟨-, hw12⟩ := hlz.widthRange hact
  obtain hroom | hfull := Nat.lt_or_eq_of_le hmax
  · obtain ⟨hwrites, hcons, hn, hw, hdict⟩ := lzIndex_room_spec hlz hact hx hpv hfind hroom
    have hfew : (WideCode.bits ⟨s.lz.pfx.toNat, s.lz.w.toNat⟩).length ≤ 24 := by
      rw [length_wideCode_bits]
      exact hw12.trans (by decide)
    refine ⟨lzIndex x s, hexec, hcons.pfx ▸ hpfx, hcons.pv, hcons.act.trans hact, hcons.k, hcons.r, hcons.count,
      fun _ => ⟨hn, hw, fun p y => ?_, hwrites.bitsAppended hlz.buffered hfew⟩, fun h => by omega, hwrites.frame⟩
    rw [hdict]
    exact dictFind_dictInsert hlz.dictWf p y
  · obtain ⟨hwrites, hcons, hn, hw, hdict⟩ := lzIndex_full_spec hlz hact hx hpv hfind hfull
    have hfew : (WideCode.bits ⟨s.lz.pfx.toNat, s.lz.w.toNat⟩ ++ WideCode.bits ⟨clearCode s.lz.r.toNat, 12⟩).length ≤ 24 := by
      rw [List.length_append, length_wideCode_bits, length_wideCode_bits]
      exact Nat.add_le_add_right hw12 12
    exact ⟨lzIndex x s, hexec, hcons.pfx ▸ hpfx, hcons.pv, hcons.act.trans hact, hcons.k, hcons.r, hcons.count,
      fun h => by omega, fun _ => ⟨hn, hw, hdict, hwrites.bitsAppended hlz.buffered hfew⟩, hwrites.frame⟩

/-- Settles O46: the output and the frame of `lzFinish_spec`. -/
theorem lzFinishClosesTheFrame : Obligations.LzFinishClosesTheFrame := by
  unfold Obligations.LzFinishClosesTheFrame
  intro s hinv hact hpv
  obtain ⟨out, hout, hlzo, hbytes, hw, hframe⟩ := lzFinish_spec (.refl hinv.lzInv.buffered) hinv.lzInv hact hpv
  refine ⟨lzFinish s, _, out, exec_lzFinish_running hinv.notHalted, rfl, hout, hlzo, hbytes, ?_, ?_, hw, ?_, ?_, ?_, hframe⟩
  all_goals rw [hframe]

end Sys2Proof.Machine
end

section
/-! PROOFS. The LZ commands keep the invariant of the LZ unit and never halt a block that meets it (41_lzw_encoder.md R150, R152).
The invariant of an open frame is put together from its table (`TableInv`), its matched code (`DataCode`), its width and its
buffers. -/

namespace Sys2Proof.Machine

/-! ### The table and the matched code -/

/-- A code that stands for a string of indices: an index of the frame or an inserted code (41_lzw_encoder.md R141). -/
def DataCode (k r n c : Nat) : Prop := c < 2 ^ k ∨ firstFree r ≤ c ∧ c < n

theorem DataCode.lt {k r n c : Nat} (h : DataCode k r n c) (hkr : k ≤ r) (hn : firstFree r ≤ n) : c < n := by
  have hle : 2 ^ k ≤ 2 ^ r := Nat.pow_le_pow_right (by decide) hkr
  rw [firstFree] at hn
  exact h.elim (fun hc => by omega) And.right

theorem DataCode.mono {k r n m c : Nat} (h : DataCode k r n c) (hnm : n ≤ m) : DataCode k r m c :=
  h.imp_right fun ⟨hfree, hlt⟩ => ⟨hfree, hlt.trans_le hnm⟩

/-- The invariant of the code table with the next code `n` (10_state.md R29). -/
structure TableInv (r n : Nat) (d : List DictEntry) : Prop where
  wf    : Dict.wf d
  codes : ∀ e ∈ d, firstFree r ≤ e.code.toNat ∧ e.code.toNat < n
  once  : (d.map DictEntry.code).Nodup
  size  : d.length + firstFree r = n

theorem tableInv_nil (r : Nat) : TableInv r (firstFree r) [] where
  wf := List.Pairwise.nil
  codes := by simp
  once := List.nodup_nil
  size := Nat.zero_add _

/-- A code found in the table is an inserted code. -/
theorem TableInv.dataCode {k r n : Nat} {d : List DictEntry} (h : TableInv r n d) {p c : Code} {x : Index}
    (hfind : dictFind p x d = some c) : DataCode k r n c.toNat := by
  obtain ⟨e, he, -, -, rfl⟩ := dictFind_mem hfind
  exact .inr (h.codes e he)

/-- A new pair takes the next code (41_lzw_encoder.md R146). -/
theorem TableInv.insert {r n : Nat} {d : List DictEntry} (h : TableInv r n d) {e : DictEntry} (hcode : e.code.toNat = n)
    (hfind : dictFind e.pfx e.idx d = none) : TableInv r (n + 1) (dictInsert e d) := by
  have hsize := h.size
  refine ⟨dictInsert_wf h.wf, fun y hy => ?_, ?_, ?_⟩
  · obtain rfl | hy := mem_dictInsert hy
    · omega
    · have hcodes := h.codes y hy
      omega
  · rw [((dictInsert_perm hfind).map _).nodup_iff, List.map_cons, List.nodup_cons]
    refine ⟨fun hmem => ?_, h.once⟩
    obtain ⟨y, hy, heq⟩ := List.mem_map.1 hmem
    have hlt := (h.codes y hy).2
    rw [heq] at hlt
    omega
  · rw [length_dictInsert hfind]
    omega

section
variable {p : Params} {l : LzUnit}

theorem LzInv.table (h : LzInv p l) (hact : l.act = true) : TableInv l.r.toNat l.n.toNat l.dict :=
  ⟨h.dictWf, h.dictCodes hact, h.dictOnce hact, h.dictSize hact⟩

theorem LzInv.dataCode (h : LzInv p l) (hpv : l.pv = true) : DataCode l.k.toNat l.r.toNat l.n.toNat l.pfx.toNat :=
  (h.pfxData hpv).imp_right fun hfree => ⟨hfree, h.pfxRange hpv⟩

/-- The invariant of an open frame. -/
theorem LzInv.of_open (hk : 1 ≤ l.k.toNat ∧ l.k.toNat ≤ 8) (hr : l.r.toNat = rootWidth p.minRoot l.k.toNat) (hact : l.act = true)
    (hn : l.n.toNat ≤ 4095 ∧ l.n.toNat ≤ 2 ^ l.w.toNat) (hw : l.r.toNat + 1 ≤ l.w.toNat ∧ l.w.toNat ≤ 12) (hbuf : l.Buffered)
    (htable : TableInv l.r.toNat l.n.toNat l.dict)
    (hpfx : l.pv = true → DataCode l.k.toNat l.r.toNat l.n.toNat l.pfx.toNat) : LzInv p l := by
  obtain ⟨hmax, hfits⟩ := hn
  have hfree : firstFree l.r.toNat ≤ l.n.toNat := htable.size ▸ Nat.le_add_left _ _
  have hkr : l.k.toNat ≤ l.r.toNat := hr ▸ (rootWidth_range p.minRoot hk.2).2.1
  exact {
    exponent := fun _ => hk, root := fun _ => hr, nextRange := fun _ => ⟨hfree, hmax⟩, nextFits := fun _ => hfits
    widthRange := fun _ => hw, pvOpen := fun _ => hact, pfxRange := fun hpv => (hpfx hpv).lt hkr hfree
    pfxData := fun hpv => (hpfx hpv).imp_right And.left, nbRange := hbuf.nb, accRange := hbuf.acc, blRange := hbuf.bl
    dictWf := htable.wf, dictCodes := fun _ => htable.codes, dictOnce := fun _ => htable.once, dictSize := fun _ => htable.size }

end

/-! ### The commands -/

/-- A block that is not halted and whose LZ unit meets its invariant. -/
structure LzSafe (s : State) : Prop where
  running : s.running
  inv     : LzInv s.params s.lz

theorem lzSafe_raise {s : State} (h : LzSafe s) {e : ErrKind} (he : e ≠ .internal) : LzSafe (raise e s) :=
  ⟨(s.err.set_bit_other he.symm).trans h.running, h.inv⟩

/-- Writing bits raises no error and keeps the parameters. -/
theorem Writes.lzSafe {s t : State} {bits : List Bool} (h : Writes s t bits) (hs : s.running) (hinv : LzInv s.params t.lz) :
    LzSafe t := by
  have hframe := h.frame
  refine ⟨?_, ?_⟩
  · rw [hframe]
    exact hs
  · rwa [show t.params = s.params by rw [hframe]]

/-- An aborted frame is closed, and its buffers are empty (41_lzw_encoder.md R147). -/
theorem lzSafe_abortedState {s : State} (h : LzSafe s) : LzSafe (abortedState s) :=
  ⟨h.running, .of_closed rfl rfl ⟨by simp [abortedState], by simp [abortedState], by simp [abortedState]⟩ h.inv.dictWf⟩

/-- A newly opened frame meets the invariant, whatever came before (41_lzw_encoder.md R159, R160). -/
theorem lzSafe_lzStart_legal {s : State} (hs : s.running) (hact : s.lz.act = false) {k : BitVec 4}
    (hk : 1 ≤ k.toNat ∧ k.toNat ≤ 8) : LzSafe (lzStart k s) := by
  obtain ⟨hr1, hkr, hr8⟩ := rootWidth_range s.params.minRoot hk.2
  obtain ⟨hr, hw, hn⟩ := lzStart_fields hact hk
  have happ := lzStart_spec hact hk
  have hsame := happ.same
  have hfree := firstFree_le hr8
  have hk' : (lzStart k s).lz.k = k := hsame.lz_k
  have hdict : (lzStart k s).lz.dict = [] := hsame.lz_dict
  have hparams : (lzStart k s).params = s.params := hsame.params
  refine ⟨(congrArg ErrBits.internal hsame.err).trans hs, ?_⟩
  rw [hparams]
  refine .of_open ?_ ?_ hsame.lz_act ⟨?_, ?_⟩ ⟨?_, ?_⟩ happ.ranges ?_ fun hpv => ?_
  all_goals simp only [hr, hw, hn, hk']
  · exact hk
  · omega
  · exact firstFree_le_two_pow hr1
  · omega
  · omega
  · rw [hdict]
    exact tableInv_nil _
  · exact absurd (hsame.lz_pv.symm.trans hpv) (by simp [headerSent])

theorem lzSafe_lzStart {s : State} (h : LzSafe s) (k : BitVec 4) : LzSafe (lzStart k s) := by
  cases hact : s.lz.act with
  | true =>
    rw [lzStart_open hact]
    exact lzSafe_raise h (by decide)
  | false =>
    by_cases hk : 1 ≤ k.toNat ∧ k.toNat ≤ 8
    · exact lzSafe_lzStart_legal h.running hact hk
    · rw [lzStart_illegal hact hk]
      exact lzSafe_raise h (by decide)

section
variable {s t : State} {p : Code} {bits : List Bool} (h : LzSafe s) (hact : s.lz.act = true) (hwrites : Writes s t bits)
  (hcons : Consumed s p t)
include h hact hwrites hcons

/-- A consumed index keeps the invariant when the table, the width and the new matched code fit together. -/
theorem Consumed.lzSafe (hn : t.lz.n.toNat ≤ 4095 ∧ t.lz.n.toNat ≤ 2 ^ t.lz.w.toNat)
    (hw : s.lz.r.toNat + 1 ≤ t.lz.w.toNat ∧ t.lz.w.toNat ≤ 12) (htable : TableInv s.lz.r.toNat t.lz.n.toNat t.lz.dict)
    (hp : DataCode s.lz.k.toNat s.lz.r.toNat t.lz.n.toNat p.toNat) : LzSafe t := by
  refine hwrites.lzSafe h.running (.of_open ?_ ?_ (hcons.act.trans hact) hn ?_ hwrites.ranges ?_ fun _ => ?_)
  all_goals simp only [hcons.k, hcons.r, hcons.pfx]
  · exact h.inv.exponent hact
  · exact h.inv.root hact
  · exact hw
  · exact htable
  · exact hp

/-- A consumed index that leaves the table and the width keeps the invariant. -/
theorem Consumed.lzSafe_of_silent (hn : t.lz.n = s.lz.n) (hw : t.lz.w = s.lz.w) (hdict : t.lz.dict = s.lz.dict)
    (hp : DataCode s.lz.k.toNat s.lz.r.toNat s.lz.n.toNat p.toNat) : LzSafe t := by
  refine hcons.lzSafe h hact hwrites ⟨?_, ?_⟩ ?_ ?_ ?_
  · rw [hn]; exact (h.inv.nextRange hact).2
  · rw [hn, hw]; exact h.inv.nextFits hact
  · rw [hw]; exact h.inv.widthRange hact
  · rw [hn, hdict]; exact h.inv.table hact
  · rwa [hn]

end

/-- An accepted index keeps the invariant, in each of its cases (41_lzw_encoder.md R161). -/
theorem lzSafe_lzIndex_accepted {s : State} (h : LzSafe s) (hact : s.lz.act = true) {x : Index} (hx : x.toNat < 2 ^ s.lz.k.toNat) :
    LzSafe (lzIndex x s) := by
  have hinv := h.inv
  have hpfx : (x.setWidth 12 : Code).toNat = x.toNat := BitVec.toNat_setWidth_of_le (by decide)
  have hindex (n : Nat) : DataCode s.lz.k.toNat s.lz.r.toNat n (x.setWidth 12 : Code).toNat := .inl (hpfx ▸ hx)
  obtain ⟨hr1, -, hr8⟩ := hinv.rootRange hact
  obtain ⟨hw, hw12⟩ := hinv.widthRange hact
  obtain ⟨hfree, hmax⟩ := hinv.nextRange hact
  cases hpv : s.lz.pv with
  | false =>
    obtain ⟨hwrites, hcons, hn', hw', hdict'⟩ := lzIndex_first_spec hinv hact hx hpv
    exact hcons.lzSafe_of_silent h hact hwrites hn' hw' hdict' (hindex _)
  | true =>
    cases hfind : dictFind s.lz.pfx x s.lz.dict with
    | some c =>
      obtain ⟨hwrites, hcons, hn', hw', hdict'⟩ := lzIndex_match_spec hinv hact hx hpv hfind
      exact hcons.lzSafe_of_silent h hact hwrites hn' hw' hdict' ((hinv.table hact).dataCode hfind)
    | none =>
      obtain hroom | hfull := Nat.lt_or_eq_of_le hmax
      · obtain ⟨hwrites, hcons, hn', hw', hdict'⟩ := lzIndex_room_spec hinv hact hx hpv hfind hroom
        obtain ⟨hgrow, hgrow12⟩ := grownWidth_range hw12 s.lz.n.toNat
        have hcode : (s.lz.n.setWidth 12 : Code).toNat = s.lz.n.toNat := by
          rw [BitVec.toNat_setWidth]
          omega
        refine hcons.lzSafe h hact hwrites ⟨?_, ?_⟩ ⟨?_, ?_⟩ ?_ (hindex _)
        · omega
        · rw [hn', hw']
          exact succ_le_two_pow_grownWidth hw12 (hinv.nextFits hact) hmax
        · omega
        · omega
        · rw [hn', hdict']
          exact (hinv.table hact).insert hcode hfind
      · obtain ⟨hwrites, hcons, hn', hw', hdict'⟩ := lzIndex_full_spec hinv hact hx hpv hfind hfull
        have hfree258 := firstFree_le hr8
        refine hcons.lzSafe h hact hwrites ⟨?_, ?_⟩ ⟨?_, ?_⟩ ?_ (hindex _)
        · omega
        · rw [hn', hw']
          exact firstFree_le_two_pow hr1
        · omega
        · omega
        · rw [hn', hdict']
          exact tableInv_nil _

theorem lzSafe_lzIndex {s : State} (h : LzSafe s) (x : Index) : LzSafe (lzIndex x s) := by
  cases hact : s.lz.act with
  | false =>
    rw [lzIndex_closed hact]
    exact lzSafe_raise h (by decide)
  | true =>
    obtain hx | hx := Nat.lt_or_ge x.toNat (2 ^ s.lz.k.toNat)
    · exact lzSafe_lzIndex_accepted h hact hx
    · rw [lzIndex_bad hact hx]
      exact lzSafe_abortedState h

theorem lzSafe_lzFinish {s : State} (h : LzSafe s) : LzSafe (lzFinish s) := by
  cases hact : s.lz.act with
  | false =>
    rw [lzFinish_closed hact]
    exact lzSafe_raise h (by decide)
  | true =>
    cases hpv : s.lz.pv with
    | false =>
      rw [lzFinish_empty hact hpv]
      exact lzSafe_abortedState h
    | true =>
      obtain ⟨-, -, -, -, -, hframe⟩ := lzFinish_spec (.refl h.inv.buffered) h.inv hact hpv
      rw [hframe]
      exact ⟨h.running, .of_closed rfl rfl ⟨by simp, by simp, by simp⟩ h.inv.dictWf⟩

/-- An LZ command never halts a block that meets the invariant of the LZ unit, and keeps the invariant. -/
theorem exec_lzSafe {i : Instr} {s t : State} (hi : i.isLz = true) (h : LzSafe s) (ht : exec i s = .next t) : LzSafe t := by
  cases i <;> cases hi <;> obtain rfl := Host.Outcome.next.inj ht <;> rw [unlessHalted_running h.running]
  case lzStart.refl k => exact lzSafe_lzStart h k
  case lzIndex.refl x => exact lzSafe_lzIndex h x
  case lzFinish.refl => exact lzSafe_lzFinish h

end Sys2Proof.Machine
end

section
/-! PROOFS. The PQ commands keep the invariant of the PQ unit (10_state.md R33 to R37, 40_palette_quantizer.md R105, R107). -/

namespace Sys2Proof.Machine

/-- The unit after reset has collected nothing and built nothing (70_reset_and_hazards.md R240). -/
theorem pqInv_reset : PqInv PqUnit.reset := by
  constructor <;> simp [PqUnit.reset, PqUnit.colours, PqUnit.buckets, PqUnit.seenAt]

theorem PqInv.begun (q : PqUnit) : PqInv q.begun := by
  constructor <;> simp

/-! ### Collecting -/

/-- A colour is in the list after it was collected only when it was there or is the pixel. -/
theorem mem_colours_collectColour {c d : Colour} {q : PqUnit} (h : d ∈ (q.collectColour c).colours) : d ∈ q.colours ∨ d = c := by
  rw [colours_collectColour] at h
  split at h
  · exact .inl h
  · split at h
    · simpa using h
    · exact .inl h

/-- The exact-colour list after a pixel, under the invariant (40_palette_quantizer.md R107). -/
theorem PqInv.colour_step {q : PqUnit} (h : PqInv q) (c : Colour) :
    0 < (q.collectColour c).exn.toNat ∧ (q.collectColour c).exn.toNat ≤ 256 ∧
    ((q.collectColour c).ovf = true → (q.collectColour c).exn.toNat = 256) ∧ (q.collectColour c).colours.Nodup := by
  have hrange := h.exnRange
  have hfull := h.ovfFull
  have honce := h.coloursOnce
  by_cases hmem : c ∈ q.colours
  · rw [collectColour_of_mem hmem]
    obtain ⟨j, hj, -⟩ := mem_colours_iff.1 hmem
    exact ⟨by omega, hrange, hfull, honce⟩
  · by_cases hroom : q.exn.toNat < 256
    · have hexn : (q.collectColour c).exn.toNat = q.exn.toNat + 1 := by
        rw [collectColour_of_room hmem hroom]
        exact succ_toNat_9 hroom
      have hovf : (q.collectColour c).ovf = q.ovf := by rw [collectColour_of_room hmem hroom]
      rw [hexn, hovf, colours_collectColour, if_neg hmem, if_pos hroom]
      refine ⟨by omega, by omega, fun ho => ?_, ?_⟩
      · have := hfull ho
        omega
      · exact List.nodup_append.2 ⟨honce, List.nodup_singleton c, by simpa using fun d hd => ne_of_mem_of_not_mem hd hmem⟩
    · rw [colours_collectColour, if_neg hmem, if_neg hroom, collectColour_of_full hmem hroom]
      exact ⟨by simp only; omega, hrange, fun _ => by simp only; omega, honce⟩

/-- A bucket that is not seen has room in the list of buckets (10_state.md R36). -/
theorem PqInv.bucket_room {q : PqUnit} (h : PqInv q) {b : BitVec 8} (hb : ¬q.seenAt b = true) : q.bkn.toNat < 256 := by
  have hnew : (b :: q.buckets).Nodup := List.nodup_cons.2 ⟨mt (h.seenListed b).2 hb, h.bucketsOnce⟩
  have hcard := (hnew.map (f := BitVec.toFin) fun _ _ => BitVec.toFin_inj.1).length_le_card
  have hrange := h.bknRange
  simp [PqUnit.buckets] at hcard
  omega

/-- The bucket table after a pixel, under the invariant (40_palette_quantizer.md R107). -/
theorem PqInv.bucket_step {q : PqUnit} (h : PqInv q) (c : Colour) :
    0 < (q.collectBucket c).bkn.toNat ∧ (q.collectBucket c).bkn.toNat ≤ 256 ∧ (q.collectBucket c).buckets.Nodup ∧
    (∀ b, (q.collectBucket c).seenAt b = true ↔ b ∈ (q.collectBucket c).buckets) ∧
    ∀ b, (q.collectBucket c).seenAt b = true → bucket ((q.collectBucket c).repAt b) = b := by
  by_cases hseen : q.seenAt (bucket c) = true
  · rw [collectBucket_of_seen hseen]
    have hpos : q.buckets ≠ [] := List.ne_nil_of_mem ((h.seenListed _).1 hseen)
    have hbkn : q.bkn.toNat ≠ 0 := fun h0 => hpos (by simp [PqUnit.buckets, h0])
    exact ⟨by omega, h.bknRange, h.bucketsOnce, h.seenListed, h.repInBucket⟩
  · have hroom := h.bucket_room hseen
    have hnew := mt (h.seenListed _).2 hseen
    have hbkn : (q.collectBucket c).bkn.toNat = q.bkn.toNat + 1 := by
      rw [collectBucket_of_new hseen]
      exact succ_toNat_9 hroom
    rw [hbkn, buckets_collectBucket c hroom, if_neg hseen]
    refine ⟨by omega, by omega, ?_, fun b => ?_, fun b hb => ?_⟩
    · exact List.nodup_append.2 ⟨h.bucketsOnce, List.nodup_singleton _, by simpa using fun b hb => ne_of_mem_of_not_mem hb hnew⟩
    · rw [seenAt_collectBucket, List.mem_append, ← h.seenListed, List.mem_singleton]
      by_cases hb : b = bucket c <;> simp [hb]
    · rw [seenAt_collectBucket] at hb
      rw [repAt_collectBucket]
      by_cases hbc : b = bucket c
      · rw [if_pos ⟨hbc, by simpa using hseen⟩, hbc]
      · rw [if_neg fun hcon => hbc hcon.1]
        exact h.repInBucket b (by rwa [if_neg hbc] at hb)

/-- A pixel keeps the invariant (40_palette_quantizer.md R107). -/
theorem PqInv.collected {q : PqUnit} (h : PqInv q) (hphase : q.st = .collect) (c : Colour) : PqInv (q.collected c) := by
  obtain ⟨hpos, hrange, hfull, honce⟩ := h.colour_step c
  obtain ⟨hbpos, hbrange, hbonce, hseen, hrep⟩ := h.bucket_step c
  have hunbuilt : q.st ≠ .built := by rw [hphase]; decide
  rw [collected_eq]
  exact {
    exnRange := hrange, ovfFull := hfull, coloursOnce := honce, bknRange := hbrange, bucketsOnce := hbonce, seenListed := hseen
    repInBucket := hrep
    colourSeen := fun d hd => by
      refine (seenAt_collectBucket c q _).trans ?_
      obtain hd | rfl := mem_colours_collectColour hd
      · rw [h.colourSeen d hd, ite_self]
      · exact if_pos rfl
    anyListed := ⟨fun _ => hpos, fun _ => rfl⟩, anyBucket := fun _ => hbpos
    palNRange := fun hb => absurd hb hunbuilt, palPValue := fun hb => absurd hb hunbuilt
    entriesOnce := fun hb => absurd hb hunbuilt, unbuilt := fun _ => h.unbuilt hunbuilt }

/-! ### Building -/

/-- A build that fails leaves no palette (40_palette_quantizer.md R108). -/
theorem PqInv.idle {q : PqUnit} (h : PqInv q) (hphase : q.st = .collect) : PqInv { q with st := .idle } :=
  { h with
    palNRange := nofun, palPValue := nofun, entriesOnce := nofun
    unbuilt := fun _ => h.unbuilt (by rw [hphase]; decide) }

/-- A build that keeps a palette with a legal count and distinct entries (40_palette_quantizer.md R105, R108). -/
theorem PqInv.finishBuild {q u : PqUnit} (h : PqInv q) (hu : u = { q with pal := u.pal, palN := u.palN, isExact := u.isExact })
    (hone : 1 ≤ u.palN.toNat) (hle : u.palN.toNat ≤ 256) (honce : u.entries.Nodup) : PqInv u.finishBuild := by
  have hsize := finishBuild_palP_toNat u
  obtain ⟨p, n, b, rfl⟩ : ∃ p n b, u = { q with pal := p, palN := n, isExact := b } := ⟨_, _, _, hu⟩
  exact { h with
    palNRange := fun _ => ⟨hone, hle⟩, palPValue := fun _ => hsize, entriesOnce := fun _ => honce
    unbuilt := fun hb => absurd rfl hb }

theorem pqInv_qBuild {s : State} (h : PqInv s.pq) (q : Bool) : PqInv (qBuild q s).pq := by
  unfold qBuild
  split
  · next hphase =>
    split
    · next hany =>
      split
      · split
        · refine h.finishBuild (quantizedPalette_eq s.pq) ?_ ?_ ?_
          · rw [quantizedPalette_palN]
            exact h.anyBucket hany
          · rw [quantizedPalette_palN]
            exact h.bknRange
          · rw [entries_quantizedPalette]
            exact h.reps_nodup
        · exact h.idle hphase
      · refine h.finishBuild (exactPalette_eq s.pq) ?_ ?_ ?_
        · rw [exactPalette_palN]
          exact h.anyListed.1 hany
        · rw [exactPalette_palN]
          exact h.exnRange
        · rw [entries_exactPalette]
          exact h.coloursOnce
    · exact h.idle hphase
  · exact h

theorem pqInv_qPixel {s : State} (h : PqInv s.pq) (c : Colour) : PqInv (qPixel c s).pq := by
  unfold qPixel
  split
  · next hphase => exact h.collected hphase c
  · exact h

theorem qMap_pq (c : Colour) (s : State) : (qMap c s).pq = s.pq := by
  unfold qMap
  split <;> rfl

theorem qRdpal_pq (x : Index) (s : State) : (qRdpal x s).pq = s.pq := by
  unfold qRdpal
  split <;> rfl

/-- A PQ command keeps the invariant of the PQ unit. -/
theorem exec_pqInv {i : Instr} {s t : State} (hi : i.isPq = true) (h : PqInv s.pq) (ht : exec i s = .next t) : PqInv t.pq := by
  cases i <;> cases hi <;> obtain rfl := Host.Outcome.next.inj ht
  case qBegin.refl => exact unlessHalted_of (P := fun t => PqInv t.pq) h (PqInv.begun s.pq)
  case qPixel.refl c => exact unlessHalted_of (P := fun t => PqInv t.pq) h (pqInv_qPixel h c)
  case qBuild.refl q => exact unlessHalted_of (P := fun t => PqInv t.pq) h (pqInv_qBuild h q)
  case qMap.refl c => exact unlessHalted_of (P := fun t => PqInv t.pq) h (qMap_pq c s ▸ h)
  case qRdpal.refl x => exact unlessHalted_of (P := fun t => PqInv t.pq) h (qRdpal_pq x s ▸ h)

end Sys2Proof.Machine
end

section
/-! PROOFS. The invariant of both units holds at reset, every step keeps it, and so no run from reset halts (41_lzw_encoder.md R150,
R152; 60_exceptions.md R213). -/

namespace Sys2Proof.Machine

theorem State.Inv.lzSafe {s : State} (h : s.Inv) : LzSafe s := ⟨h.notHalted, h.lzInv⟩

/-- The invariant speaks of the parameters, the halt and the two units only. -/
theorem State.Inv.congr {s t : State} (h : s.Inv) (hparams : t.params = s.params) (herr : t.err.internal = s.err.internal)
    (hlz : t.lz = s.lz) (hpq : t.pq = s.pq) : t.Inv :=
  ⟨herr.trans h.notHalted, by rw [hparams, hlz]; exact h.lzInv, by rw [hpq]; exact h.pqInv⟩

theorem buffered_reset : LzUnit.reset.Buffered := ⟨by decide, by decide, by decide⟩

/-- The reset state meets the invariant (70_reset_and_hazards.md R240). -/
theorem inv_resetFor (p : Params) (es : List HostEvent) : State.Inv { State.resetFor p with port := es } where
  notHalted := rfl
  lzInv := .of_closed rfl rfl buffered_reset List.Pairwise.nil
  pqInv := pqInv_reset

/-- What stays on the PQ side and keeps the PQ unit's invariant keeps the whole. -/
theorem State.Inv.of_pqSide {s t : State} (h : s.Inv) (hside : PqSide s t) (hpq : PqInv t.pq) : t.Inv := by
  have hframe := hside.frame
  refine ⟨hside.internal.trans h.notHalted, ?_, hpq⟩
  rw [hframe]
  exact h.lzInv

/-- From `s` to `t` neither unit nor the beats changed, and no halt happened. -/
structure UnitsKept (s t : State) : Prop where
  params   : t.params = s.params
  internal : t.err.internal = s.err.internal
  lz       : t.lz = s.lz
  lzo      : t.lzo = s.lzo
  pq       : t.pq = s.pq

/-- A command is an LZ command, a PQ command, or changes neither unit. -/
theorem exec_kind {i : Instr} {s t : State} (h : exec i s = .next t) : i.isLz = true ∨ i.isPq = true ∨ UnitsKept s t := by
  cases i
  case lzStart | lzIndex | lzFinish => exact .inl rfl
  case qBegin | qPixel | qBuild | qMap | qRdpal => exact .inr (.inl rfl)
  all_goals refine .inr (.inr ?_)
  case nop =>
    obtain rfl := Host.Outcome.next.inj h
    exact ⟨rfl, rfl, rfl, rfl, rfl⟩
  case rdreg n =>
    obtain rfl := Host.Outcome.next.inj ((exec_rdreg n s).symm.trans h)
    exact ⟨rfl, rfl, rfl, rfl, rfl⟩
  case clrerr =>
    obtain rfl := Host.Outcome.next.inj h
    exact unlessHalted_of (P := UnitsKept s) ⟨rfl, rfl, rfl, rfl, rfl⟩ ⟨rfl, rfl, rfl, rfl, rfl⟩

/-- Every command keeps the invariant. -/
theorem exec_inv {i : Instr} {s t : State} (h : s.Inv) (ht : exec i s = .next t) : t.Inv := by
  obtain hlz | hpq | hkept := exec_kind ht
  · have hsafe := exec_lzSafe hlz h.lzSafe ht
    refine ⟨hsafe.running, hsafe.inv, ?_⟩
    rw [(exec_lzSide hlz ht).frame]
    exact h.pqInv
  · exact h.of_pqSide (exec_pqSide hpq ht) (exec_pqInv hpq h.pqInv ht)
  · exact h.congr hkept.params hkept.internal hkept.lz hkept.pq

/-- Settles O56: a step executes a command (`exec_inv`), rejects a word, takes an output, resets the block (`inv_resetFor`) or
idles. -/
theorem everyStepKeepsTheInvariant : Obligations.EveryStepKeepsTheInvariant := by
  unfold Obligations.EveryStepKeepsTheInvariant
  intro s t h hstep
  have hport (es : List HostEvent) : State.Inv { s with port := es } := h.congr rfl rfl rfl rfl
  obtain ⟨-, rfl⟩ | ⟨w, es, -, ⟨i, -, hexec⟩ | ⟨r, -, rfl⟩⟩ | ⟨es, -, rfl⟩ | ⟨es, -, rfl⟩ | ⟨es, -, rfl⟩ := step_cases hstep
  · exact h
  · exact exec_inv (hport es) hexec
  · refine (hport es).of_pqSide (pqSide_rejectWord r _) ?_
    rw [rejectWord_eq]
    exact h.pqInv
  · exact (hport es).congr rfl rfl rfl rfl
  · exact (hport es).congr rfl rfl rfl rfl
  · exact inv_resetFor s.params es

/-- What every step of a machine keeps, every run keeps. -/
theorem run_keeps {M : Host.Core} {P : M.State → Prop} (hkeep : ∀ s t, P s → M.step s = .next t → P t) {n : Nat} {s t : M.State}
    (hs : P s) (hrun : M.run n s = .next t) : P t := by
  induction n generalizing s with
  | zero => exact Host.Outcome.next.inj hrun ▸ hs
  | succ n ih =>
    rw [Host.Core.run] at hrun
    split at hrun
    · next u hu => exact ih (hkeep s u hs hu) hrun
    · cases hrun
    · cases hrun

/-- Settles O57: the reset state meets the invariant (`inv_resetFor`), and so does every state of the run (`run_keeps`). -/
theorem noRunFromResetHalts : Obligations.NoRunFromResetHalts := by
  unfold Obligations.NoRunFromResetHalts
  intro p es n t hrun
  have hinv : t.Inv := run_keeps (M := core) (P := State.Inv) everyStepKeepsTheInvariant (inv_resetFor p es) hrun
  exact hinv.notHalted

end Sys2Proof.Machine
end

section
/-! PROOFS. The commands of a frame against the functional form of the frame (41_lzw_encoder.md R153 to R156). In the middle of a
frame (`InFrame`) the machine holds the width, the next code, the table and the matched code of `lzwLoop`, and each index makes
both take the same step. -/

namespace Sys2Proof.Machine

/-! ### The bits of code sequences -/

@[simp] theorem codeBits_nil : codeBits [] = [] := rfl

@[simp] theorem codeBits_cons (c : WideCode) (cs : List WideCode) : codeBits (c :: cs) = c.bits ++ codeBits cs := List.flatMap_cons

@[simp] theorem codeBits_append (cs ds : List WideCode) : codeBits (cs ++ ds) = codeBits cs ++ codeBits ds := List.flatMap_append

/-! ### The table of the functional form -/

/-- The functional form's table maps what the machine's maps. -/
def TableMatches (tab : Table) (d : List DictEntry) : Prop :=
  ∀ (p : Code) (x : Index), tab.lookup (p.toNat, x.toNat) = (dictFind p x d).map BitVec.toNat

theorem tableMatches_nil : TableMatches [] [] := fun _ _ => rfl

theorem TableMatches.insert {tab : Table} {d : List DictEntry} (h : TableMatches tab d) (hwf : Dict.wf d) (e : DictEntry) :
    TableMatches (((e.pfx.toNat, e.idx.toNat), e.code.toNat) :: tab) (dictInsert e d) := by
  intro p x
  rw [dictFind_dictInsert hwf, List.lookup_cons]
  by_cases hpair : p = e.pfx ∧ x = e.idx
  · obtain ⟨rfl, rfl⟩ := hpair
    simp
  · have hne : ((p.toNat, x.toNat) == (e.pfx.toNat, e.idx.toNat)) = false := by
      simpa [BitVec.toNat_inj] using hpair
    rw [hne, if_neg hpair]
    exact h p x

/-! ### In the middle of a frame -/

/-- A frame is open with a matched code, and its table is that of the functional form. -/
structure InFrame (s : State) (tab : Table) : Prop where
  safe  : LzSafe s
  act   : s.lz.act = true
  pv    : s.lz.pv = true
  table : TableMatches tab s.lz.dict

/-- The codes that the functional form writes from here on, for the indices still to come (41_lzw_encoder.md R153). -/
def State.codesLeft (s : State) (tab : Table) (xs : List Nat) : List WideCode :=
  lzwLoop s.lz.r.toNat s.lz.w.toNat s.lz.n.toNat tab s.lz.pfx.toNat xs

/-- One index: the machine writes the codes that the functional form writes for it (41_lzw_encoder.md R161). -/
theorem InFrame.step {s : State} {tab : Table} (h : InFrame s tab) {x : Index} (hx : x.toNat < 2 ^ s.lz.k.toNat) :
    ∃ tab' cs p, InFrame (lzIndex x s) tab' ∧ Writes s (lzIndex x s) (codeBits cs) ∧ Consumed s p (lzIndex x s) ∧
      ∀ xs, s.codesLeft tab (x.toNat :: xs) = cs ++ (lzIndex x s).codesLeft tab' xs := by
  have hinv := h.safe.inv
  have hsafe := lzSafe_lzIndex h.safe x
  have hpfx : (x.setWidth 12 : Code).toNat = x.toNat := BitVec.toNat_setWidth_of_le (by decide)
  obtain ⟨-, hmax⟩ := hinv.nextRange h.act
  have hlookup := h.table s.lz.pfx x
  cases hfind : dictFind s.lz.pfx x s.lz.dict with
  | some c =>
    obtain ⟨hwrites, hcons, hn, hw, hdict⟩ := lzIndex_match_spec hinv h.act hx h.pv hfind
    refine ⟨tab, [], c, ⟨hsafe, hcons.act.trans h.act, hcons.pv, hdict ▸ h.table⟩, hwrites, hcons, fun xs => ?_⟩
    rw [hfind] at hlookup
    simp only [State.codesLeft, lzwLoop, hlookup, Option.map_some, hcons.r, hn, hw, hcons.pfx, List.nil_append]
  | none =>
    rw [hfind] at hlookup
    obtain hroom | hfull := Nat.lt_or_eq_of_le hmax
    · obtain ⟨hwrites, hcons, hn, hw, hdict⟩ := lzIndex_room_spec hinv h.act hx h.pv hfind hroom
      have hcode : (s.lz.n.setWidth 12 : Code).toNat = s.lz.n.toNat := by
        rw [BitVec.toNat_setWidth]
        omega
      have hmatch := h.table.insert hinv.dictWf { pfx := s.lz.pfx, idx := x, code := s.lz.n.setWidth 12 }
      rw [← hdict, hcode] at hmatch
      refine ⟨_, [⟨s.lz.pfx.toNat, s.lz.w.toNat⟩], _, ⟨hsafe, hcons.act.trans h.act, hcons.pv, hmatch⟩, by simpa using hwrites,
        hcons, fun xs => ?_⟩
      have hnot : ¬s.lz.n.toNat + 1 = Config.tableSize := by
        rw [Config.tableSize]
        omega
      simp only [State.codesLeft, lzwLoop, hlookup, Option.map_none, if_neg hnot, hcons.r, hn, hw, hcons.pfx, hpfx,
        List.singleton_append]
    · obtain ⟨hwrites, hcons, hn, hw, hdict⟩ := lzIndex_full_spec hinv h.act hx h.pv hfind hfull
      have hw12 : s.lz.w.toNat = 12 :=
        eq_twelve_of_last_code (hinv.widthRange h.act).2 (hinv.nextFits h.act) hfull
      refine ⟨[], [⟨s.lz.pfx.toNat, s.lz.w.toNat⟩, ⟨clearCode s.lz.r.toNat, 12⟩], _,
        ⟨hsafe, hcons.act.trans h.act, hcons.pv, hdict ▸ tableMatches_nil⟩, by simpa using hwrites, hcons, fun xs => ?_⟩
      simp only [State.codesLeft, lzwLoop, hlookup, Option.map_none, hfull, hcons.r, hn, hw, hcons.pfx, hpfx, hw12,
        grownWidth_twelve, List.cons_append, List.nil_append]
      rfl

/-- The indices of a frame, one after the other. -/
theorem InFrame.run {s : State} {tab : Table} (h : InFrame s tab) {xs : List Index} (hxs : ∀ x ∈ xs, x.toNat < 2 ^ s.lz.k.toNat)
    (is : List Instr) :
    ∃ t tab' cs, runInstrs (xs.map Instr.lzIndex ++ is) s = runInstrs is t ∧ InFrame t tab' ∧ Writes s t (codeBits cs) ∧
      s.codesLeft tab (xs.map BitVec.toNat) = cs ++ t.codesLeft tab' [] ∧ t.lz.count = s.lz.count + BitVec.ofNat 32 xs.length := by
  induction xs generalizing s tab with
  | nil => exact ⟨s, tab, [], rfl, h, .refl h.safe.inv.buffered, rfl, by simp⟩
  | cons x xs ih =>
    obtain ⟨hx, hxs⟩ := List.forall_mem_cons.1 hxs
    obtain ⟨tab₁, cs₁, p, hframe, hwrites, hcons, hcodes⟩ := h.step hx
    obtain ⟨t, tab₂, cs₂, hrun, hframe', hwrites', hcodes', hcount⟩ := ih hframe (hcons.k ▸ hxs)
    refine ⟨t, tab₂, cs₁ ++ cs₂, ?_, hframe', by simpa using hwrites.trans hwrites', ?_, ?_⟩
    · exact (runInstrs_cons_of_next (exec_lzIndex_running h.safe.running x) _).trans hrun
    · rw [List.map_cons, hcodes, hcodes', List.append_assoc]
    · rw [hcount, hcons.count, List.length_cons, Nat.add_comm xs.length, BitVec.ofNat_add, BitVec.add_assoc]
      rfl

/-! ### The whole frame -/

/-- The beats of a frame (41_lzw_encoder.md R156). -/
theorem frameBeats_eq (m : MinRoot) (k : Nat) (xs : List Nat) :
    frameBeats m k xs = dataBeat (BitVec.ofNat 8 (rootWidth m k)) ::
      ((blocks (pack (lzwCodes m k xs))).map dataBeat ++ [terminatorBeat]) := rfl

/-- The header and the first index of a frame: the matched code is the index, and the table is initial (41_lzw_encoder.md R160,
R161). -/
theorem inFrame_first {s : State} (hs : s.running) (hact : s.lz.act = false) {k : BitVec 4} (hk : 1 ≤ k.toNat ∧ k.toNat ≤ 8)
    {x : Index} (hx : x.toNat < 2 ^ k.toNat) :
    ∃ u cs, (∀ is, runInstrs (.lzStart k :: .lzIndex x :: is) s = runInstrs is u) ∧ InFrame u [] ∧ u.lz.k = k ∧
      u.lz.count = 1 ∧ Writes (headerSent k s) u (codeBits cs) ∧
      ∀ xs, lzwCodes s.params.minRoot k.toNat (x.toNat :: xs) = cs ++ u.codesLeft [] xs := by
  obtain ⟨hr, hw, hn⟩ := lzStart_fields hact hk
  have happ := lzStart_spec hact hk
  have hsame := happ.same
  have hsafe := lzSafe_lzStart_legal hs hact hk
  have hk' : (lzStart k s).lz.k = k := hsame.lz_k
  have hpfx : (x.setWidth 12 : Code).toNat = x.toNat := BitVec.toNat_setWidth_of_le (by decide)
  obtain ⟨hwrites, hcons, hn', hw', hdict'⟩ :=
    lzIndex_first_spec hsafe.inv (s := lzStart k s) hsame.lz_act (x := x) (hx.trans_eq (by rw [hk'])) hsame.lz_pv
  refine ⟨lzIndex x (lzStart k s), [⟨clearCode (rootWidth s.params.minRoot k.toNat), rootWidth s.params.minRoot k.toNat + 1⟩],
    fun is => ?_, ⟨lzSafe_lzIndex hsafe x, hcons.act.trans hsame.lz_act, hcons.pv, ?_⟩, hcons.k.trans hk', ?_, ?_, fun xs => ?_⟩
  · exact (runInstrs_cons_of_next (exec_lzStart_running hs k) _).trans
      (runInstrs_cons_of_next (exec_lzIndex_running hsafe.running x) _)
  · rw [hdict', hsame.lz_dict]
    exact tableMatches_nil
  · rw [hcons.count, hsame.lz_count]
    rfl
  · simpa using happ.writes.silent hwrites
  · simp only [State.codesLeft, hcons.r, hcons.pfx, hn', hw', hr, hw, hn, hpfx]
    rfl

/-- Settles O47: the header and the first index (`inFrame_first`), the other indices (`InFrame.run`) and `LZ_FINISH` write the
bits of the functional form's codes, and `LZ_FINISH` sends them all (`lzFinish_spec`). -/
theorem frameAppendsFrameBeats : Obligations.FrameAppendsFrameBeats := by
  unfold Obligations.FrameAppendsFrameBeats
  intro s k xs hs hact hk1 hk8 hne hxs
  obtain ⟨x, xs, rfl⟩ := List.exists_cons_of_ne_nil hne
  obtain ⟨hx, hxs⟩ := List.forall_mem_cons.1 hxs
  obtain ⟨u, cs, hrun, hframe, hk, hcount, hwrites, hcodes⟩ := inFrame_first hs hact ⟨hk1, hk8⟩ hx
  obtain ⟨v, tab, cs', hrun', hframe', hwrites', hcodes', hcount'⟩ := hframe.run (hk.symm ▸ hxs) [Instr.lzFinish]
  have hwritten := hwrites.trans hwrites'
  obtain ⟨out, hout, hlzo, hbytes, -, hfinish⟩ := lzFinish_spec hwritten hframe'.safe.inv hframe'.act hframe'.pv
  have hall : lzwCodes s.params.minRoot k.toNat ((x :: xs).map BitVec.toNat) = cs ++ cs' ++ v.codesLeft tab [] := by
    rw [List.map_cons, hcodes, hcodes', List.append_assoc]
  have hpack : out = blocks (pack (lzwCodes s.params.minRoot k.toNat ((x :: xs).map BitVec.toNat))) := by
    rw [hout, pack, hall]
    simp [State.codesLeft, lzwLoop]
  rw [hpack] at hlzo hbytes
  have hbeats : (lzFinish v).lzo = s.lzo ++ frameBeats s.params.minRoot k.toNat ((x :: xs).map BitVec.toNat) := by
    rw [hlzo, frameBeats_eq]
    simp
  have hkept : lzFinish v = { v with lz := (lzFinish v).lz, lzo := (lzFinish v).lzo } := by rw [hfinish]
  refine ⟨lzFinish v, ?_, ?_, by rw [hfinish], by rw [hfinish], ?_, ?_⟩
  · exact (hrun _).trans (hrun'.trans ((runInstrs_singleton _ _).trans (exec_lzFinish_running hframe'.safe.running)))
  · obtain ⟨l, o, hv⟩ : ∃ l o, v = { s with lz := l, lzo := o } := ⟨_, _, hwritten.frame⟩
    rw [hbeats] at hkept
    rw [hkept]
    simp only [hv]
  · rw [hfinish, hcount', hcount, List.length_cons, Nat.add_comm xs.length, BitVec.ofNat_add]
    rfl
  · rw [hbytes, frameBeats_eq, List.length_cons, List.length_append, List.length_map, List.length_singleton,
      Nat.add_comm (_ + 1) 1, BitVec.ofNat_add 1]
    rfl

/-! ### Interleaving -/

/-- A command that is no LZ command changes nothing on the LZ side, and no halt (40_palette_quantizer.md R116). -/
theorem exec_other {i : Instr} {s t : State} (hi : i.isLz = false) (h : exec i s = .next t) :
    LzAgree s t ∧ t.err.internal = s.err.internal := by
  obtain hlz | hpq | hkept := exec_kind h
  · exact absurd (hi.symm.trans hlz) (by decide)
  · have hside := exec_pqSide hpq h
    have hframe := hside.frame
    exact ⟨⟨by rw [hframe], by rw [hframe], by rw [hframe]⟩, hside.internal⟩
  · exact ⟨⟨hkept.params.symm, hkept.lz.symm, hkept.lzo.symm⟩, hkept.internal⟩

/-- A block that is not halted and in which no LZ command can halt it: the LZ unit meets its invariant, or no frame is open. -/
def CannotHalt (s : State) : Prop := LzSafe s ∨ s.running ∧ s.lz.act = false

theorem CannotHalt.running {s : State} (h : CannotHalt s) : s.running := h.elim LzSafe.running And.left

/-- With no frame open, an LZ command opens one or only raises an error that halts nothing. -/
theorem exec_lz_closed {i : Instr} {s t : State} (hi : i.isLz = true) (hs : s.running) (hact : s.lz.act = false)
    (h : exec i s = .next t) : CannotHalt t := by
  have hraise {e : ErrKind} (he : e ≠ .internal) : CannotHalt (raise e s) :=
    .inr ⟨(s.err.set_bit_other he.symm).trans hs, hact⟩
  cases i <;> cases hi <;> obtain rfl := Host.Outcome.next.inj h <;> rw [unlessHalted_running hs]
  case lzStart.refl k =>
    by_cases hk : 1 ≤ k.toNat ∧ k.toNat ≤ 8
    · exact .inl (lzSafe_lzStart_legal hs hact hk)
    · rw [lzStart_illegal hact hk]
      exact hraise (by decide)
  case lzIndex.refl x =>
    rw [lzIndex_closed hact]
    exact hraise (by decide)
  case lzFinish.refl =>
    rw [lzFinish_closed hact]
    exact hraise (by decide)

theorem exec_cannotHalt {i : Instr} {s t : State} (hi : i.isLz = true) (hs : CannotHalt s) (h : exec i s = .next t) :
    CannotHalt t := by
  obtain hsafe | ⟨hrun, hact⟩ := hs
  · exact .inl (exec_lzSafe hi hsafe h)
  · exact exec_lz_closed hi hrun hact h

/-- What is on the LZ side decides, in a block that is not halted, whether an LZ command can halt it. -/
theorem CannotHalt.congr {s t : State} (h : CannotHalt s) (hagree : LzAgree s t) (ht : t.running) : CannotHalt t := by
  obtain hsafe | ⟨-, hact⟩ := h
  · exact .inl ⟨ht, by rw [← hagree.params, ← hagree.lz]; exact hsafe.inv⟩
  · exact .inr ⟨ht, by rwa [← hagree.lz]⟩

/-- A run does on the LZ side what its LZ commands alone do. -/
theorem runInstrs_filter (is : List Instr) {s s' : State} (hagree : LzAgree s s') (hs : CannotHalt s) (hs' : s'.running) :
    ∃ t t', runInstrs is s = .next t ∧ runInstrs (is.filter Instr.isLz) s' = .next t' ∧ LzAgree t t' ∧ t.running := by
  induction is generalizing s s' with
  | nil => exact ⟨s, s', rfl, rfl, hagree, hs.running⟩
  | cons i is ih =>
    obtain ⟨u, hu⟩ := exec_next i s
    rw [runInstrs_cons_of_next hu]
    cases hi : i.isLz with
    | true =>
      obtain ⟨u', hu'⟩ := exec_next i s'
      rw [List.filter_cons_of_pos hi, runInstrs_cons_of_next hu']
      have hcan' : CannotHalt u' := exec_cannotHalt hi (hs.congr hagree hs') hu'
      exact ih (exec_lzAgree hi (hs.running.trans hs'.symm) hagree hu hu') (exec_cannotHalt hi hs hu) hcan'.running
    | false =>
      rw [List.filter_cons_of_neg (by simp [hi])]
      obtain ⟨hother, herr⟩ := exec_other hi hu
      have hrun : u.running := herr.trans hs.running
      exact ih ⟨hother.params.symm.trans hagree.params, hother.lz.symm.trans hagree.lz, hother.lzo.symm.trans hagree.lzo⟩
        (hs.congr hother hrun) hs'

/-- Settles O48: on the LZ side the run does what the frame alone does (`runInstrs_filter`, `frameAppendsFrameBeats`). -/
theorem interleavedFrameAppendsFrameBeats : Obligations.InterleavedFrameAppendsFrameBeats := by
  unfold Obligations.InterleavedFrameAppendsFrameBeats
  intro s k xs is hs hact hk1 hk8 hne hxs hfilter
  obtain ⟨t, t', hrun, hrun', hagree, ht⟩ := runInstrs_filter is (s := s) ⟨rfl, rfl, rfl⟩ (.inr ⟨hs, hact⟩) hs
  obtain ⟨v, hv, hframe, hclosed, -⟩ := frameAppendsFrameBeats s k xs hs hact hk1 hk8 hne hxs
  obtain rfl : t' = v := Host.Outcome.next.inj (hrun'.symm.trans (hfilter ▸ hv))
  refine ⟨t, hrun, ht, by rw [hagree.lz, hclosed], ?_⟩
  rw [hagree.lzo, hframe]

end Sys2Proof.Machine
end

section
/-! PROOFS. The shape of a frame's output (41_lzw_encoder.md R155, R157): full sub-blocks and one shorter last one. -/

namespace Sys2Proof.Machine

/-- A byte string is full chunks of 255 bytes and fewer than 255 more. -/
theorem exists_full_chunks (bs : List Byte) :
    ∃ (chunks : List (List Byte)) (last : List Byte), (∀ c ∈ chunks, c.length = 255) ∧ last.length ≤ 254 ∧
      bs = chunks.flatten ++ last := by
  induction hn : bs.length using Nat.strong_induction_on generalizing bs with
  | _ n ih =>
    obtain hshort | hlong := Nat.lt_or_ge 254 bs.length
    · obtain ⟨chunks, last, hfull, hlast, heq⟩ := ih (bs.drop 255).length (by rw [List.length_drop]; omega) _ rfl
      refine ⟨bs.take 255 :: chunks, last, ?_, hlast, ?_⟩
      · exact List.forall_mem_cons.2 ⟨by rw [List.length_take]; omega, hfull⟩
      · rw [List.flatten_cons, List.append_assoc, ← heq, List.take_append_drop]
    · exact ⟨[], bs, by simp, hlong, rfl⟩

theorem length_packBits (bits : List Bool) : (packBits bits).length = ceilDiv bits.length 8 := by
  rw [packBits, List.length_map, List.length_range]

theorem packBits_ne_nil {bits : List Bool} (h : bits ≠ []) : packBits bits ≠ [] := by
  have hpos := List.length_pos_iff.2 h
  refine List.ne_nil_of_length_pos ?_
  rw [length_packBits, ceilDiv]
  omega

/-- A frame has packed bytes: its Clear code. -/
theorem pack_lzwCodes_ne_nil (m : MinRoot) (k : Nat) {xs : List Nat} (h : xs ≠ []) : pack (lzwCodes m k xs) ≠ [] := by
  obtain ⟨x, xs, rfl⟩ := List.exists_cons_of_ne_nil h
  refine packBits_ne_nil (List.ne_nil_of_length_pos ?_)
  rw [lzwCodes, codeBits_cons, List.length_append, length_wideCode_bits]
  simp only
  omega

/-- The chunks of a byte string: the full ones, and the shorter one if a byte is left. -/
theorem exists_chunks {bs : List Byte} (h : bs ≠ []) :
    ∃ chunks : List (List Byte), chunks.flatten = bs ∧ chunks ≠ [] ∧ (∀ c ∈ chunks, 1 ≤ c.length ∧ c.length ≤ 255) ∧
      (∀ c ∈ chunks.dropLast, c.length = 255) ∧ chunks.length = ceilDiv bs.length 255 ∧
      (blocks bs).map dataBeat = (chunks.flatMap fun c => BitVec.ofNat 8 c.length :: c).map dataBeat := by
  obtain ⟨full, last, hfull, hlast, rfl⟩ := exists_full_chunks bs
  have hlen := length_flatten_full hfull
  have hbeats : chunkBeats full = full.flatMap fun c => (BitVec.ofNat 8 c.length :: c).map dataBeat :=
    List.flatMap_congr fun c hc => by rw [hfull c hc]; rfl
  have hsize : ∀ c ∈ full, 1 ≤ c.length ∧ c.length ≤ 255 := fun c hc => by
    have := hfull c hc
    omega
  rw [blocks_chunks full last hfull hlast, List.length_append, hlen, hbeats]
  simp only [List.map_flatMap]
  obtain rfl | hne := eq_or_ne last []
  · rw [List.append_nil] at h
    refine ⟨full, by simp, fun h0 => h (by simp [h0]), hsize, fun c hc => hfull c (List.mem_of_mem_dropLast hc), ?_, by simp⟩
    rw [ceilDiv, List.length_nil]
    omega
  · have hpos := List.length_pos_iff.2 hne
    refine ⟨full ++ [last], by simp, by simp, ?_, by simpa using hfull, ?_, by simp [hne]⟩
    · simp only [List.mem_append, List.mem_singleton]
      rintro c (hc | rfl)
      exacts [hsize c hc, by omega]
    · rw [ceilDiv, List.length_append, List.length_singleton]
      omega

/-- The bytes of the sub-blocks: those of the chunks, and one length byte each. -/
theorem length_flatMap_sized (chunks : List (List Byte)) :
    (chunks.flatMap fun c => BitVec.ofNat 8 c.length :: c).length = chunks.flatten.length + chunks.length := by
  induction chunks with
  | nil => rfl
  | cons c chunks ih =>
    simp only [List.flatMap_cons, List.length_append, List.length_cons, List.flatten_cons, ih]
    omega

/-- Settles O50: the chunks of the packed bytes (`exists_chunks`), each sent behind its length byte. -/
theorem frameOutputHasItsShape : Obligations.FrameOutputHasItsShape := by
  unfold Obligations.FrameOutputHasItsShape
  intro m k xs _ _ hne _
  obtain ⟨chunks, hflat, hnil, hsize, hfull, hcount, hbeats⟩ := exists_chunks (pack_lzwCodes_ne_nil m k hne)
  refine ⟨chunks, hflat, hnil, hsize, hfull, ?_, ?_⟩
  · rw [frameBeats_eq, hbeats, List.map_flatMap]
    rfl
  · rw [frameBeats_eq, hbeats, List.length_cons, List.length_append, List.length_map, length_flatMap_sized, hflat, hcount,
      List.length_singleton]
    omega

end Sys2Proof.Machine
end

section
/-! PROOFS. The codes of the functional form of a frame (41_lzw_encoder.md R149, R153): its table, and the width law. -/

namespace Sys2Proof.Machine

/-! ### Tables -/

/-- A table of the functional form with the next code `n`: its codes were given out in order, newest first, each to a pair of a
code that stands for a string and an index. -/
inductive GrownTable (k r : Nat) : Nat → Table → Prop where
  | nil : GrownTable k r (firstFree r) []
  | cons {n : Nat} {tab : Table} {p : Nat} (x : Nat) (htab : GrownTable k r n tab) (hp : DataCode k r n p) :
      GrownTable k r (n + 1) (((p, x), n) :: tab)

theorem GrownTable.firstFree_le {k r n : Nat} {tab : Table} (h : GrownTable k r n tab) : firstFree r ≤ n := by
  induction h with
  | nil => exact le_rfl
  | cons x _ _ ih => omega

/-- A code found in the table is one of those given out. -/
theorem GrownTable.dataCode_of_lookup {k r n : Nat} {tab : Table} (h : GrownTable k r n tab) {key : Nat × Nat} {c : Nat}
    (hfind : tab.lookup key = some c) : DataCode k r n c := by
  induction h with
  | nil => simp at hfind
  | @cons n tab p x htab hp ih =>
    rw [List.lookup_cons] at hfind
    split at hfind
    · obtain rfl := Option.some.inj hfind
      exact .inr ⟨htab.firstFree_le, Nat.lt_succ_self _⟩
    · exact (ih hfind).mono (Nat.le_succ _)

/-- A code that stands for a string is neither the Clear code nor the End code (41_lzw_encoder.md R141). -/
theorem DataCode.ne_clear_end {k r n c : Nat} (h : DataCode k r n c) (hkr : k ≤ r) : c ≠ clearCode r ∧ c ≠ endCode r := by
  have hle : 2 ^ k ≤ 2 ^ r := Nat.pow_le_pow_right (by decide) hkr
  simp only [DataCode, firstFree, clearCode, endCode] at *
  omega

/-! ### The width law -/

/-- `bitlen(v)` is the least width that `v` fits (00_scope.md R12). -/
theorem bitlen_le_iff {v w : Nat} : bitlen v ≤ w ↔ v < 2 ^ w := by
  unfold bitlen
  split
  · next h0 => simp [h0]
  · next h0 => rw [Nat.succ_le_iff, Nat.log2_lt h0]

/-- The width law starts at `r + 1` (41_lzw_encoder.md R149). -/
theorem lawWidth_zero {r : Nat} (hr1 : 1 ≤ r) (hr8 : r ≤ 8) : lawWidth r 0 = r + 1 := by
  have hfits : bitlen (2 ^ r + 1) ≤ r + 1 := bitlen_le_iff.2 (endCode_lt hr1 le_rfl)
  simp only [lawWidth, Nat.add_zero]
  omega

/-- A width step takes the width law from one data code to the next (41_lzw_encoder.md R145, R149). -/
theorem grownWidth_lawWidth {r j : Nat} (hr : r ≤ 8) (hj : firstFree r + j ≤ 4095) :
    grownWidth (lawWidth r j) (firstFree r + j) = lawWidth r (j + 1) := by
  have hn : firstFree r + j = 2 ^ r + 1 + j + 1 := by
    rw [firstFree]
    omega
  have hlaw : ∀ v, v ≤ 4095 → min 12 (max (r + 1) (bitlen v)) = max (r + 1) (bitlen v) := fun v hv => by
    have h12 : bitlen v ≤ 12 := bitlen_le_iff.2 (by omega)
    omega
  rw [hn, lawWidth, lawWidth, ← Nat.add_assoc, hlaw _ (by omega), hlaw _ (by omega)]
  rw [hn] at hj
  generalize 2 ^ r + 1 + j = v at *
  generalize hw : max (r + 1) (bitlen v) = w
  have hv : v < 2 ^ w := bitlen_le_iff.1 (by omega)
  unfold grownWidth
  by_cases hfull : 2 ^ w ≤ v + 1
  · have hnew : ¬bitlen (v + 1) ≤ w := mt bitlen_le_iff.1 hfull.not_gt
    have hsucc : bitlen (v + 1) ≤ w + 1 := bitlen_le_iff.2 (by rw [Nat.pow_succ]; omega)
    have hw12 : w < 12 := (Nat.pow_lt_pow_iff_right (by decide)).1 (show 2 ^ w < 2 ^ 12 by omega)
    rw [if_pos ⟨hfull, hw12⟩]
    omega
  · have hold : bitlen (v + 1) ≤ w := bitlen_le_iff.2 (by omega)
    have hmono : bitlen v ≤ bitlen (v + 1) := bitlen_le_iff.2 ((Nat.lt_succ_self v).trans (bitlen_le_iff.1 le_rfl))
    rw [if_neg (fun h => hfull h.1)]
    omega

/-- The codes of the loop follow the width law, `j` data codes into a table generation (41_lzw_encoder.md R149). -/
theorem widthsFollowLaw_lzwLoop {k r : Nat} (hkr : k ≤ r) (hr1 : 1 ≤ r) (hr8 : r ≤ 8) {xs : List Nat} (hxs : ∀ x ∈ xs, x < 2 ^ k)
    {j : Nat} {tab : Table} {pfx : Nat} (htab : GrownTable k r (firstFree r + j) tab) (hpfx : DataCode k r (firstFree r + j) pfx)
    (hj : firstFree r + j ≤ 4095) : widthsFollowLaw r j (lzwLoop r (lawWidth r j) (firstFree r + j) tab pfx xs) = true := by
  have hdata {n c : Nat} (h : DataCode k r n c) : c ≠ clearCode r := (h.ne_clear_end hkr).1
  induction xs generalizing j tab pfx with
  | nil =>
    simp [lzwLoop, widthsFollowLaw, hdata hpfx, grownWidth_lawWidth hr8 hj]
  | cons x xs ih =>
    obtain ⟨hx, hxs⟩ := List.forall_mem_cons.1 hxs
    cases hfind : tab.lookup (pfx, x) with
    | some c =>
      simp only [lzwLoop, hfind]
      exact ih hxs htab (htab.dataCode_of_lookup hfind) hj
    | none =>
      simp only [lzwLoop, hfind, widthsFollowLaw, decide_true, Bool.true_and, if_neg (hdata hpfx)]
      split
      · have hfree := firstFree_le hr8
        have hclear := ih hxs (j := 0) .nil (.inl hx) (by omega)
        rw [lawWidth_zero hr1 hr8] at hclear
        simpa [widthsFollowLaw, grownWidth_lawWidth hr8 hj] using hclear
      · next hroom =>
        rw [Config.tableSize] at hroom
        rw [grownWidth_lawWidth hr8 hj]
        exact ih hxs (j := j + 1) (.cons x htab hpfx) (.inl hx) (by omega)

/-- Settles O49: the Clear code opens a generation, and the loop follows the law from there (`widthsFollowLaw_lzwLoop`). -/
theorem codeWidthsFollowTheLaw : Obligations.CodeWidthsFollowTheLaw := by
  unfold Obligations.CodeWidthsFollowTheLaw
  intro m k xs _ hk8 hne hxs
  obtain ⟨x, xs, rfl⟩ := List.exists_cons_of_ne_nil hne
  obtain ⟨hx, hxs⟩ := List.forall_mem_cons.1 hxs
  obtain ⟨hr1, hkr, hr8⟩ := rootWidth_range m hk8
  have hfree := firstFree_le hr8
  have hloop := widthsFollowLaw_lzwLoop hkr hr1 hr8 hxs (j := 0) .nil (.inl hx) (by omega)
  rw [lawWidth_zero hr1 hr8] at hloop
  simpa [lzwCodes, widthsFollowLaw, lawWidth_zero hr1 hr8] using hloop

end Sys2Proof.Machine
end

section
/-! PROOFS. The reference decoder reads a frame back (41_lzw_encoder.md R158, 95_test_vectors.md section 4): the sub-blocks, the
packed bits, and the codes, for which the decoder holds the strings of the encoder's table one code behind (`Follows`). -/

namespace Sys2Proof.Machine

/-! ### Sub-blocks and bits -/

/-- The decoder takes one sub-block off. -/
theorem subBlockData_block (fuel : Nat) {c : List Byte} (hc : 1 ≤ c.length ∧ c.length ≤ 255) (rest : List Nat) :
    subBlockData (fuel + 1) ((BitVec.ofNat 8 c.length :: c).map BitVec.toNat ++ rest) =
      (subBlockData fuel rest).map (c.map BitVec.toNat ++ ·) := by
  have hlen : (BitVec.ofNat 8 c.length).toNat = (c.map BitVec.toNat).length := by
    rw [BitVec.toNat_ofNat, List.length_map]
    omega
  rw [List.map_cons, List.cons_append, subBlockData, hlen, List.drop_left, List.take_left, if_neg (by rw [List.length_map]; omega),
    if_neg (by rw [List.length_append]; omega)]

/-- The decoder takes all sub-blocks off, up to the terminator. -/
theorem subBlockData_chunks {chunks : List (List Byte)} (h : ∀ c ∈ chunks, 1 ≤ c.length ∧ c.length ≤ 255) {fuel : Nat}
    (hfuel : chunks.length < fuel) :
    subBlockData fuel ((chunks.flatMap fun c => BitVec.ofNat 8 c.length :: c).map BitVec.toNat ++ [0]) =
      some (chunks.flatten.map BitVec.toNat) := by
  obtain ⟨fuel, rfl⟩ := Nat.exists_eq_add_one_of_ne_zero (Nat.ne_zero_of_lt hfuel)
  induction chunks generalizing fuel with
  | nil => rfl
  | cons c chunks ih =>
    obtain ⟨hc, h⟩ := List.forall_mem_cons.1 h
    rw [List.length_cons] at hfuel
    obtain ⟨fuel, rfl⟩ := Nat.exists_eq_add_one_of_ne_zero (show fuel ≠ 0 by omega)
    rw [List.flatMap_cons, List.map_append, List.append_assoc, subBlockData_block _ hc, ih h fuel (by omega), Option.map_some,
      List.flatten_cons, List.map_append]

/-- The decoder's bits of the bytes are the machine's. -/
theorem bytesBits_toNat (bs : List Byte) : bytesBits (bs.map BitVec.toNat) = bs.flatMap byteBits := by
  rw [bytesBits, List.flatMap_map]
  rfl

theorem testBit_numOfBits (bits : List Bool) (i : Nat) : (numOfBits bits).testBit i = bits.getD i false := by
  induction bits generalizing i with
  | nil => simp [numOfBits]
  | cons b bits ih =>
    rw [numOfBits, Nat.add_comm]
    cases i with
    | zero => cases b <;> simp [Nat.testBit_zero]
    | succ i =>
      rw [Nat.testBit_succ, List.getD_cons_succ, ← ih]
      have hb := b.toNat_lt
      congr 1
      omega

/-- At most eight bits are the low bits of the byte they are packed into, and the others are 0 (20_memory.md R63). -/
theorem byteBits_numOfBits {bits : List Bool} (h : bits.length ≤ 8) :
    byteBits (BitVec.ofNat 8 (numOfBits bits)) = bits ++ List.replicate (8 - bits.length) false := by
  refine List.ext_getElem (by simp; omega) fun i hi _ => ?_
  have hi8 : i < 8 := by simpa using hi
  simp only [byteBits, List.getElem_map, List.getElem_range, BitVec.getLsbD_ofNat, hi8, decide_true, Bool.true_and,
    testBit_numOfBits, List.getElem_append, List.getElem_replicate]
  split
  · next hlt => rw [List.getD_eq_getElem _ _ hlt]
  · next hge => rw [List.getD_eq_default _ _ (by omega)]

/-- The bits of the packed bytes are the packed bits, and the padding (41_lzw_encoder.md R154). -/
theorem packBits_unpack (bits : List Bool) : ∃ pad, (packBits bits).flatMap byteBits = bits ++ pad := by
  induction hn : bits.length using Nat.strong_induction_on generalizing bits with
  | _ n ih =>
    obtain hlong | hshort := Nat.lt_or_ge 7 bits.length
    · obtain ⟨pad, hpad⟩ := ih (bits.drop 8).length (by rw [List.length_drop]; omega) _ rfl
      have hlen : (bits.take 8).length = 8 := by rw [List.length_take]; omega
      have hbyte := byteBits_numOfBits hlen.le
      rw [hlen, Nat.sub_self, List.replicate_zero, List.append_nil] at hbyte
      refine ⟨pad, ?_⟩
      rw [← List.take_append_drop 8 bits, ← hbyte, packBits_byte, List.flatMap_cons, hpad, List.append_assoc]
    · obtain rfl | hne := eq_or_ne bits []
      · exact ⟨[], rfl⟩
      · have hpos := List.length_pos_iff.2 hne
        refine ⟨List.replicate (8 - bits.length) false, ?_⟩
        rw [packBits, show ceilDiv bits.length 8 = 1 by rw [ceilDiv]; omega, List.range_one, List.map_singleton,
          List.flatMap_singleton, Nat.mul_zero, List.drop_zero, List.take_of_length_le (by omega), byteBits_numOfBits (by omega)]

/-! ### One code -/

section
variable {r fuel : Nat} {d : DecState} {c : Nat} (hc : c < 2 ^ d.w) (pos : Nat) (rest : List Bool)
include hc

theorem decodeLoop_clear (h : c = clearCode r) :
    decodeLoop r (fuel + 1) d pos (WideCode.bits ⟨c, d.w⟩ ++ rest) = decodeLoop r fuel (DecState.init r) (pos + d.w) rest := by
  have hlen : (WideCode.bits ⟨c, d.w⟩).length = d.w := length_wideCode_bits _
  rw [decodeLoop, if_neg (by rw [List.length_append]; omega), List.take_left' hlen, List.drop_left' hlen, numOfBits_wideCode hc]
  exact if_pos h

theorem decodeLoop_end (h : c = endCode r) :
    decodeLoop r (fuel + 1) d pos (WideCode.bits ⟨c, d.w⟩ ++ rest) = some ([], pos + d.w) := by
  have hlen : (WideCode.bits ⟨c, d.w⟩).length = d.w := length_wideCode_bits _
  have hne : c ≠ clearCode r := by
    rw [h, endCode, clearCode]
    omega
  rw [decodeLoop, if_neg (by rw [List.length_append]; omega), List.take_left' hlen, List.drop_left' hlen, numOfBits_wideCode hc]
  exact (if_neg hne).trans (if_pos h)

theorem decodeLoop_data (h : c ≠ clearCode r ∧ c ≠ endCode r) {ent : List Nat} (hent : d.entry c = some ent) :
    decodeLoop r (fuel + 1) d pos (WideCode.bits ⟨c, d.w⟩ ++ rest) =
      (decodeLoop r fuel (d.after c ent) (pos + d.w) rest).map fun p => (ent ++ p.1, p.2) := by
  have hlen : (WideCode.bits ⟨c, d.w⟩).length = d.w := length_wideCode_bits _
  obtain ⟨hclear, hend⟩ := h
  rw [decodeLoop, if_neg (by rw [List.length_append]; omega), List.take_left' hlen, List.drop_left' hlen, numOfBits_wideCode hc]
  simp only [if_neg hclear, if_neg hend, hent]

end

/-! ### Strings -/

/-- The string of indices that a code of the functional form's table stands for (41_lzw_encoder.md R141). -/
def codeString : Table → Nat → List Nat
  | [], c => [c]
  | ((p, x), n) :: tab, c => if c = n then codeString tab p ++ [x] else codeString tab c

theorem codeString_ne_nil (tab : Table) (c : Nat) : codeString tab c ≠ [] := by
  induction tab generalizing c with
  | nil => exact List.cons_ne_nil _ _
  | cons e tab ih =>
    obtain ⟨⟨p, x⟩, n⟩ := e
    unfold codeString
    split
    · simp
    · exact ih c

theorem codeString_cons_self (tab : Table) (p x n : Nat) : codeString (((p, x), n) :: tab) n = codeString tab p ++ [x] := if_pos rfl

/-- A new entry leaves the strings of the codes before it. -/
theorem GrownTable.codeString_cons {k r n : Nat} {tab : Table} (h : GrownTable k r n tab) (hkr : k ≤ r) {c : Nat}
    (hc : DataCode k r n c) (p x : Nat) : codeString (((p, x), n) :: tab) c = codeString tab c :=
  if_neg (hc.lt hkr h.firstFree_le).ne

/-- An index stands for itself. -/
theorem GrownTable.codeString_index {k r n : Nat} {tab : Table} (h : GrownTable k r n tab) (hkr : k ≤ r) {x : Nat}
    (hx : x < 2 ^ k) : codeString tab x = [x] := by
  induction h with
  | nil => rfl
  | cons y htab _ ih => rw [htab.codeString_cons hkr (.inl hx), ih]

/-- The code in a pair found in the table is one that stands for a string. -/
theorem GrownTable.dataCode_prefix {k r n : Nat} {tab : Table} (h : GrownTable k r n tab) {p x c : Nat}
    (hfind : tab.lookup (p, x) = some c) : DataCode k r n p := by
  induction h with
  | nil => simp at hfind
  | @cons n tab q y htab hq ih =>
    rw [List.lookup_cons] at hfind
    split at hfind
    · next heq =>
      obtain ⟨rfl, rfl⟩ : p = q ∧ x = y := by simpa using heq
      exact hq.mono (Nat.le_succ _)
    · exact (ih hfind).mono (Nat.le_succ _)

/-- The code given to a pair stands for the string of the pair's code and the pair's index. -/
theorem GrownTable.codeString_of_lookup {k r n : Nat} {tab : Table} (h : GrownTable k r n tab) (hkr : k ≤ r) {p x c : Nat}
    (hfind : tab.lookup (p, x) = some c) : codeString tab c = codeString tab p ++ [x] := by
  induction h with
  | nil => simp at hfind
  | @cons n tab q y htab hq ih =>
    rw [List.lookup_cons] at hfind
    split at hfind
    · next heq =>
      obtain rfl := Option.some.inj hfind
      obtain ⟨rfl, rfl⟩ : p = q ∧ x = y := by simpa using heq
      rw [codeString_cons_self, htab.codeString_cons hkr hq]
    · rw [htab.codeString_cons hkr (htab.dataCode_of_lookup hfind), htab.codeString_cons hkr (htab.dataCode_prefix hfind),
        ih hfind]

/-! ### The decoder behind the encoder -/

/-- The decoder knows the strings of the encoder's table below its own next code. -/
def KnowsStrings (k r : Nat) (tab : Table) (d : DecState) : Prop :=
  ∀ c, DataCode k r d.nxt c → d.str c = some (codeString tab c)

/-- The encoder, with the next code `n`, has given the decoder's next code to the decoder's previous code and an index that the
decoder is about to see: the first of the string of the encoder's matched code. -/
structure OneBehind (k r n : Nat) (tab : Table) (pfx : Nat) (d : DecState) (p x : Nat) (tab' : Table) : Prop where
  prev  : d.prev = some p
  next  : n = d.nxt + 1
  table : tab = ((p, x), d.nxt) :: tab'
  older : GrownTable k r d.nxt tab'
  known : DataCode k r d.nxt p
  first : (codeString tab pfx).head? = some x

/-- The decoder before it reads the encoder's matched code: level with the encoder at the start of a table generation,
and one entry behind after that. -/
structure Follows (k r n : Nat) (tab : Table) (pfx : Nat) (d : DecState) : Prop where
  strings : KnowsStrings k r tab d
  behind  : (d.prev = none ∧ d.nxt = n) ∨ ∃ p x tab', OneBehind k r n tab pfx d p x tab'

/-- What the decoder follows depends on the matched code through the first index of its string only. -/
theorem Follows.congr_prefix {k r n : Nat} {tab : Table} {p q : Nat} {d : DecState} (h : Follows k r n tab p d)
    (hhead : (codeString tab q).head? = (codeString tab p).head?) : Follows k r n tab q d :=
  ⟨h.strings, h.behind.imp_right fun ⟨p', x, tab', hb⟩ => ⟨p', x, tab', { hb with first := hhead.trans hb.first }⟩⟩

section
variable {k r n : Nat} {tab : Table} {pfx : Nat} {d : DecState} (h : Follows k r n tab pfx d) (hkr : k ≤ r)
include h hkr

/-- The decoder finds the string of the encoder's matched code, in the table or as the entry about to be added. -/
theorem Follows.entry (hpfx : DataCode k r n pfx) : d.entry pfx = some (codeString tab pfx) := by
  obtain ⟨hprev, hnxt⟩ | ⟨p, x, tab', hb⟩ := h.behind
  · simp only [DecState.entry, hprev]
    exact h.strings pfx (hnxt ▸ hpfx)
  · simp only [DecState.entry, hb.prev]
    by_cases hlt : pfx < d.nxt
    · have hstr := h.strings pfx (hpfx.imp_right fun hfree => ⟨hfree.1, hlt⟩)
      rw [if_pos ⟨hlt, by rw [hstr]; rfl⟩, hstr]
    · have hnew : pfx = d.nxt := by
        have hlt' := hpfx.lt hkr (hb.next ▸ hb.older.firstFree_le.trans (Nat.le_succ _))
        have hnext := hb.next
        omega
      have hfirst := hb.first
      have hp := h.strings p hb.known
      obtain ⟨y, ys, hys⟩ := List.exists_cons_of_ne_nil (codeString_ne_nil tab' p)
      rw [hb.table, hb.older.codeString_cons hkr hb.known] at hp
      rw [hnew, hb.table, codeString_cons_self, hys] at hfirst
      obtain rfl : y = x := by simpa using hfirst
      rw [if_neg (fun hcon => hlt hcon.1), if_pos hnew, hp, hys, hnew, hb.table, codeString_cons_self, hys]

/-- After the code the decoder is level: it knows every string of the encoder's table. -/
theorem Follows.after (hn : n ≤ 4095) :
    (d.after pfx (codeString tab pfx)).prev = some pfx ∧ (d.after pfx (codeString tab pfx)).nxt = n ∧
      (d.after pfx (codeString tab pfx)).w = grownWidth d.w n ∧ KnowsStrings k r tab (d.after pfx (codeString tab pfx)) := by
  obtain ⟨hprev, hnxt⟩ | ⟨p, x, tab', hb⟩ := h.behind
  · simp only [DecState.after, hprev, hnxt, true_and]
    exact fun c hc => h.strings c (hnxt.symm ▸ hc)
  · have hnext := hb.next
    have hroom : d.nxt < Config.tableSize := by
      rw [Config.tableSize]
      omega
    have hp := h.strings p hb.known
    rw [hb.table, hb.older.codeString_cons hkr hb.known] at hp
    have htake : (codeString tab pfx).take 1 = [x] := by
      rw [List.take_one, hb.first]
      rfl
    simp only [DecState.after, hb.prev, if_pos hroom, hp, htake, Option.getD_some, ← hnext, true_and]
    intro c hc
    by_cases hnew : c = d.nxt
    · simp only [DecState.str, hnew, hb.table, codeString_cons_self, List.lookup_cons, beq_self_eq_true]
    · have hold := h.strings c (hc.imp_right fun ⟨hfree, hlt⟩ => ⟨hfree, by dsimp only at hlt; omega⟩)
      simp only [DecState.str, List.lookup_cons, beq_eq_false_iff_ne.2 hnew]
      exact hold

end

@[simp] theorem init_w (r : Nat) : (DecState.init r).w = r + 1 := rfl

/-- The initial table of the decoder gives each index itself. -/
theorem init_str {r c : Nat} (h : c < clearCode r) : (DecState.init r).str c = some [c] := by
  have hlookup : ∀ l : List Nat, c ∈ l → (l.map fun c => (c, [c])).lookup c = some [c] := fun l hl => by
    induction l with
    | nil => simp at hl
    | cons a l ih =>
      rw [List.map_cons, List.lookup_cons]
      obtain rfl | hne := eq_or_ne c a
      · rw [beq_self_eq_true]
      · rw [beq_eq_false_iff_ne.2 hne]
        exact ih ((List.mem_cons.1 hl).resolve_left hne)
  exact hlookup _ (List.mem_range.2 h)

/-- At the start of a table generation the decoder follows the encoder, whose matched code is an index. -/
theorem follows_init {k r : Nat} (hkr : k ≤ r) (pfx : Nat) : Follows k r (firstFree r) [] pfx (DecState.init r) := by
  refine ⟨fun c hc => ?_, .inl ⟨rfl, rfl⟩⟩
  have hlt : c < clearCode r := by
    obtain hc | ⟨hge, hlt⟩ := hc
    · exact hc.trans_le (Nat.pow_le_pow_right (by decide) hkr)
    · exact absurd hlt (by simp only [DecState.init]; omega)
  exact init_str hlt

/-- What holds where the encoder writes its matched code with the decoder's width, and the decoder is about to read
it. -/
structure InStep (k r n : Nat) (tab : Table) (pfx : Nat) (d : DecState) : Prop where
  table   : GrownTable k r n tab
  data    : DataCode k r n pfx
  follows : Follows k r n tab pfx d
  max     : n ≤ 4095
  fits    : n ≤ 2 ^ d.w
  narrow  : r + 1 ≤ d.w
  wide    : d.w ≤ 12

/-- The encoder and the decoder are in step at the start of a table generation. -/
theorem inStep_init {k r : Nat} (hkr : k ≤ r) (hr1 : 1 ≤ r) (hr8 : r ≤ 8) {x : Nat} (hx : x < 2 ^ k) :
    InStep k r (firstFree r) [] x (DecState.init r) where
  table := .nil
  data := .inl hx
  follows := follows_init hkr x
  max := (firstFree_le hr8).trans (by decide)
  fits := firstFree_le_two_pow hr1
  narrow := le_rfl
  wide := by
    rw [init_w]
    omega

section
variable {k r n : Nat} {tab : Table} {pfx : Nat} {d : DecState} (h : InStep k r n tab pfx d) (hkr : k ≤ r)
include h hkr

/-- An index that extends the match keeps both in step. -/
theorem InStep.extend {x c : Nat} (hfind : tab.lookup (pfx, x) = some c) : InStep k r n tab c d := by
  have hstring := h.table.codeString_of_lookup hkr hfind
  obtain ⟨y, ys, hys⟩ := List.exists_cons_of_ne_nil (codeString_ne_nil tab pfx)
  exact { h with
    data := h.table.dataCode_of_lookup hfind
    follows := h.follows.congr_prefix (by rw [hstring, hys]; rfl) }

/-- The decoder reads the matched code: it answers its string, and both have the same width again. -/
theorem InStep.read (fuel pos : Nat) (rest : List Bool) :
    ∃ d', d'.prev = some pfx ∧ d'.nxt = n ∧ d'.w = grownWidth d.w n ∧ KnowsStrings k r tab d' ∧
      decodeLoop r (fuel + 1) d pos (WideCode.bits ⟨pfx, d.w⟩ ++ rest) =
        (decodeLoop r fuel d' (pos + d.w) rest).map fun p => (codeString tab pfx ++ p.1, p.2) := by
  obtain ⟨hprev, hnxt, hwidth, hknows⟩ := h.follows.after hkr h.max
  have hlt : pfx < 2 ^ d.w := (h.data.lt hkr h.table.firstFree_le).trans_le h.fits
  exact ⟨_, hprev, hnxt, hwidth, hknows, decodeLoop_data hlt pos rest (h.data.ne_clear_end hkr) (h.follows.entry hkr h.data)⟩

/-- When the encoder has inserted the pair of the matched code and the next index, both are in step. -/
theorem InStep.insert {x : Nat} (hx : x < 2 ^ k) (hroom : n < 4095) {d' : DecState} (hprev : d'.prev = some pfx)
    (hnxt : d'.nxt = n) (hwidth : d'.w = grownWidth d.w n) (hknows : KnowsStrings k r tab d') :
    InStep k r (n + 1) (((pfx, x), n) :: tab) x d' := by
  obtain ⟨hgrow, hgrow12⟩ := grownWidth_range h.wide n
  have htable := GrownTable.cons x h.table h.data
  refine ⟨htable, .inl hx, ⟨fun c hc => ?_, .inr ⟨pfx, x, tab, hprev, by rw [hnxt], by rw [hnxt], ?_, ?_, ?_⟩⟩, hroom, ?_, ?_, ?_⟩
  · rw [h.table.codeString_cons hkr (hnxt ▸ hc), hknows c hc]
  · exact hnxt.symm ▸ h.table
  · exact hnxt.symm ▸ h.data
  · rw [htable.codeString_index hkr hx]
    rfl
  · rw [hwidth]
    exact succ_le_two_pow_grownWidth h.wide h.fits h.max
  · rw [hwidth]
    exact h.narrow.trans hgrow
  · rwa [hwidth]

end

/-- The decoder gives back the string of the matched code and the indices still to come, and has read all bits of the codes. -/
theorem decodeLoop_lzwLoop {k r : Nat} (hkr : k ≤ r) (hr1 : 1 ≤ r) (hr8 : r ≤ 8) {xs : List Nat} (hxs : ∀ x ∈ xs, x < 2 ^ k)
    {n : Nat} {tab : Table} {pfx : Nat} {d : DecState} (h : InStep k r n tab pfx d) (pad : List Bool) (pos : Nat) {fuel : Nat}
    (hfuel : (codeBits (lzwLoop r d.w n tab pfx xs)).length < fuel) :
    decodeLoop r fuel d pos (codeBits (lzwLoop r d.w n tab pfx xs) ++ pad) =
      some (codeString tab pfx ++ xs, pos + (codeBits (lzwLoop r d.w n tab pfx xs)).length) := by
  induction xs generalizing n tab pfx d pos fuel with
  | nil =>
    have hw := h.narrow
    obtain ⟨hgrow, -⟩ := grownWidth_range h.wide n
    simp only [lzwLoop, codeBits_cons, codeBits_nil, List.append_nil, List.length_append, length_wideCode_bits] at hfuel ⊢
    obtain ⟨fuel, rfl⟩ := Nat.exists_eq_add_of_le' (show 2 ≤ fuel by omega)
    obtain ⟨d', -, -, hwidth, -, hread⟩ := h.read hkr (fuel + 1) pos (WideCode.bits ⟨endCode r, grownWidth d.w n⟩ ++ pad)
    rw [List.append_assoc, hread, ← hwidth, decodeLoop_end (by rw [hwidth]; exact endCode_lt hr1 (hw.trans hgrow)) _ _ rfl]
    simp [Nat.add_assoc]
  | cons x xs ih =>
    obtain ⟨hx, hxs⟩ := List.forall_mem_cons.1 hxs
    cases hfind : tab.lookup (pfx, x) with
    | some c =>
      simp only [lzwLoop, hfind] at hfuel ⊢
      rw [ih hxs (h.extend hkr hfind) pos hfuel, h.table.codeString_of_lookup hkr hfind, List.append_assoc, List.singleton_append]
    | none =>
      have hw := h.narrow
      obtain ⟨hgrow, -⟩ := grownWidth_range h.wide n
      simp only [lzwLoop, hfind] at hfuel ⊢
      by_cases hfull : n + 1 = Config.tableSize
      · simp only [if_pos hfull, codeBits_cons, List.length_append, length_wideCode_bits] at hfuel ⊢
        obtain ⟨fuel, rfl⟩ := Nat.exists_eq_add_of_le' (show 2 ≤ fuel by omega)
        obtain ⟨d', -, -, hwidth, -, hread⟩ := h.read hkr (fuel + 1) pos (WideCode.bits ⟨clearCode r, grownWidth d.w n⟩ ++
          (codeBits (lzwLoop r (r + 1) (firstFree r) [] x xs) ++ pad))
        have hnext := ih hxs (inStep_init hkr hr1 hr8 hx) (pos + d.w + d'.w) (fuel := fuel) (by rw [init_w]; omega)
        rw [init_w] at hnext
        rw [List.append_assoc, List.append_assoc, hread, ← hwidth,
          decodeLoop_clear (by rw [hwidth]; exact clearCode_lt (hw.trans hgrow)) _ _ rfl, hnext]
        simp [codeString, Nat.add_assoc]
      · simp only [if_neg hfull, codeBits_cons, List.length_append, length_wideCode_bits] at hfuel ⊢
        have hroom : n < 4095 := by
          have hmax := h.max
          rw [Config.tableSize] at hfull
          omega
        obtain ⟨fuel, rfl⟩ := Nat.exists_eq_add_one_of_ne_zero (show fuel ≠ 0 by omega)
        obtain ⟨d', hprev, hnxt, hwidth, hknows, hread⟩ := h.read hkr fuel pos
          (codeBits (lzwLoop r (grownWidth d.w n) (n + 1) (((pfx, x), n) :: tab) x xs) ++ pad)
        have hstep := h.insert hkr hx hroom hprev hnxt hwidth hknows
        rw [← hwidth] at hread hfuel ⊢
        rw [List.append_assoc, hread, ih hxs hstep (pos + d.w) (by omega), hstep.table.codeString_index hkr hx]
        simp [Nat.add_assoc]

/-- The decoder gives back the indices of a frame's codes, and has read all their bits. -/
theorem decodeLoop_lzwCodes (m : MinRoot) {k : Nat} (hk : k ≤ 8) {x : Nat} {xs : List Nat} (hxs : ∀ y ∈ x :: xs, y < 2 ^ k)
    (pad : List Bool) {fuel : Nat} (hfuel : (codeBits (lzwCodes m k (x :: xs))).length < fuel) :
    decodeLoop (rootWidth m k) fuel (DecState.init (rootWidth m k)) 0 (codeBits (lzwCodes m k (x :: xs)) ++ pad) =
      some (x :: xs, (codeBits (lzwCodes m k (x :: xs))).length) := by
  obtain ⟨hr1, hkr, hr8⟩ := rootWidth_range m hk
  obtain ⟨hx, hxs⟩ := List.forall_mem_cons.1 hxs
  obtain ⟨fuel, rfl⟩ := Nat.exists_eq_add_one_of_ne_zero (Nat.ne_zero_of_lt hfuel)
  simp only [lzwCodes, codeBits_cons, List.length_append, length_wideCode_bits] at hfuel ⊢
  generalize rootWidth m k = r at *
  have hclear := decodeLoop_clear (d := DecState.init r) (fuel := fuel) (clearCode_lt le_rfl) 0
    (codeBits (lzwLoop r (r + 1) (firstFree r) [] x xs) ++ pad) rfl
  have hloop := decodeLoop_lzwLoop hkr hr1 hr8 hxs (inStep_init hkr hr1 hr8 hx) pad (0 + (r + 1)) (fuel := fuel)
    (by rw [init_w]; omega)
  rw [init_w] at hloop hclear
  rw [List.append_assoc, hclear, hloop]
  simp [codeString]

/-- Settles O51: the sub-blocks (`subBlockData_chunks`) give the packed bytes, these the bits of the codes (`packBits_unpack`), and
these the indices (`decodeLoop_lzwCodes`). -/
theorem frameDecodesToItsIndices : Obligations.FrameDecodesToItsIndices := by
  unfold Obligations.FrameDecodesToItsIndices
  intro m k xs _ hk8 hne hxs
  obtain ⟨x, xs, rfl⟩ := List.exists_cons_of_ne_nil hne
  obtain ⟨-, -, hr8⟩ := rootWidth_range m hk8
  obtain ⟨chunks, hflat, -, hsize, -, -, hbeats⟩ := exists_chunks (pack_lzwCodes_ne_nil m k hne)
  obtain ⟨pad, hpad⟩ := packBits_unpack (codeBits (lzwCodes m k (x :: xs)))
  have hroot : (BitVec.ofNat 8 (rootWidth m k)).toNat = rootWidth m k := by
    rw [BitVec.toNat_ofNat]
    omega
  have hbytes : (frameBeats m k (x :: xs)).map (fun b => b.data.toNat) =
      rootWidth m k :: ((chunks.flatMap fun c => BitVec.ofNat 8 c.length :: c).map BitVec.toNat ++ [0]) := by
    rw [frameBeats_eq, hbeats, List.map_cons, List.map_append, List.map_map]
    exact congrArg₂ List.cons hroot rfl
  have hdata := subBlockData_chunks hsize
    (fuel := ((chunks.flatMap fun c : List Byte => BitVec.ofNat 8 c.length :: c).map BitVec.toNat ++ [0]).length + 1) (by
      rw [List.length_append, List.length_map, length_flatMap_sized]
      omega)
  have hloop := decodeLoop_lzwCodes m hk8 hxs pad (fuel := (codeBits (lzwCodes m k (x :: xs)) ++ pad).length + 1) (by
    rw [List.length_append]
    omega)
  rw [hbytes]
  simp only [refDecode, hdata, bytesBits_toNat, hflat, pack, hpad, hloop, List.length_map, length_packBits, if_true]

end Sys2Proof.Machine
end

section
/-! PROOFS. The parameters of a block stay: neither side of an accepted word writes them, nor does any other event (42_control.md R193). -/

namespace Sys2Proof.Machine

theorem LzSide.params {s t : State} (h : LzSide s t) : t.params = s.params := by rw [h.frame]

theorem PqSide.params {s t : State} (h : PqSide s t) : t.params = s.params := by rw [h.frame]

/-- A command changes no parameter. -/
theorem exec_params {i : Instr} {s t : State} (h : exec i s = .next t) : t.params = s.params := by
  obtain ⟨-, hlz⟩ | ⟨-, rfl⟩ | hpq := exec_side h
  · exact hlz.params
  · exact unlessHalted_of (P := fun t => t.params = s.params) rfl (clearErrors_params s)
  · exact hpq.params

/-- Settles O19: a step executes a command (`exec_params`), rejects a word, takes an output, resets the block to its own parameters
or idles. -/
theorem parametersNeverChange : Obligations.ParametersNeverChange := by
  unfold Obligations.ParametersNeverChange
  intro s t hstep
  obtain ⟨-, rfl⟩ | ⟨w, es, -, ⟨i, -, hexec⟩ | ⟨r, -, rfl⟩⟩ | ⟨es, -, rfl⟩ | ⟨es, -, rfl⟩ | ⟨es, -, rfl⟩ := step_cases hstep
  · rfl
  · exact exec_params (s := { s with port := es }) hexec
  · exact (pqSide_rejectWord r _).params
  · exact takeBeat_params _
  · exact takeWord_params _
  · exact resetBlock_params _

end Sys2Proof.Machine
end

section
/-! PROOFS. The `STATUS` word bit by bit (10_state.md R42), and `CLRERR` (42_control.md R192). -/

namespace Sys2Proof.Machine

/-- The bits of `x` from bit 0 on are those of the list, and 0 above them. -/
def HasBits {n : Nat} (x : BitVec n) (bits : List Bool) : Prop := ∀ j : Nat, x.getLsbD j = bits.getD j false

theorem hasBits_zero (n : Nat) : HasBits 0#n [] := fun _ => BitVec.getLsbD_zero

theorem HasBits.append {n m : Nat} {x : BitVec n} {bits : List Bool} (h : HasBits x bits) (y : BitVec m) :
    HasBits (x ++ y) ((List.range m).map y.getLsbD ++ bits) := by
  intro j
  rw [BitVec.getLsbD_append]
  split
  · next hj =>
    rw [List.getD_append _ _ _ _ (by simpa using hj)]
    simp [hj]
  · next hj => rw [h, List.getD_append_right _ _ _ _ (by simpa using hj), List.length_map, List.length_range]

theorem HasBits.append_ofBool {n : Nat} {x : BitVec n} {bits : List Bool} (h : HasBits x bits) (b : Bool) :
    HasBits (x ++ BitVec.ofBool b) (b :: bits) := by
  simpa using h.append (BitVec.ofBool b)

/-- The bits of `STATUS` from bit 0 on, up to its highest defined one (10_state.md R42). -/
def statusBits (e : ErrBits) (st : Phase) (isExact pv act : Bool) : List Bool :=
  [act, pv, st.bits.getLsbD 0, st.bits.getLsbD 1, isExact, false, false, false, e.input, e.palette, e.internal, e.cmd, e.opcode]

/-- `STATUS` is the concatenation of its listed bits, below its 19 reserved ones. -/
theorem statusWord_hasBits (e : ErrBits) (st : Phase) (isExact pv act : Bool) :
    HasBits (statusWord e st isExact pv act) (statusBits e st isExact pv act) :=
  have herrors := hasBits_zero 19 |>.append_ofBool e.opcode |>.append_ofBool e.cmd |>.append_ofBool e.internal
    |>.append_ofBool e.palette |>.append_ofBool e.input
  herrors |>.append 0#3 |>.append_ofBool isExact |>.append st.bits |>.append_ofBool pv |>.append_ofBool act

/-- Clearing the recoverable errors zeroes the bits 8, 9, 11 and 12 of `STATUS` (42_control.md R192). -/
theorem statusBits_clearRecoverable (e : ErrBits) (st : Phase) (isExact pv act : Bool) (j : Nat) :
    (statusBits e.clearRecoverable st isExact pv act).getD j false =
      if j = 8 ∨ j = 9 ∨ j = 11 ∨ j = 12 then false else (statusBits e st isExact pv act).getD j false := by
  obtain hj | hj := Nat.lt_or_ge j 13
  · interval_cases j <;> rfl
  · rw [if_neg (by omega), List.getD_eq_default _ _ hj, List.getD_eq_default _ _ hj]

theorem exec_clrerr_running {s : State} (hs : s.running) : exec .clrerr s = .next (clearErrors s) :=
  congrArg Host.Outcome.next (unlessHalted_running hs)

theorem exec_clrerr_halted {s : State} (hs : s.halted) : exec .clrerr s = .next s :=
  congrArg Host.Outcome.next (unlessHalted_halted hs)

/-- Settles O25: `CLRERR` of a running block is `clearErrors`, whose `STATUS` the two laws of its bits give. -/
theorem clrerrClearsTheRecoverableBits : Obligations.ClrerrClearsTheRecoverableBits := by
  unfold Obligations.ClrerrClearsTheRecoverableBits
  refine ⟨rfl, fun s => ⟨fun hs => ⟨clearErrors s, exec_clrerr_running hs, rfl, fun j => ?_⟩, exec_clrerr_halted⟩⟩
  rw [regValue, regValue, statusWord_hasBits, statusWord_hasBits]
  exact statusBits_clearRecoverable ..

end Sys2Proof.Machine
end

section
/-! PROOFS. The registers as `RDREG` answers them (42_control.md R191, 10_state.md R40 to R55): each word's fields, said once. -/

namespace Sys2Proof.Machine

/-- A field with no bit set holds 0. -/
theorem hasField_zero_of_bits {v : Word} {lo n : Nat} (h : ∀ i < n, v.getLsbD (lo + i) = false) : hasField v lo n 0 := by
  have hzero : v.extractLsb' lo n = 0#n := BitVec.eq_of_getLsbD_eq fun i hi => by
    rw [BitVec.getLsbD_extractLsb', h i hi, Bool.and_false, BitVec.getLsbD_zero]
  rw [hasField, hzero, BitVec.toNat_zero]

/-! ### `STATUS` and `CAPS` -/

/-- The reserved bits of `STATUS` read 0 (10_state.md R42). -/
theorem statusWord_reserved (e : ErrBits) (st : Phase) (isExact pv act : Bool) :
    hasField (statusWord e st isExact pv act) 5 3 0 ∧ hasField (statusWord e st isExact pv act) 13 19 0 := by
  constructor <;> refine hasField_zero_of_bits fun i hi => (statusWord_hasBits _ _ _ _ _ _).trans ?_
  · interval_cases i <;> rfl
  · exact List.getD_eq_default _ _ (Nat.le_add_right 13 i)

/-- The fields of `CAPS` (10_state.md R43). -/
theorem capsWord_fields (p : Params) : hasField (capsWord p) 0 4 p.minRoot.toNat ∧ hasField (capsWord p) 4 4 12 ∧
    hasField (capsWord p) 8 9 256 ∧ hasField (capsWord p) 17 15 0 := by
  unfold capsWord hasField
  cases p.minRoot <;> decide

/-- Settles O26: `RDREG` answers `regValue` (`exec_rdreg`), whose bits the laws of `statusWord` and `capsWord` give. -/
theorem rdregReadsIdStatusCaps : Obligations.RdregReadsIdStatusCaps := by
  unfold Obligations.RdregReadsIdStatusCaps
  intro s n
  refine ⟨_, exec_rdreg n s, ?_, ?_, ?_⟩
  · rintro rfl
    rfl
  · rintro rfl
    have hbit := statusWord_hasBits s.err s.pq.st s.pq.isExact s.lz.pv s.lz.act
    obtain ⟨hmiddle, htop⟩ := statusWord_reserved s.err s.pq.st s.pq.isExact s.lz.pv s.lz.act
    refine ⟨hbit 0, hbit 1, (statusWord_phase ..).trans ?_, hbit 4, hmiddle, hbit 8, hbit 9, hbit 10, hbit 11, hbit 12, htop⟩
    cases s.pq.st <;> rfl
  · rintro rfl
    exact capsWord_fields s.params

/-! ### The registers of the units -/

/-- A register with a flag in bit 31 and a number in its low bits (10_state.md R48, R52). -/
theorem flag_number_fields {m n : Nat} (b : Bool) (x : BitVec n) :
    (BitVec.ofBool b ++ 0#m ++ x).getLsbD (m + n) = b ∧ (BitVec.ofBool b ++ 0#m ++ x).extractLsb' n m = 0#m ∧
      (BitVec.ofBool b ++ 0#m ++ x).extractLsb' 0 n = x := by
  refine ⟨?_, ?_, BitVec.extractLsb'_append_eq_right⟩
  · rw [getLsbD_append_of_ge _ _ (Nat.le_add_left n m), Nat.add_sub_cancel, getLsbD_append_of_ge _ _ le_rfl, Nat.sub_self]
    simp
  · rw [BitVec.extractLsb'_append_eq_of_le le_rfl, Nat.sub_self, BitVec.extractLsb'_append_eq_right]

/-- Settles O27: each LZ register is one field of the unit, and `LZ_PREFIX` a flag and a number. -/
theorem rdregReadsTheLzUnit : Obligations.RdregReadsTheLzUnit := by
  unfold Obligations.RdregReadsTheLzUnit
  intro s n
  refine ⟨_, exec_rdreg n s, ?_, ?_, ?_, ?_, ?_, ?_, ?_⟩ <;> rintro rfl
  · exact BitVec.toNat_setWidth_of_le (by decide)
  · exact BitVec.toNat_setWidth_of_le (by decide)
  · exact BitVec.toNat_setWidth_of_le (by decide)
  · exact BitVec.toNat_setWidth_of_le (by decide)
  · obtain ⟨hflag, hzero, hnumber⟩ := flag_number_fields (m := 19) s.lz.pv s.lz.pfx
    exact ⟨hflag, congrArg BitVec.toNat hzero, congrArg BitVec.toNat hnumber⟩
  · rfl
  · rfl

/-- `Q_GCTSZ` reads 0 when no palette is built (10_state.md R44). -/
theorem gctszWord_unbuilt {q : PqUnit} (h : q.st ≠ .built) : gctszWord q = 0 := if_neg h

/-- `Q_GCTSZ` of a built palette is the exponent of its size, less 1 (10_state.md R44). -/
theorem gctszWord_built {q : PqUnit} (h : q.st = .built) {j : Nat} (hj : j < 8) (hsize : q.palP.toNat = 2 ^ (j + 1)) :
    (gctszWord q).toNat = j := by
  rw [gctszWord, if_pos h, hsize, Nat.log2_two_pow, Nat.add_sub_cancel, BitVec.toNat_setWidth_of_le (by decide), BitVec.toNat_ofNat,
    Nat.mod_eq_of_lt hj]

/-- Settles O28: each PQ register is one field of the unit, `Q_NDISTINCT` a flag and a number, and `Q_GCTSZ` depends on the phase. -/
theorem rdregReadsThePqUnit : Obligations.RdregReadsThePqUnit := by
  unfold Obligations.RdregReadsThePqUnit
  intro s n
  refine ⟨_, exec_rdreg n s, ?_, ?_, ?_, ?_, ?_, ?_⟩ <;> rintro rfl
  · rfl
  · obtain ⟨hflag, hzero, hnumber⟩ := flag_number_fields (m := 22) s.pq.ovf s.pq.exn
    exact ⟨hflag, congrArg BitVec.toNat hzero, congrArg BitVec.toNat hnumber⟩
  · exact BitVec.toNat_setWidth_of_le (by decide)
  · exact BitVec.toNat_setWidth_of_le (by decide)
  · exact BitVec.toNat_setWidth_of_le (by decide)
  · exact ⟨gctszWord_unbuilt, fun hbuilt _ hj hsize => gctszWord_built hbuilt hj hsize⟩

end Sys2Proof.Machine
end

section
/-! PROOFS. `NOP` is the one command that can never change state (42_control.md R190). -/

namespace Sys2Proof.Machine

/-- A command that makes some view of the state another one changes the state. -/
theorem exec_ne_self {β : Type} {i : Instr} {s t : State} (view : State → β) (h : exec i s = .next t) (hview : view t ≠ view s) :
    exec i s ≠ .next s := by
  intro hself
  obtain rfl := Host.Outcome.next.inj (h.symm.trans hself)
  exact hview rfl

/-- A response-bearing command changes every state: it appends a word (30_encoding.md R86). -/
theorem exec_ne_self_of_responds {i : Instr} (hi : i.opcode.responds = true) (s : State) : exec i s ≠ .next s := by
  obtain ⟨t, hexec, hanswer⟩ := exec_answers i s
  rw [hi] at hanswer
  obtain ⟨v, hrsp⟩ := hanswer
  exact exec_ne_self State.rsp hexec (by simp [hrsp])

/-- A refused command changes a state that has no command error yet (60_exceptions.md R214). -/
theorem exec_ne_self_of_refused {i : Instr} {s : State} (h : exec i s = .next (raise .cmd s)) (herr : s.err.cmd = false) :
    exec i s ≠ .next s :=
  exec_ne_self (fun t => t.err.cmd) h (by simp [herr, ErrBits.set])

/-- Every command but `NOP` changes some state. -/
theorem exists_exec_ne_self {i : Instr} (hi : i ≠ .nop) : ∃ s : State, exec i s ≠ .next s := by
  cases i with
  | nop => exact absurd rfl hi
  | lzStart k =>
    exact ⟨{ State.reset with lz := { LzUnit.reset with act := true } },
      exec_ne_self_of_refused ((exec_lzStart_running rfl k).trans (congrArg _ (lzStart_open rfl k))) rfl⟩
  | lzIndex x =>
    exact ⟨State.reset, exec_ne_self_of_refused ((exec_lzIndex_running rfl x).trans (congrArg _ (lzIndex_closed rfl x))) rfl⟩
  | lzFinish =>
    exact ⟨State.reset, exec_ne_self_of_refused ((exec_lzFinish_running rfl).trans (congrArg _ (lzFinish_closed rfl))) rfl⟩
  | qBegin => exact ⟨State.reset, exec_ne_self (fun t => t.pq.st) (exec_qBegin_running rfl) (by decide)⟩
  | qPixel c => exact ⟨State.reset, exec_ne_self_of_refused (exec_qPixel_refused rfl (by decide) c) rfl⟩
  | clrerr => exact ⟨raise .cmd State.reset, exec_ne_self (fun t => t.err.cmd) (exec_clrerr_running rfl) (by decide)⟩
  | qBuild | qMap | qRdpal | rdreg => exact ⟨State.reset, exec_ne_self_of_responds rfl _⟩

/-- A word with opcode 0 other than `NOP`'s sets a reserved bit (30_encoding.md R85). -/
theorem reservedBits_nop_ne_zero {w : Word} (hop : opField w = 0#4) (hw : w ≠ 0) : reservedBits .nop w ≠ 0 := fun hres => by
  have hfield : Opcode.ofField (opField w) = some .nop := Opcode.ofField_eq_some_iff.2 hop
  have hzero : encode .nop = w := encodeOfDecodedCommandIsTheWord w .nop (decode_of_noReservedBits hfield hres)
  exact hw hzero.symm

/-- Settles O24: a word with opcode 0 that is not `NOP`'s is rejected unanswered, and every other command changes some state
(`exists_exec_ne_self`). -/
theorem nopChangesNothing : Obligations.NopChangesNothing := by
  unfold Obligations.NopChangesNothing
  refine ⟨rfl, fun _ => rfl, fun s w hs hop hw => ?_, fun _ => exists_exec_ne_self⟩
  have hreject : decode w = .reject (.reservedBits .nop) :=
    decode_of_reservedBits (Opcode.ofField_eq_some_iff.2 hop) (reservedBits_nop_ne_zero hop hw)
  rw [acceptWord_reject hreject, rejectWord_running hs]
  rfl

end Sys2Proof.Machine
end

section
/-! PROOFS. Every step gives a next state, and a block with nothing offered keeps its state (60_exceptions.md R210, R221, R230). -/

namespace Sys2Proof.Machine

/-- A step with no event to serve keeps the state (60_exceptions.md R230). -/
theorem step_of_no_event {s : State} (h : nextEvent s.cmdReady s.port = none) : step s = .next s := by
  simp only [step, servePort, h]

/-- An accepted word is never refused and never faults (60_exceptions.md R221). -/
theorem acceptWord_next (w : Word) (s : State) : ∃ t, acceptWord w s = .next t := by
  obtain ⟨t, haccept, -⟩ := acceptWord_answers w s
  exact ⟨t, haccept⟩

/-- Settles O11: an empty port has no next event. -/
theorem idleBlockKeepsItsState : Obligations.IdleBlockKeepsItsState := by
  unfold Obligations.IdleBlockKeepsItsState
  intro s hport
  exact step_of_no_event (by rw [hport, nextEvent])

/-- Settles O18, by the event the step serves: a word is accepted (`acceptWord_next`), and the other events are updates. -/
theorem everyStepGivesANextState : Obligations.EveryStepGivesANextState := by
  unfold Obligations.EveryStepGivesANextState
  intro s
  cases hnext : nextEvent s.cmdReady s.port with
  | none => exact ⟨s, step_of_no_event hnext⟩
  | some served =>
    obtain ⟨e, es⟩ := served
    rw [step_of_nextEvent hnext]
    cases e with
    | command w => exact acceptWord_next w { s with port := es }
    | takeBeat | takeWord | resetEdge => exact ⟨_, rfl⟩

end Sys2Proof.Machine
end

section
/-! PROOFS. The `err` output (60_exceptions.md R217). -/

namespace Sys2Proof.Machine

/-- An error raised shows in the `err` output (60_exceptions.md R217). -/
theorem raise_errOut (e : ErrKind) (s : State) : (raise e s).errOut = true :=
  (ErrBits.any_iff _).2 ⟨e, s.err.set_bit_self e⟩

/-- With `err_internal` low, clearing the recoverable errors leaves no error bit set (42_control.md R192). -/
theorem ErrBits.clearRecoverable_of_running {e : ErrBits} (h : e.internal = false) : e.clearRecoverable = ErrBits.reset := by
  rw [ErrBits.clearRecoverable, h, ErrBits.reset]

/-- Settles O23: a raised error sets its own bit only (`ErrBits.set_bit_other`), and `CLRERR` of a running block leaves none. -/
theorem errOutputIsTheOrOfTheBits : Obligations.ErrOutputIsTheOrOfTheBits := by
  unfold Obligations.ErrOutputIsTheOrOfTheBits
  refine ⟨fun _ => rfl, fun s e => ⟨raise_errOut e s, s.err.set_bit_self e, fun f hf => s.err.set_bit_other hf⟩,
    fun s hs => ⟨clearErrors s, exec_clrerr_running hs, ?_⟩⟩
  rw [State.errOut, clearErrors_err, ErrBits.clearRecoverable_of_running hs]
  rfl

end Sys2Proof.Machine
end

section
/-! PROOFS. The halted block (60_exceptions.md R218): it answers `RDREG` with the register, every other response-bearing word with
the failure word, and does nothing else until a reset edge. -/

namespace Sys2Proof.Machine

variable {s : State}

/-- A command other than `RDREG` in the halted state answers the failure word if it is response-bearing, and does nothing else. -/
theorem exec_halted (hs : s.halted) {i : Instr} (hi : i.opcode ≠ .rdreg) :
    exec i s = .next (if i.opcode.responds then respondFailure s else s) := by
  cases i with
  | nop => rfl
  | rdreg n => exact absurd rfl hi
  | lzStart | lzIndex | lzFinish | qBegin | qPixel | qBuild | qMap | qRdpal | clrerr =>
    exact congrArg Host.Outcome.next (unlessHalted_halted hs)

/-- A word rejected in the halted state raises no error, and is answered as in the running one. -/
theorem rejectWord_halted (hs : s.halted) (r : Reject) : rejectWord r s = if rejectResponds r then respondFailure s else s := by
  unfold rejectWord
  rw [if_pos hs]

/-- The bits that `RDREG` reserves are 27:4 (30_encoding.md R83, 60_exceptions.md R218). -/
theorem reservedBits_rdreg_eq_zero_iff {w : Word} : reservedBits .rdreg w = 0 ↔ w.extractLsb' 4 24 = 0#24 := by
  have hmask (j : Nat) : (Opcode.operandMask .rdreg).getLsbD j = decide (j < 4) := Nat.testBit_two_pow_sub_one 4 j
  have hfield (i : Nat) (hi : i < 24) : (w.extractLsb' 4 24).getLsbD i = w.getLsbD (4 + i) := by simp [hi]
  rw [reservedBits_eq_zero_iff]
  constructor
  · intro h
    refine BitVec.eq_of_getLsbD_eq fun i hi => ?_
    have hbit := h (4 + i) (by omega)
    rw [hfield i hi, BitVec.getLsbD_zero]
    simpa [hmask] using hbit
  · intro h j hj hw
    rw [hmask, decide_eq_true_iff]
    by_contra hge
    have hbit := hfield (j - 4) (by omega)
    rw [h, BitVec.getLsbD_zero, Nat.add_sub_cancel' (by omega), hw] at hbit
    cases hbit

/-- Accepting a word with opcode 9 in the halted state answers the register, or the failure word when a bit of 27:4 is set. -/
theorem acceptWord_halted_rdreg (hs : s.halted) {w : Word} (hop : Opcode.ofField (opField w) = some .rdreg) :
    acceptWord w s = .next (respond
      (if w.extractLsb' 4 24 = 0#24 then regValue s (RegName.ofNumber (w.extractLsb' 0 4)) else Config.failureWord) s) := by
  by_cases hres : reservedBits .rdreg w = 0
  · rw [acceptWord_command (decode_of_noReservedBits hop hres), if_pos (reservedBits_rdreg_eq_zero_iff.1 hres)]
    exact exec_rdreg (fieldREG w) s
  · rw [acceptWord_reject (decode_of_reservedBits hop hres), rejectWord_halted hs,
      if_neg (mt reservedBits_rdreg_eq_zero_iff.2 hres)]
    rfl

/-- Accepting a word of any other opcode in the halted state depends on its opcode alone. -/
theorem acceptWord_halted_other (hs : s.halted) {w : Word} {op : Opcode} (hop : Opcode.ofField (opField w) = some op)
    (hne : op ≠ .rdreg) : acceptWord w s = .next (if op.responds then respondFailure s else s) := by
  by_cases hres : reservedBits op w = 0
  · rw [acceptWord_command (decode_of_noReservedBits hop hres), exec_halted hs (by simpa using hne), Opcode.opcode_instr]
  · rw [acceptWord_reject (decode_of_reservedBits hop hres), rejectWord_halted hs, rejectResponds]

/-- Accepting a word with a reserved opcode in the halted state does nothing. -/
theorem acceptWord_halted_reserved (hs : s.halted) {w : Word} (hop : Opcode.ofField (opField w) = none) :
    acceptWord w s = .next s := by
  rw [acceptWord_reject (decode_of_reservedOpcode (Opcode.ofField_eq_none_iff.1 hop)), rejectWord_halted hs]
  rfl

/-- The response-bearing opcodes other than `RDREG`'s are 6, 7 and 8 (30_encoding.md R82, R86). -/
theorem Opcode.responds_iff_of_ne_rdreg {n : BitVec 4} {op : Opcode} (h : Opcode.ofField n = some op) (hne : op ≠ .rdreg) :
    n ≠ 0x9#4 ∧ (op.responds = true ↔ n = 0x6#4 ∨ n = 0x7#4 ∨ n = 0x8#4) := by
  obtain rfl := Opcode.ofField_eq_some_iff.1 h
  cases op with
  | rdreg => exact absurd rfl hne
  | _ => decide

/-- What every word does in the halted state, `HaltedStep` of 60_exceptions.md R218. -/
theorem haltedStep_of_word (hs : s.halted) (w : Word) : acceptWord w s = .next { s with
    rsp :=
      if opField w = 0x9#4 then
        if w.extractLsb' 4 24 = 0#24 then s.rsp ++ [regValue s (RegName.ofNumber (w.extractLsb' 0 4))]
        else s.rsp ++ [0xFFFFFFFF]
      else if opField w = 0x6#4 ∨ opField w = 0x7#4 ∨ opField w = 0x8#4 then s.rsp ++ [0xFFFFFFFF]
      else s.rsp } := by
  cases hop : Opcode.ofField (opField w) with
  | none =>
    have hreserved : ∀ n : BitVec 4, Opcode.ofField n = none → n ≠ 0x9#4 ∧ ¬(n = 0x6#4 ∨ n = 0x7#4 ∨ n = 0x8#4) := by
      decide
    obtain ⟨h9, h678⟩ := hreserved _ hop
    rw [acceptWord_halted_reserved hs hop, if_neg h9, if_neg h678]
  | some op =>
    by_cases hrdreg : op = .rdreg
    · subst hrdreg
      rw [acceptWord_halted_rdreg hs hop, if_pos (show opField w = 0x9#4 from Opcode.ofField_eq_some_iff.1 hop)]
      split <;> rfl
    · obtain ⟨h9, h678⟩ := Opcode.responds_iff_of_ne_rdreg hop hrdreg
      rw [acceptWord_halted_other hs hop hrdreg, if_neg h9]
      simp only [← h678]
      split <;> rfl

/-- Settles O10: the words by `haltedStep_of_word`; a step that accepts a word keeps the error bits
(`acceptWord_err_of_halted`), and of the other events only the reset edge writes them. -/
theorem haltedBlockOnlyAnswers : Obligations.HaltedBlockOnlyAnswers := by
  unfold Obligations.HaltedBlockOnlyAnswers
  refine fun s hs => ⟨haltedStep_of_word hs, fun t hstep => ?_⟩
  have hstays {u : State} (hu : u.err = s.err) : ¬u.running := fun hrun => by
    rw [State.running, hu, hs] at hrun
    cases hrun
  cases hnext : nextEvent s.cmdReady s.port with
  | none =>
    obtain rfl := Host.Outcome.next.inj ((step_of_no_event hnext).symm.trans hstep)
    exact iff_of_false (hstays rfl) (by simp)
  | some served =>
    obtain ⟨e, es⟩ := served
    rw [step_of_nextEvent hnext] at hstep
    cases e with
    | command w => exact iff_of_false (hstays (acceptWord_err_of_halted (s := { s with port := es }) hstep hs)) (by simp)
    | takeBeat | takeWord =>
      obtain rfl := Host.Outcome.next.inj hstep
      exact iff_of_false (hstays rfl) (by simp)
    | resetEdge =>
      obtain rfl := Host.Outcome.next.inj hstep
      exact ⟨fun _ => ⟨es, rfl⟩, fun _ => rfl⟩

end Sys2Proof.Machine
end

section
/-! PROOFS. Which error an accepted word records (60_exceptions.md R214, R216). In an illegal phase a command only raises `ErrCmd`
(`exec_of_illegalPhase`); in a legal one its value decides (`exec_of_legalPhase`), and beyond that only the internal checks of an LZ
command can set a bit (`AtMostHalts`). -/

namespace Sys2Proof.Machine

/-! ### The LZ primitives -/

/-- From `s` to `t` no error was recorded, except perhaps `ErrInternal`. -/
def AtMostHalts (s t : State) : Prop := t.err = s.err ∨ t.err = s.err.set .internal

theorem AtMostHalts.trans {s t u : State} (h : AtMostHalts s t) (h' : AtMostHalts t u) : AtMostHalts s u := by
  have hset (e : ErrBits) : (e.set .internal).set .internal = e.set .internal := rfl
  unfold AtMostHalts at *
  obtain h | h := h
  · rwa [h] at h'
  · rw [h, hset, or_self] at h'
    exact .inr h'

/-- What does not halt the block recorded no error at all. -/
theorem AtMostHalts.err_of_running {s t : State} (h : AtMostHalts s t) (ht : t.running) : t.err = s.err := by
  obtain h | h := h
  · exact h
  · rw [State.running, h] at ht
    cases ht

/-- A command that goes on past a primitive records no other error when the continuation does not. -/
theorem AtMostHalts.andThen {s : State} {p : Progress} {f : State → Progress} (h : AtMostHalts s p.state)
    (hf : ∀ u : State, AtMostHalts u (f u).state) : AtMostHalts s (p.andThen f).state := by
  cases p with
  | going u => exact h.trans (hf u)
  | ended u => exact h

theorem atMostHalts_internalError (s : State) : AtMostHalts s (internalError s).state := by
  simp only [internalError, Progress.state]
  split <;> exact .inr rfl

theorem sendBlock_err (s : State) : (sendBlock s).err = s.err := by rw [sendBlock_eq]

theorem atMostHalts_pushByte (b : Byte) (s : State) : AtMostHalts s (pushByte b s).state := by
  unfold pushByte
  split
  · simp only [Progress.state]
    split
    · exact .inl (sendBlock_err _)
    · exact .inl rfl
  · exact atMostHalts_internalError s

theorem atMostHalts_drainBytes (fuel : Nat) (s : State) : AtMostHalts s (drainBytes fuel s).state := by
  induction fuel generalizing s with
  | zero => exact .inl rfl
  | succ fuel ih =>
    unfold drainBytes
    split
    · exact (atMostHalts_pushByte _ s).andThen fun u => ih (shiftByte u)
    · exact .inl rfl

theorem atMostHalts_emit (c w : Nat) (s : State) : AtMostHalts s (emit c w s).state := by
  unfold emit
  split
  · exact atMostHalts_internalError s
  · exact atMostHalts_drainBytes 3 (addBits c w s)

theorem atMostHalts_insertPair (p : Code) (x : Index) (s : State) : AtMostHalts s (insertPair p x s).state := by
  unfold insertPair
  split
  · exact atMostHalts_internalError s
  · simp only
    split
    · exact (atMostHalts_emit _ _ (addEntry p x s)).andThen fun _ => .inl rfl
    · exact .inl rfl

theorem flushBlock_err (s : State) : (flushBlock s).err = s.err := by rw [flushBlock_eq]

theorem atMostHalts_finalFlush (s : State) : AtMostHalts s (finalFlush s).state := by
  have hbits : AtMostHalts s (flushBits s).state := by
    unfold flushBits
    split
    · exact .inl rfl
    · exact (atMostHalts_pushByte _ s).andThen fun _ => .inl rfl
  exact hbits.andThen fun u => .inl (flushBlock_err u)

theorem atMostHalts_emitPrefix (x : Index) (s : State) : AtMostHalts s (emitPrefix x s).state :=
  (atMostHalts_emit _ _ s).andThen fun u =>
    AtMostHalts.trans (.inl (widthStep_err u)) ((atMostHalts_insertPair _ x _).andThen fun _ => .inl rfl)

theorem atMostHalts_sendTrailer (s : State) : AtMostHalts s (sendTrailer s).state :=
  (atMostHalts_emit _ _ s).andThen fun u =>
    AtMostHalts.trans (.inl (widthStep_err u)) ((atMostHalts_emit _ _ _).andThen fun v =>
      (atMostHalts_finalFlush v).andThen fun _ => .inl rfl)

theorem atMostHalts_consumeIndex (x : Index) (s : State) : AtMostHalts s (consumeIndex x s) := by
  unfold consumeIndex
  split
  · split
    · exact .inl rfl
    · exact atMostHalts_emitPrefix x s
  · exact .inl rfl

/-! ### One command, one error -/

/-- From `s` to `t` the error `e` was recorded, or for `none` no error, except perhaps `ErrInternal`. -/
def Records (e : Option ErrKind) (s t : State) : Prop :=
  match e with
  | some k => t.err = s.err.set k
  | none => AtMostHalts s t

/-- `LZ_START` with no frame open records the error of its exponent (41_lzw_encoder.md R160). -/
theorem lzStart_records {s : State} (hact : s.lz.act = false) (k : BitVec 4) :
    Records (valueError (.lzStart k) s) s (lzStart k s) := by
  simp only [valueError]
  split
  · next hk =>
    rw [lzStart_legal hact hk]
    exact atMostHalts_emit _ _ (outBeat _ (openFrame k s))
  · next hk =>
    rw [lzStart_illegal hact hk]
    rfl

/-- `LZ_INDEX` in an open frame records the error of its index (41_lzw_encoder.md R161). -/
theorem lzIndex_records {s : State} (hact : s.lz.act = true) (x : Index) : Records (valueError (.lzIndex x) s) s (lzIndex x s) := by
  simp only [valueError]
  split
  · next hx =>
    rw [lzIndex_accepted hact hx]
    exact atMostHalts_consumeIndex x (countIndex s)
  · next hx =>
    rw [lzIndex_bad hact (Nat.not_lt.1 hx)]
    rfl

/-- `LZ_FINISH` in an open frame records the error of an empty frame (41_lzw_encoder.md R163). -/
theorem lzFinish_records {s : State} (hact : s.lz.act = true) : Records (valueError .lzFinish s) s (lzFinish s) := by
  simp only [valueError]
  split
  · next hpv =>
    rw [lzFinish_prefix hact hpv]
    exact atMostHalts_sendTrailer s
  · next hpv =>
    rw [lzFinish_empty hact (Bool.not_eq_true _ ▸ hpv)]
    rfl

section
variable {s : State} (hs : s.running) {i : Instr}
include hs

/-- A command in an illegal phase raises `ErrCmd`, and answers the failure word if it is response-bearing (60_exceptions.md R214). -/
theorem exec_of_illegalPhase (hphase : legalPhase i s = false) :
    exec i s = .next (if i.opcode.responds then respondFailure (raise .cmd s) else raise .cmd s) := by
  cases i with
  | lzStart k => exact (exec_lzStart_running hs k).trans (congrArg _ (lzStart_open (by simpa [legalPhase] using hphase) k))
  | lzIndex x => exact (exec_lzIndex_running hs x).trans (congrArg _ (lzIndex_closed hphase x))
  | lzFinish => exact (exec_lzFinish_running hs).trans (congrArg _ (lzFinish_closed hphase))
  | qPixel c => exact exec_qPixel_refused hs (of_decide_eq_false hphase) c
  | qBuild q => exact (exec_qBuild_running hs q).trans (congrArg _ (if_neg (of_decide_eq_false hphase)))
  | qMap c => exact exec_qMap_unbuilt hs (of_decide_eq_false hphase) c
  | qRdpal x => exact exec_qRdpal_unbuilt hs (of_decide_eq_false hphase) x
  | nop | qBegin | rdreg | clrerr => cases hphase

/-- `Q_BUILD` while collecting records the error of its value (40_palette_quantizer.md R108). -/
theorem exec_qBuild_records (hphase : s.pq.st = .collect) (q : Bool) :
    ∃ t, exec (.qBuild q) s = .next t ∧ Records (valueError (.qBuild q) s) s t := by
  simp only [valueError]
  cases hany : s.pq.any with
  | false => exact ⟨_, exec_qBuild_empty hs hphase hany q, rfl⟩
  | true =>
    cases hovf : s.pq.ovf with
    | false => exact ⟨_, exec_qBuild_exact hs hphase hany hovf q, .inl rfl⟩
    | true =>
      cases q with
      | false => exact ⟨_, exec_qBuild_overflow hs hphase hany hovf, rfl⟩
      | true => exact ⟨_, exec_qBuild_quantized hs hphase hany hovf, .inl rfl⟩

/-- A command in a legal phase, other than `CLRERR`, records the error of its value (60_exceptions.md R216). -/
theorem exec_of_legalPhase (hclr : i ≠ .clrerr) (hphase : legalPhase i s = true) :
    ∃ t, exec i s = .next t ∧ Records (valueError i s) s t := by
  cases i with
  | lzStart k => exact ⟨_, exec_lzStart_running hs k, lzStart_records (by simpa [legalPhase] using hphase) k⟩
  | lzIndex x => exact ⟨_, exec_lzIndex_running hs x, lzIndex_records hphase x⟩
  | lzFinish => exact ⟨_, exec_lzFinish_running hs, lzFinish_records hphase⟩
  | qBuild q => exact exec_qBuild_records hs (of_decide_eq_true hphase) q
  | qPixel c => exact ⟨_, exec_qPixel_collect hs (of_decide_eq_true hphase) c, .inl rfl⟩
  | qMap c => exact ⟨_, exec_qMap_built hs (of_decide_eq_true hphase) c, .inl rfl⟩
  | qRdpal x => exact ⟨_, exec_qRdpal_built hs (of_decide_eq_true hphase) x, .inl rfl⟩
  | qBegin => exact ⟨_, exec_qBegin_running hs, .inl rfl⟩
  | rdreg n => exact ⟨_, exec_rdreg n s, .inl rfl⟩
  | nop => exact ⟨s, rfl, .inl rfl⟩
  | clrerr => exact absurd rfl hclr

end

/-- No value is a command error. -/
theorem valueError_ne_cmd (i : Instr) (s : State) : valueError i s ≠ some .cmd := by
  cases i with
  | lzStart | lzIndex | lzFinish =>
    simp only [valueError]
    split <;> simp
  | qBuild q =>
    simp only [valueError]
    split
    · simp
    · split <;> simp
  | nop | qBegin | qPixel | qMap | qRdpal | rdreg | clrerr => simp [valueError]

/-- What records an error other than `ErrCmd` leaves `err_cmd` as it is. -/
theorem Records.cmd {e : Option ErrKind} {s t : State} (h : Records e s t) (he : e ≠ some .cmd) : t.err.cmd = s.err.cmd := by
  cases e with
  | some k =>
    have hk : ErrKind.cmd ≠ k := fun hk => he (congrArg some hk.symm)
    exact (congrArg ErrBits.cmd h).trans (s.err.set_bit_other hk)
  | none =>
    have hkept : t.err = s.err ∨ t.err = s.err.set .internal := h
    obtain hkept | hset := hkept
    · rw [hkept]
    · rw [hset]
      rfl

/-- Settles O21: the two phases (`exec_of_illegalPhase`, `exec_of_legalPhase`); `CLRERR` clears `err_cmd`. -/
theorem illegalPhaseOnlyRaisesErrCmd : Obligations.IllegalPhaseOnlyRaisesErrCmd := by
  unfold Obligations.IllegalPhaseOnlyRaisesErrCmd
  refine fun i s hs => ⟨fun hphase => ?_, fun hphase => ?_⟩
  · rw [exec_of_illegalPhase hs hphase]
    cases i with
    | nop | qBegin | rdreg | clrerr => cases hphase
    | _ => rfl
  · by_cases hclr : i = .clrerr
    · subst hclr
      exact ⟨_, exec_clrerr_running hs, fun _ => rfl⟩
    · obtain ⟨t, hexec, hrecords⟩ := exec_of_legalPhase hs hclr hphase
      exact ⟨t, hexec, fun hcmd => (hrecords.cmd (valueError_ne_cmd i s)).trans hcmd⟩

/-! ### One word, one error -/

/-- An accepted word other than `CLRERR`'s records in a running block the first error in the order of 60_exceptions.md R216. -/
theorem acceptWord_records {w : Word} {s t : State} (h : acceptWord w s = .next t) (hs : s.running) (hw : w ≠ 0xA0000000) :
    Records (errorOf w s) s t := by
  cases hd : decode w with
  | reject r =>
    obtain rfl := Host.Outcome.next.inj ((acceptWord_reject hd s).symm.trans h)
    rw [errorOf, hd, rejectWord_running hs]
    rfl
  | command i =>
    have hexec : exec i s = .next t := (acceptWord_command hd s).symm.trans h
    have herror : errorOf w s = if legalPhase i s then valueError i s else some .cmd := by simp only [errorOf, hd]
    rw [herror]
    cases hphase : legalPhase i s with
    | false =>
      obtain rfl := Host.Outcome.next.inj ((exec_of_illegalPhase hs hphase).symm.trans hexec)
      cases i.opcode.responds <;> exact rfl
    | true =>
      have hclr : i ≠ .clrerr := fun hi => hw (eq_of_decode_clrerr (hi ▸ hd))
      obtain ⟨u, hu, hrecords⟩ := exec_of_legalPhase hs hclr hphase
      obtain rfl := Host.Outcome.next.inj (hu.symm.trans hexec)
      exact hrecords

/-- Settles O22: the word records the first error (`acceptWord_records`), and by the invariant the step does not halt the block. -/
theorem oneErrorInPriorityOrder : Obligations.OneErrorInPriorityOrder := by
  unfold Obligations.OneErrorInPriorityOrder
  intro s w rest hport hready
  obtain ⟨t, hstep⟩ := everyStepGivesANextState s
  have haccept : acceptWord w { s with port := rest } = .next t := (step_command hport hready).symm.trans hstep
  refine ⟨t, hstep, acceptWord_err_of_halted (s := { s with port := rest }) haccept, fun hinv => ?_⟩
  by_cases hw : w = 0xA0000000
  · subst hw
    exact acceptWord_clrerr_err (s := { s with port := rest }) haccept hinv.notHalted
  · have hrecords : Records (errorOf w s) s t :=
      acceptWord_records (s := { s with port := rest }) haccept hinv.notHalted hw
    have hrun : t.running := (everyStepKeepsTheInvariant s t hinv hstep).notHalted
    cases herror : errorOf w s with
    | some e =>
      rw [herror] at hrecords
      exact hrecords
    | none =>
      rw [herror] at hrecords
      simp only [if_neg hw]
      exact AtMostHalts.err_of_running hrecords hrun

end Sys2Proof.Machine
end

section
/-! PROOFS. The reset edge (70_reset_and_hazards.md R240): the reset table, what the registers read after it, and the invariant. -/

namespace Sys2Proof.Machine

/-- The reset state meets the reset table, whatever its parameters and whatever the host does next (70_reset_and_hazards.md R240). -/
theorem resetTable_resetFor (p : Params) (es : List HostEvent) : ResetTable { State.resetFor p with port := es } := by
  constructor
  case seen => exact fun b => Vector.getElem_replicate b.isLt
  all_goals rfl

/-- A reset edge that is next is served, whether or not a command could be accepted (70_reset_and_hazards.md R240). -/
theorem step_resetEdge {s : State} {rest : List HostEvent} (hport : s.port = .resetEdge :: rest) :
    step s = .next { State.resetFor s.params with port := rest } :=
  step_of_nextEvent (e := .resetEdge) (by rw [hport]; rfl)

/-- Settles O12: the step is the reset edge (`step_resetEdge`), and its state meets the table (`resetTable_resetFor`). -/
theorem resetGivesTheResetTable : Obligations.ResetGivesTheResetTable := by
  unfold Obligations.ResetGivesTheResetTable
  exact ⟨resetTable_resetFor Params.default [], fun s rest hport =>
    ⟨_, step_resetEdge hport, resetTable_resetFor s.params rest, rfl, rfl⟩⟩

/-- After reset every register but `ID` and `CAPS` reads 0 (70_reset_and_hazards.md R240). -/
theorem regValue_resetFor (p : Params) (r : RegName) :
    regValue (State.resetFor p) r = if r = .id then Config.idValue else if r = .caps then capsWord p else 0 := by
  cases r
  case status | lzPrefix | qNdistinct =>
    simp only [regValue, State.resetFor, reduceCtorEq, if_false]
    decide
  all_goals rfl

/-- `CAPS` for the two values of `LZW_MIN_ROOT` (10_state.md R43). -/
theorem capsWord_eq (p : Params) : capsWord p = match p.minRoot with | .two => 0x000100C2 | .one => 0x000100C1 := by
  unfold capsWord
  cases p.minRoot <;> rfl

/-- Settles O13: `RDREG` answers `regValue` (`exec_rdreg`), and numbers 0 and 2 are those of `ID` and `CAPS`. -/
theorem registersReadAfterReset : Obligations.RegistersReadAfterReset := by
  unfold Obligations.RegistersReadAfterReset
  intro p n
  have hnames : (RegName.ofNumber n = .id ↔ n = 0) ∧ (RegName.ofNumber n = .caps ↔ n = 2) := by
    revert n
    decide
  rw [exec_rdreg, regValue_resetFor, capsWord_eq]
  simp only [hnames]
  rfl

/-- Settles O55, by `inv_resetFor`. -/
theorem resetMeetsTheInvariant : Obligations.ResetMeetsTheInvariant := by
  unfold Obligations.ResetMeetsTheInvariant
  exact inv_resetFor

end Sys2Proof.Machine
end

section
/-! PROOFS. Backpressure (70_reset_and_hazards.md R250, R251): `cmd_ready` is high exactly when both streams fit their buffers, and while it
is low the step serves the oldest event that is no command. -/

namespace Sys2Proof.Machine

/-- With buffers of depth `d`, `cmd_ready` is high exactly when neither stream holds more than `d` entries (70_reset_and_hazards.md
R250). -/
theorem cmdReady_iff {s : State} {d : PNat} (hd : s.params.outDepth = some d) :
    s.cmdReady = true ↔ s.lzo.length ≤ d.val ∧ s.rsp.length ≤ d.val := by
  simp [State.cmdReady, hd, fitsDepth]

/-- With unbounded streams `cmd_ready` is always high (70_reset_and_hazards.md R250). -/
theorem cmdReady_of_unbounded {s : State} (h : s.params.outDepth = none) : s.cmdReady = true := by
  simp [State.cmdReady, h, fitsDepth]

section
variable {s : State} (hfull : s.cmdReady = false)
include hfull

/-- While `cmd_ready` is low, the oldest event that is no command is served, and the commands in front of it stay offered
(70_reset_and_hazards.md R250). -/
theorem step_behind_commands {ws : List Word} {e : HostEvent} {rest : List HostEvent} (he : ∀ w, e ≠ .command w)
    (hport : s.port = ws.map HostEvent.command ++ e :: rest) :
    step s = serve e { s with port := ws.map HostEvent.command ++ rest } :=
  step_of_nextEvent (by rw [hfull, nextEvent_waiting, hport, splitOther_commands_append ws rest he])

/-- While `cmd_ready` is low, a host that only offers commands is stuck (70_reset_and_hazards.md R251). -/
theorem step_only_commands {ws : List Word} (hport : s.port = ws.map HostEvent.command) : step s = .next s :=
  step_of_no_event (by rw [hfull, nextEvent_waiting, hport, splitOther_commands])

end

/-- Settles O17: whether a command is accepted is `cmd_ready` (`cmdReady_iff`, `cmdReady_of_unbounded`). -/
theorem fullBufferHoldsOffCommands : Obligations.FullBufferHoldsOffCommands := by
  unfold Obligations.FullBufferHoldsOffCommands
  refine ⟨fun s d hd hover => ?_, fun s d w rest hd hlzo hrsp hport => step_command hport ((cmdReady_iff hd).2 ⟨hlzo, hrsp⟩),
    fun s w rest hd hport => step_command hport (cmdReady_of_unbounded hd)⟩
  have hfull : s.cmdReady = false := by
    rw [← Bool.not_eq_true, cmdReady_iff hd]
    omega
  refine ⟨fun w rest hnext => ?_, fun ws rest hport => ?_, fun ws rest hport => ?_, fun ws rest hport => ?_,
    fun ws hport => step_only_commands hfull hport⟩
  · rw [hfull, nextEvent_waiting] at hnext
    exact splitOther_ne_command hnext
  · rw [step_behind_commands hfull (by simp) hport, serve, takeBeat, List.drop_one]
  · rw [step_behind_commands hfull (by simp) hport, serve, takeWord, List.drop_one]
  · rw [step_behind_commands hfull (by simp) hport, serve, resetBlock]

end Sys2Proof.Machine
end

section
/-! PROOFS. The packed bits the LZ unit has written decide what it sent and what its buffers hold, so its outputs do not depend on the
entries of `lz_blk` at and above `lz_bl` (93_implementation_defined.md U1, 10_state.md R31). -/

namespace Sys2Proof.Machine

/-! ### Two states that differ in unused entries -/

theorem LzUnit.SameUsed.refl (l : LzUnit) : l.SameUsed l := ⟨rfl, rfl⟩

theorem PqUnit.SameUsed.refl (q : PqUnit) : q.SameUsed q := ⟨rfl, rfl, fun _ _ => rfl, rfl, rfl⟩

theorem State.SameUsed.refl (s : State) : s.SameUsed s := ⟨rfl, rfl, .refl _, .refl _, rfl, rfl, rfl⟩

/-- Two LZ units that differ in unused entries hold back the same bits. -/
theorem LzUnit.SameUsed.pendingBits {l m : LzUnit} (h : l.SameUsed m) : l.pendingBits = m.pendingBits := by
  obtain ⟨v, rfl⟩ : ∃ v, m = { l with blk := v } := ⟨_, h.others.symm⟩
  rw [pendingBits_eq, pendingBits_eq, h.pending]

/-- `s` with another block buffer and another PQ unit. -/
abbrev State.refilled (s : State) (v : Vector Byte 255) (q : PqUnit) : State := { s with lz := { s.lz with blk := v }, pq := q }

/-- Of two states that differ in unused entries, the second is the first with other arrays. -/
theorem State.SameUsed.exists_eq {s s' : State} (h : s.SameUsed s') : ∃ v q, s' = s.refilled v q := by
  obtain ⟨hparams, herr, hlz, -, hlzo, hrsp, hport⟩ := h
  exact ⟨s'.lz.blk, s'.pq, by rw [State.refilled, hparams, herr, hlz.others, hlzo, hrsp, hport]⟩

theorem State.SameUsed.raise {s s' : State} (h : s.SameUsed s') (e : ErrKind) : (raise e s).SameUsed (raise e s') :=
  { h with err := congrArg (·.set e) h.err }

/-- The invariant does not speak of the block buffer's entries. -/
theorem LzInv.withBlk {p : Params} {l : LzUnit} (h : LzInv p l) (v : Vector Byte 255) : LzInv p { l with blk := v } :=
  { h with }

/-! ### The written bits decide the buffers -/

theorem flatMap_byteBits_inj {bs cs : List Byte} (h : bs.flatMap byteBits = cs.flatMap byteBits) : bs = cs := by
  have hpack := congrArg packBits h
  rwa [← List.append_nil (bs.flatMap _), ← List.append_nil (cs.flatMap _), packBits_bytes, packBits_bytes, packBits_nil,
    List.append_nil, List.append_nil] at hpack

/-- A bit stream is cut in one way only into full sub-blocks, the bytes of the block buffer and the bits of the bit buffer. -/
theorem buffers_unique {cs ds : List (List Byte)} {l m : LzUnit} (hcs : ∀ c ∈ cs, c.length = 255) (hds : ∀ d ∈ ds, d.length = 255)
    (hl : l.Buffered) (hm : m.Buffered)
    (h : cs.flatten.flatMap byteBits ++ l.pendingBits = ds.flatten.flatMap byteBits ++ m.pendingBits) :
    cs = ds ∧ l.pending = m.pending ∧ l.bl = m.bl ∧ l.acc = m.acc ∧ l.nb = m.nb := by
  have hlen := congrArg List.length h
  rw [List.length_append, List.length_append, length_flatMap_byteBits, length_flatMap_byteBits, length_flatten_full hcs,
    length_flatten_full hds, length_pendingBits hl, length_pendingBits hm] at hlen
  have hlnb := hl.nb
  have hmnb := hm.nb
  have hlbl := hl.bl
  have hmbl := hm.bl
  obtain ⟨hcount, hbl, hnb⟩ : cs.length = ds.length ∧ l.bl.toNat = m.bl.toNat ∧ l.nb.toNat = m.nb.toNat := by omega
  obtain ⟨hsent, hheld⟩ := List.append_inj h (by
    rw [length_flatMap_byteBits, length_flatMap_byteBits, length_flatten_full hcs, length_flatten_full hds, hcount])
  obtain ⟨hbytes, hbits⟩ := List.append_inj (pendingBits_eq l ▸ pendingBits_eq m ▸ hheld) (by
    rw [length_flatMap_byteBits, length_flatMap_byteBits, length_pending, length_pending, hbl])
  have hacc := congrArg numOfBits hbits
  rw [numOfBits_accBits hl.acc, numOfBits_accBits hm.acc] at hacc
  have hsizes : cs.map List.length = ds.map List.length := by
    rw [List.map_congr_left hcs, List.map_congr_left hds, List.map_const', List.map_const', hcount]
  exact ⟨List.eq_iff_flatten_eq.2 ⟨flatMap_byteBits_inj hsent, hsizes⟩, flatMap_byteBits_inj hbytes,
    BitVec.eq_of_toNat_eq hbl, BitVec.eq_of_toNat_eq hacc, BitVec.eq_of_toNat_eq hnb⟩

/-- Two states that differ in unused entries and write the same bits differ in unused entries afterwards, when the rest of the LZ unit
is equal. -/
theorem Writes.sameUsed {s s' t t' : State} {bits : List Bool} (hw : Writes s t bits) (hw' : Writes s' t' bits) (h : s.SameUsed s')
    (hrest : t'.lz = { t.lz with
      acc := t'.lz.acc, nb := t'.lz.nb, blk := t'.lz.blk, bl := t'.lz.bl, bytes := t'.lz.bytes }) : t.SameUsed t' := by
  obtain ⟨cs, hsent, hbits⟩ := hw.stream
  obtain ⟨ds, hsent', hbits'⟩ := hw'.stream
  rw [← h.lz.pendingBits, ← hbits] at hbits'
  obtain ⟨rfl, hpending, hbl, hacc, hnb⟩ := buffers_unique hsent.full hsent'.full hw.ranges hw'.ranges hbits'.symm
  have hbytes : t.lz.bytes = t'.lz.bytes := by
    rw [hsent.bytes, hsent'.bytes, congrArg LzUnit.bytes h.lz.others]
  have hlzo : t.lzo = t'.lzo := by rw [hsent.lzo, hsent'.lzo, h.lzo]
  obtain ⟨l, o, rfl⟩ : ∃ l o, t = { s with lz := l, lzo := o } := ⟨_, _, hw.frame⟩
  obtain ⟨l', o', rfl⟩ : ∃ l o, t' = { s' with lz := l, lzo := o } := ⟨_, _, hw'.frame⟩
  rw [← hacc, ← hnb, ← hbl, ← hbytes] at hrest
  exact { h with lz := ⟨hrest.symm, hpending⟩, lzo := hlzo }

/-! ### The LZ commands -/

/-- An empty block buffer has no entry in use. -/
theorem LzUnit.SameUsed.of_empty {l m : LzUnit} (h : { l with blk := m.blk } = m) (hbl : l.bl = 0) : l.SameUsed m := by
  obtain ⟨v, rfl⟩ : ∃ v, m = { l with blk := v } := ⟨_, h.symm⟩
  exact ⟨rfl, by simp [LzUnit.pending, hbl]⟩

theorem sameUsed_abortedState {s s' : State} (h : s.SameUsed s') : (abortedState s).SameUsed (abortedState s') := by
  obtain ⟨v, q, rfl⟩ := h.exists_eq
  exact { h with err := rfl, lz := .of_empty rfl rfl, lzo := rfl }

theorem sameUsed_headerSent {s s' : State} (h : s.SameUsed s') (k : BitVec 4) : (headerSent k s).SameUsed (headerSent k s') := by
  obtain ⟨v, q, rfl⟩ := h.exists_eq
  exact { h with lz := .of_empty rfl rfl, lzo := rfl }

theorem sameUsed_lzStart {s s' : State} (h : s.SameUsed s') (k : BitVec 4) : (lzStart k s).SameUsed (lzStart k s') := by
  have hsent := sameUsed_headerSent h k
  obtain ⟨v, q, rfl⟩ := h.exists_eq
  cases hact : s.lz.act with
  | true =>
    rw [lzStart_open hact, lzStart_open (s := s.refilled v q) hact]
    exact h.raise .cmd
  | false =>
    by_cases hk : 1 ≤ k.toNat ∧ k.toNat ≤ 8
    · have happ := lzStart_spec hact hk
      have happ' := lzStart_spec (s := s.refilled v q) hact hk
      have hsame := happ.same
      have hsame' := happ'.same
      unfold SameButBuffers at hsame hsame'
      refine happ.writes.sameUsed happ'.writes hsent ?_
      rw [hsame, hsame']
      rfl
    · rw [lzStart_illegal hact hk, lzStart_illegal (s := s.refilled v q) hact hk]
      exact h.raise .input

/-- Two states that differ in unused entries and consume an index alike, with the same table and width afterwards. -/
theorem Consumed.sameUsed {s s' t t' : State} {p : Code} {bits : List Bool} (hc : Consumed s p t) (hc' : Consumed s' p t')
    (h : s.SameUsed s') (hw : Writes s t bits) (hw' : Writes s' t' bits) (hn : t'.lz.n = t.lz.n) (hwidth : t'.lz.w = t.lz.w)
    (hdict : t'.lz.dict = t.lz.dict) : t.SameUsed t' := by
  refine hw.sameUsed hw' h ?_
  obtain ⟨v, q, rfl⟩ := h.exists_eq
  have hact : t'.lz.act = t.lz.act := hc'.act.trans hc.act.symm
  have hk : t'.lz.k = t.lz.k := hc'.k.trans hc.k.symm
  have hr : t'.lz.r = t.lz.r := hc'.r.trans hc.r.symm
  have hcount : t'.lz.count = t.lz.count := hc'.count.trans hc.count.symm
  dsimp only
  rw [← hact, ← hk, ← hr, ← hcount, ← hn, ← hwidth, ← hdict, hc.pv, hc.pfx, ← hc'.pv, ← hc'.pfx]

/-- An accepted index, in each of its cases (41_lzw_encoder.md R161). -/
theorem sameUsed_lzIndex_accepted {s s' : State} (h : s.SameUsed s') (hinv : LzInv s.params s.lz) (hact : s.lz.act = true)
    {x : Index} (hx : x.toNat < 2 ^ s.lz.k.toNat) : (lzIndex x s).SameUsed (lzIndex x s') := by
  have hmax := (hinv.nextRange hact).2
  obtain ⟨v, q, rfl⟩ := h.exists_eq
  have hinv' := hinv.withBlk v
  cases hpv : s.lz.pv with
  | false =>
    obtain ⟨hw, hc, hn, hwidth, hdict⟩ := lzIndex_first_spec hinv hact hx hpv
    obtain ⟨hw', hc', hn', hwidth', hdict'⟩ := lzIndex_first_spec (s := s.refilled v q) hinv' hact hx hpv
    exact hc.sameUsed hc' h hw hw' (hn'.trans hn.symm) (hwidth'.trans hwidth.symm) (hdict'.trans hdict.symm)
  | true =>
    cases hfind : dictFind s.lz.pfx x s.lz.dict with
    | some c =>
      obtain ⟨hw, hc, hn, hwidth, hdict⟩ := lzIndex_match_spec hinv hact hx hpv hfind
      obtain ⟨hw', hc', hn', hwidth', hdict'⟩ := lzIndex_match_spec (s := s.refilled v q) hinv' hact hx hpv hfind
      exact hc.sameUsed hc' h hw hw' (hn'.trans hn.symm) (hwidth'.trans hwidth.symm) (hdict'.trans hdict.symm)
    | none =>
      obtain hroom | hfull := Nat.lt_or_eq_of_le hmax
      · obtain ⟨hw, hc, hn, hwidth, hdict⟩ := lzIndex_room_spec hinv hact hx hpv hfind hroom
        obtain ⟨hw', hc', hn', hwidth', hdict'⟩ := lzIndex_room_spec (s := s.refilled v q) hinv' hact hx hpv hfind hroom
        exact hc.sameUsed hc' h hw hw' (BitVec.eq_of_toNat_eq (hn'.trans hn.symm))
          (BitVec.eq_of_toNat_eq (hwidth'.trans hwidth.symm)) (hdict'.trans hdict.symm)
      · obtain ⟨hw, hc, hn, hwidth, hdict⟩ := lzIndex_full_spec hinv hact hx hpv hfind hfull
        obtain ⟨hw', hc', hn', hwidth', hdict'⟩ := lzIndex_full_spec (s := s.refilled v q) hinv' hact hx hpv hfind hfull
        exact hc.sameUsed hc' h hw hw' (BitVec.eq_of_toNat_eq (hn'.trans hn.symm))
          (BitVec.eq_of_toNat_eq (hwidth'.trans hwidth.symm)) (hdict'.trans hdict.symm)

theorem sameUsed_lzIndex {s s' : State} (h : s.SameUsed s') (hinv : LzInv s.params s.lz) (x : Index) :
    (lzIndex x s).SameUsed (lzIndex x s') := by
  cases hact : s.lz.act with
  | true =>
    obtain hx | hx := Nat.lt_or_ge x.toNat (2 ^ s.lz.k.toNat)
    · exact sameUsed_lzIndex_accepted h hinv hact hx
    · have habort := sameUsed_abortedState h
      obtain ⟨v, q, rfl⟩ := h.exists_eq
      rwa [lzIndex_bad hact hx, lzIndex_bad (s := s.refilled v q) hact hx]
  | false =>
    have hraise := h.raise .cmd
    obtain ⟨v, q, rfl⟩ := h.exists_eq
    rwa [lzIndex_closed hact, lzIndex_closed (s := s.refilled v q) hact]

theorem sameUsed_lzFinish {s s' : State} (h : s.SameUsed s') (hinv : LzInv s.params s.lz) : (lzFinish s).SameUsed (lzFinish s') := by
  have hbits := h.lz.pendingBits
  have habort := sameUsed_abortedState h
  have hraise := h.raise .cmd
  obtain ⟨v, q, rfl⟩ := h.exists_eq
  cases hact : s.lz.act with
  | true =>
    cases hpv : s.lz.pv with
    | true =>
      obtain ⟨out, hout, hlzo, hbytes, hwidth, hframe⟩ := lzFinish_spec (.refl hinv.buffered) hinv hact hpv
      obtain ⟨out', hout', hlzo', hbytes', hwidth', hframe'⟩ :=
        lzFinish_spec (s := s.refilled v q) (.refl (hinv.withBlk v).buffered) (hinv.withBlk v) hact hpv
      obtain rfl : out = out' := by rw [hout, hout', hbits]
      rw [hframe, hframe', hlzo, hlzo', hbytes, hbytes', BitVec.eq_of_toNat_eq (hwidth.trans hwidth'.symm)]
      exact { h with lz := .of_empty rfl rfl, lzo := rfl }
    | false => rwa [lzFinish_empty hact hpv, lzFinish_empty (s := s.refilled v q) hact hpv]
  | false => rwa [lzFinish_closed hact, lzFinish_closed (s := s.refilled v q) hact]

end Sys2Proof.Machine
end

section
/-! PROOFS. The outputs of the PQ unit do not depend on the entries that its counts leave unused (93_implementation_defined.md U1,
10_state.md R35 to R37). -/

namespace Sys2Proof.Machine

section
variable {q u : PqUnit}

/-! ### The unit -/

/-- `q` with other arrays. -/
abbrev PqUnit.refilled (q : PqUnit) (ex rep : Vector Colour 256) (ord : Vector (BitVec 8) 256) (pal : Vector Colour 256) : PqUnit :=
  { q with ex := ex, rep := rep, ord := ord, pal := pal }

/-- Of two units that differ in unused entries, the second is the first with other arrays. -/
theorem PqUnit.SameUsed.exists_eq (h : q.SameUsed u) : ∃ ex rep ord pal, u = q.refilled ex rep ord pal :=
  ⟨_, _, _, _, h.others.symm⟩

/-- A new collection has no entry in use. -/
theorem PqUnit.SameUsed.begun (h : q.SameUsed u) : q.begun.SameUsed u.begun := by
  obtain ⟨ex, rep, ord, pal, rfl⟩ := h.exists_eq
  exact ⟨rfl, by simp, fun b hb => by simp at hb, by simp, by simp⟩

theorem PqUnit.SameUsed.idle (h : q.SameUsed u) : PqUnit.SameUsed { q with st := .idle } { u with st := .idle } := by
  obtain ⟨ex, rep, ord, pal, rfl⟩ := h.exists_eq
  exact { h with others := rfl }

theorem PqUnit.SameUsed.finishBuild (h : q.SameUsed u) : q.finishBuild.SameUsed u.finishBuild := by
  obtain ⟨ex, rep, ord, pal, rfl⟩ := h.exists_eq
  exact { h with others := rfl }

/-- Both units know the same colours, so both take a colour, skip it or overflow (40_palette_quantizer.md R107). -/
theorem PqUnit.SameUsed.collectColour (h : q.SameUsed u) (c : Colour) : (q.collectColour c).SameUsed (u.collectColour c) := by
  have hlist : (q.collectColour c).colours = (u.collectColour c).colours := by
    rw [colours_collectColour, colours_collectColour, h.colours, congrArg PqUnit.exn h.others]
  by_cases hmem : c ∈ q.colours
  · rwa [collectColour_of_mem hmem, collectColour_of_mem (h.colours ▸ hmem)]
  · have hmem' : c ∉ u.colours := h.colours ▸ hmem
    obtain ⟨ex, rep, ord, pal, rfl⟩ := h.exists_eq
    by_cases hroom : q.exn.toNat < 256
    · rw [collectColour_of_room hmem hroom, collectColour_of_room hmem' hroom] at hlist ⊢
      exact { h with others := rfl, colours := hlist }
    · rw [collectColour_of_full hmem hroom, collectColour_of_full hmem' hroom]
      exact { h with others := rfl }

/-- Both units have seen the same buckets, so both take a bucket, with the same representative, or skip it (40_palette_quantizer.md
R107). -/
theorem PqUnit.SameUsed.collectBucket (h : q.SameUsed u) (c : Colour) (hroom : ¬q.seenAt (bucket c) = true → q.bkn.toNat < 256) :
    (q.collectBucket c).SameUsed (u.collectBucket c) := by
  have hseenAt : u.seenAt = q.seenAt := by
    obtain ⟨ex, rep, ord, pal, rfl⟩ := h.exists_eq
    rfl
  have hbkn : u.bkn.toNat = q.bkn.toNat := by rw [congrArg PqUnit.bkn h.others]
  by_cases hseen : q.seenAt (bucket c) = true
  · rwa [collectBucket_of_seen hseen, collectBucket_of_seen (hseenAt ▸ hseen)]
  · have hseen' : ¬u.seenAt (bucket c) = true := hseenAt ▸ hseen
    have hlist : (q.collectBucket c).buckets = (u.collectBucket c).buckets := by
      rw [buckets_collectBucket c (hroom hseen), buckets_collectBucket c (hbkn ▸ hroom hseen), hseenAt, h.buckets]
    have hreps (b : BitVec 8) (hb : (q.collectBucket c).seenAt b = true) :
        (q.collectBucket c).repAt b = (u.collectBucket c).repAt b := by
      rw [seenAt_collectBucket] at hb
      rw [repAt_collectBucket, repAt_collectBucket, hseenAt]
      by_cases hbc : b = bucket c
      · simp [hbc, hseen]
      · rw [if_neg fun hnew => hbc hnew.1, if_neg fun hnew => hbc hnew.1]
        exact h.reps b (by rwa [if_neg hbc] at hb)
    rw [collectBucket_of_new hseen, collectBucket_of_new hseen'] at hlist hreps ⊢
    obtain ⟨ex, rep, ord, pal, rfl⟩ := h.exists_eq
    exact { h with others := rfl, reps := hreps, buckets := hlist }

/-- Both units collect a pixel alike (40_palette_quantizer.md R107). -/
theorem PqUnit.SameUsed.collected (h : q.SameUsed u) (hinv : PqInv q) (c : Colour) : (q.collected c).SameUsed (u.collected c) := by
  have hcounted : PqUnit.SameUsed { q with any := true, npix := q.npix + 1 } { u with any := true, npix := u.npix + 1 } := by
    obtain ⟨ex, rep, ord, pal, rfl⟩ := h.exists_eq
    exact { h with others := rfl }
  refine (hcounted.collectColour c).collectBucket c ?_
  rw [collectColour_eq]
  exact hinv.bucket_room

/-- Both units copy the same colours into the palette (40_palette_quantizer.md R109). -/
theorem PqUnit.SameUsed.exactPalette (h : q.SameUsed u) : q.exactPalette.SameUsed u.exactPalette := by
  have hentries : q.exactPalette.entries = u.exactPalette.entries := by
    rw [entries_exactPalette, entries_exactPalette, h.colours]
  rw [exactPalette_eq q, exactPalette_eq u] at hentries ⊢
  generalize q.exactPalette.pal = p at *
  generalize u.exactPalette.pal = p' at *
  obtain ⟨ex, rep, ord, pal, rfl⟩ := h.exists_eq
  exact { h with others := rfl, entries := hentries }

/-- Both units copy the representatives of the same seen buckets into the palette (40_palette_quantizer.md R110). -/
theorem PqUnit.SameUsed.quantizedPalette (h : q.SameUsed u) (hinv : PqInv q) : q.quantizedPalette.SameUsed u.quantizedPalette := by
  have hentries : q.quantizedPalette.entries = u.quantizedPalette.entries := by
    rw [entries_quantizedPalette, entries_quantizedPalette, ← h.buckets]
    exact List.map_congr_left fun b hb => h.reps b ((hinv.seenListed b).2 hb)
  rw [quantizedPalette_eq q, quantizedPalette_eq u] at hentries ⊢
  generalize q.quantizedPalette.pal = p at *
  generalize u.quantizedPalette.pal = p' at *
  obtain ⟨ex, rep, ord, pal, rfl⟩ := h.exists_eq
  exact { h with others := rfl, entries := hentries }

/-! ### The answers -/

/-- The response word of a build shows the counts and no entry (40_palette_quantizer.md R111). -/
theorem PqUnit.SameUsed.buildResponse (h : q.SameUsed u) : q.buildResponse = u.buildResponse := by
  obtain ⟨ex, rep, ord, pal, rfl⟩ := h.exists_eq
  rfl

/-- The first entry of a palette that has one is `pal[0]`. -/
theorem nearest_of_entries {e : Colour} {es : List Colour} (h : q.entries = e :: es) (c : Colour) :
    q.nearest c = nearestFrom c 0 (colourDist c e) 1 es := by
  have he : q.pal[0] = e := (entries_getElem?_eq_some_iff (j := 0).1 (by simp [h])).2
  rw [PqUnit.nearest, h, he, List.drop_one, List.tail_cons]

/-- The nearest entry is looked for among the entries in use (40_palette_quantizer.md R112). -/
theorem PqUnit.SameUsed.nearest (h : q.SameUsed u) (hone : 1 ≤ q.palN.toNat) (c : Colour) : q.nearest c = u.nearest c := by
  obtain ⟨e, es, hes⟩ := List.exists_cons_of_ne_nil (entries_ne_nil hone)
  rw [nearest_of_entries hes, nearest_of_entries (h.entries ▸ hes)]

/-- Only an entry in use is read (40_palette_quantizer.md R114). -/
theorem PqUnit.SameUsed.entryWord (h : q.SameUsed u) (x : Index) : q.entryWord x = u.entryWord x := by
  have hpalN : u.palN = q.palN := (congrArg PqUnit.palN h.others).symm
  unfold PqUnit.entryWord
  rw [hpalN]
  split
  · next hx =>
    have hentry : q.entries[x.toNat]? = some q.pal[x.toNat] := entries_getElem?_eq_some_iff (j := x.toFin).2 ⟨hx, rfl⟩
    rw [h.entries] at hentry
    exact congrArg (BitVec.setWidth 32) (entries_getElem?_eq_some_iff (j := x.toFin).1 hentry).2.symm
  · rfl

end
end Sys2Proof.Machine
end

section
/-! PROOFS. No output depends on the array entries that reset leaves unspecified (93_implementation_defined.md U1, 70_reset_and_hazards.md
R240): two states that differ in entries no rule reads stay so with every command, every rejected word and every other event. -/

namespace Sys2Proof.Machine

section
variable {s s' : State} (h : s.SameUsed s')
include h

/-! ### The answers -/

theorem State.SameUsed.respond (v : Word) : (respond v s).SameUsed (respond v s') :=
  { h with rsp := congrArg (· ++ [v]) h.rsp }

theorem State.SameUsed.respondFailure : (respondFailure s).SameUsed (respondFailure s') := h.respond Config.failureWord

/-- No register shows an array entry (10_state.md R40 to R55). -/
theorem State.SameUsed.regValue (r : RegName) : regValue s r = regValue s' r := by
  obtain ⟨v, q, rfl⟩ := h.exists_eq
  obtain ⟨ex, rep, ord, pal, rfl⟩ : ∃ ex rep ord pal, q = s.pq.refilled ex rep ord pal := h.pq.exists_eq
  cases r <;> rfl

theorem sameUsed_readRegister (n : BitVec 4) : (readRegister n s).SameUsed (readRegister n s') := by
  rw [readRegister, readRegister, h.regValue]
  exact h.respond _

theorem sameUsed_rejectWord (r : Reject) : (rejectWord r s).SameUsed (rejectWord r s') := by
  have hraised : State.SameUsed (if s.err.internal then s else raise .opcode s) (if s'.err.internal then s' else raise .opcode s') := by
    rw [h.err]
    split
    · exact h
    · exact h.raise .opcode
  unfold rejectWord
  simp only
  split
  · exact hraised.respondFailure
  · exact hraised

/-! ### The PQ commands -/

theorem State.SameUsed.phase : s'.pq.st = s.pq.st := by rw [← h.pq.others]

theorem sameUsed_keepPalette {q u : PqUnit} (hpq : q.SameUsed u) : (keepPalette q s).SameUsed (keepPalette u s') := by
  have hkept : State.SameUsed { s with pq := q.finishBuild } { s' with pq := u.finishBuild } := { h with pq := hpq.finishBuild }
  rw [keepPalette, keepPalette, hpq.finishBuild.buildResponse]
  exact hkept.respond _

theorem sameUsed_failBuild (e : ErrKind) : (failBuild e s).SameUsed (failBuild e s') :=
  State.SameUsed.respondFailure { h.raise e with pq := h.pq.idle }

theorem sameUsed_qPixel (hinv : PqInv s.pq) (c : Colour) : (qPixel c s).SameUsed (qPixel c s') := by
  unfold qPixel
  rw [h.phase]
  split
  · exact { h with pq := h.pq.collected hinv c }
  · exact h.raise .cmd

theorem sameUsed_qBuild (hinv : PqInv s.pq) (q : Bool) : (qBuild q s).SameUsed (qBuild q s') := by
  have hany : s'.pq.any = s.pq.any := by rw [← h.pq.others]
  have hovf : s'.pq.ovf = s.pq.ovf := by rw [← h.pq.others]
  unfold qBuild
  rw [h.phase, hany, hovf]
  split
  · split
    · split
      · split
        · exact sameUsed_keepPalette h (h.pq.quantizedPalette hinv)
        · exact sameUsed_failBuild h .palette
      · exact sameUsed_keepPalette h h.pq.exactPalette
    · exact sameUsed_failBuild h .input
  · exact (h.raise .cmd).respondFailure

theorem sameUsed_qMap (hinv : PqInv s.pq) (c : Colour) : (qMap c s).SameUsed (qMap c s') := by
  unfold qMap
  rw [h.phase]
  split
  · next hbuilt =>
    rw [h.pq.nearest (hinv.palNRange hbuilt).1]
    exact h.respond _
  · exact (h.raise .cmd).respondFailure

theorem sameUsed_qRdpal (x : Index) : (qRdpal x s).SameUsed (qRdpal x s') := by
  unfold qRdpal
  rw [h.phase, h.pq.entryWord]
  split
  · exact h.respond _
  · exact (h.raise .cmd).respondFailure

/-! ### One command, one word, one step -/

/-- Every command, in a state that meets the invariant. -/
theorem exec_sameUsed (hinv : s.Inv) {i : Instr} {t t' : State} (ht : exec i s = .next t) (ht' : exec i s' = .next t') :
    t.SameUsed t' := by
  have hgate : s.err.internal = s'.err.internal := by rw [h.err]
  cases i <;> obtain rfl := Host.Outcome.next.inj ht <;> obtain rfl := Host.Outcome.next.inj ht'
  case nop => exact h
  case lzStart k => exact unlessHalted_related hgate h (sameUsed_lzStart h k)
  case lzIndex x => exact unlessHalted_related hgate h (sameUsed_lzIndex h hinv.lzInv x)
  case lzFinish => exact unlessHalted_related hgate h (sameUsed_lzFinish h hinv.lzInv)
  case qBegin => exact unlessHalted_related hgate h { h with pq := h.pq.begun }
  case qPixel c => exact unlessHalted_related hgate h (sameUsed_qPixel h hinv.pqInv c)
  case qBuild q => exact unlessHalted_related hgate h.respondFailure (sameUsed_qBuild h hinv.pqInv q)
  case qMap c => exact unlessHalted_related hgate h.respondFailure (sameUsed_qMap h hinv.pqInv c)
  case qRdpal x => exact unlessHalted_related hgate h.respondFailure (sameUsed_qRdpal h x)
  case rdreg n => exact unlessHalted_related hgate (sameUsed_readRegister h n) (sameUsed_readRegister h n)
  case clrerr => exact unlessHalted_related hgate h { h with err := congrArg ErrBits.clearRecoverable h.err }

/-- Every accepted word, in a state that meets the invariant. -/
theorem acceptWord_sameUsed (hinv : s.Inv) (w : Word) :
    ∃ t t', acceptWord w s = .next t ∧ acceptWord w s' = .next t' ∧ t.SameUsed t' := by
  cases hd : decode w with
  | command i =>
    obtain ⟨t, ht⟩ := exec_next i s
    obtain ⟨t', ht'⟩ := exec_next i s'
    exact ⟨t, t', (acceptWord_command hd s).trans ht, (acceptWord_command hd s').trans ht', exec_sameUsed h hinv ht ht'⟩
  | reject r => exact ⟨_, _, acceptWord_reject hd s, acceptWord_reject hd s', sameUsed_rejectWord h r⟩

/-- Every event of the host's, in a state that meets the invariant. -/
theorem serve_sameUsed (hinv : s.Inv) (e : HostEvent) : ∃ t t', serve e s = .next t ∧ serve e s' = .next t' ∧ t.SameUsed t' := by
  cases e with
  | command w => exact acceptWord_sameUsed h hinv w
  | takeBeat => exact ⟨_, _, rfl, rfl, { h with lzo := congrArg (List.drop 1) h.lzo }⟩
  | takeWord => exact ⟨_, _, rfl, rfl, { h with rsp := congrArg (List.drop 1) h.rsp }⟩
  | resetEdge =>
    have hreset : resetBlock s = resetBlock s' := by rw [resetBlock, resetBlock, h.params, h.port]
    exact ⟨_, _, rfl, rfl, hreset ▸ .refl _⟩

end

/-- Settles O54: both states have the same next event, and serve it alike (`serve_sameUsed`). -/
theorem unspecifiedEntriesAreNeverSeen : Obligations.UnspecifiedEntriesAreNeverSeen := by
  unfold Obligations.UnspecifiedEntriesAreNeverSeen
  intro s s' hinv h
  have hsame : nextEvent s'.cmdReady s'.port = nextEvent s.cmdReady s.port := by
    rw [State.cmdReady, State.cmdReady, h.params, h.lzo, h.rsp, h.port]
  cases hnext : nextEvent s.cmdReady s.port with
  | none => exact ⟨s, s', step_of_no_event hnext, step_of_no_event (hsame.trans hnext), h⟩
  | some served =>
    obtain ⟨e, es⟩ := served
    rw [step_of_nextEvent hnext, step_of_nextEvent (hsame.trans hnext)]
    have hrest : State.SameUsed { s with port := es } { s' with port := es } := { h with port := rfl }
    exact serve_sameUsed hrest (hinv.congr rfl rfl rfl rfl) e

end Sys2Proof.Machine
end

section
/-! PROOFS. A host that sends one frame from a clean state and drains it (70_reset_and_hazards.md R244, R256): the commands accepted
one per step do what `runInstrs` does, and the beats taken are those of the frame. -/

namespace Sys2Proof.Machine

/-! ### What the host does next does not matter to a command -/

/-- The error bits after a command that does not halt the block: the error of its phase or its value, if any (60_exceptions.md R216). -/
theorem exec_err {i : Instr} {s t : State} (hs : s.running) (hclr : i ≠ .clrerr) (h : exec i s = .next t) (ht : t.running) :
    t.err = if legalPhase i s then ((valueError i s).map s.err.set).getD s.err else s.err.set .cmd := by
  cases hphase : legalPhase i s with
  | false =>
    obtain rfl := Host.Outcome.next.inj ((exec_of_illegalPhase hs hphase).symm.trans h)
    cases i.opcode.responds <;> rfl
  | true =>
    obtain ⟨u, hu, hrecords⟩ := exec_of_legalPhase hs hclr hphase
    obtain rfl := Host.Outcome.next.inj (hu.symm.trans h)
    cases hvalue : valueError i s with
    | none =>
      rw [hvalue] at hrecords
      exact AtMostHalts.err_of_running hrecords ht
    | some e =>
      rw [hvalue] at hrecords
      exact hrecords

/-- An LZ command that cannot halt the block does not depend on what the host does next (20_memory.md R73). -/
theorem exec_port {i : Instr} {s t : State} (hi : i.isLz = true) (hs : CannotHalt s) (h : exec i s = .next t)
    (es : List HostEvent) : exec i { s with port := es } = .next { t with port := es } := by
  obtain ⟨t', ht'⟩ := exec_next i { s with port := es }
  have hs' : CannotHalt { s with port := es } := hs.congr ⟨rfl, rfl, rfl⟩ hs.running
  have hclr : i ≠ .clrerr := by
    rintro rfl
    cases hi
  have hagree : LzAgree t t' := exec_lzAgree (s := s) (s' := { s with port := es }) hi rfl ⟨rfl, rfl, rfl⟩ h ht'
  have herr : t'.err = t.err := (exec_err hs'.running hclr ht' (exec_cannotHalt hi hs' ht').running).trans
    (exec_err hs.running hclr h (exec_cannotHalt hi hs h).running).symm
  have hframe := (exec_lzSide hi h).frame
  have hframe' := (exec_lzSide hi ht').frame
  rw [ht', hframe', herr, ← hagree.lz, ← hagree.lzo, hframe]

/-- Only `LZ_START` opens a frame. -/
theorem exec_opens_nothing {i : Instr} {s t : State} (hi : ∀ k, i ≠ .lzStart k) (h : exec i s = .next t) (hact : s.lz.act = false) :
    t.lz.act = false := by
  by_cases hlz : i.isLz = true
  · cases i <;> cases hlz <;> obtain rfl := Host.Outcome.next.inj h
    case lzStart.refl k => exact absurd rfl (hi k)
    case lzIndex.refl x =>
      exact unlessHalted_of (P := fun u => u.lz.act = false) hact (by rwa [lzIndex_closed hact])
    case lzFinish.refl =>
      exact unlessHalted_of (P := fun u => u.lz.act = false) hact (by rwa [lzFinish_closed hact])
  · rwa [← (exec_other (by simpa using hlz) h).1.lz]

/-! ### The record of commands and of takes -/

/-- The events of a host that offers the words of commands. -/
def offers (is : List Instr) : List HostEvent := is.map fun i => .command (encode i)

/-- With unbounded streams, a command offered next is executed, and the host takes nothing in that step. -/
theorem record_command {i : Instr} {s t : State} {es : List HostEvent} (hdepth : s.params.outDepth = none)
    (h : exec i { s with port := es } = .next t) (n : Nat) :
    record (n + 1) { s with port := .command (encode i) :: es } =
      (record n t).map fun r => { r with opened := (if !s.lz.act && t.lz.act then 1 else 0) + r.opened } := by
  have hready : State.cmdReady { s with port := .command (encode i) :: es } = true := cmdReady_of_unbounded hdepth
  have hstep : step { s with port := .command (encode i) :: es } = .next t :=
    (step_command rfl hready).trans ((acceptWord_command (decodeOfEncodeIsTheCommand i) _).trans h)
  simp only [record, hstep, State.beatTaken, State.wordTaken, hready, nextEvent_ready_command, List.nil_append]

/-- The commands of a frame behind its `LZ_START` leave what `runInstrs` says, take nothing and open no frame. -/
theorem record_offers {is : List Instr} (his : ∀ i ∈ is, i.isLz = true ∧ ∀ k, i ≠ .lzStart k) {s t : State} (hs : CannotHalt s)
    (hdepth : s.params.outDepth = none) (hrun : runInstrs is s = .next t) (es : List HostEvent) (n : Nat) :
    record (is.length + n) { s with port := offers is ++ es } = record n { t with port := es } := by
  induction is generalizing s with
  | nil =>
    obtain rfl := Host.Outcome.next.inj hrun
    rw [List.length_nil, Nat.zero_add]
    rfl
  | cons i is ih =>
    obtain ⟨⟨hlz, hstart⟩, his⟩ := List.forall_mem_cons.1 his
    obtain ⟨u, hu⟩ := exec_next i s
    rw [runInstrs_cons_of_next hu] at hrun
    have hopened : (!s.lz.act && u.lz.act) = false := by
      cases hact : s.lz.act with
      | true => rfl
      | false => exact exec_opens_nothing hstart hu hact
    have hparams : u.params.outDepth = none := by rwa [exec_params hu]
    rw [List.length_cons, Nat.add_right_comm, ← ih his (exec_cannotHalt hlz hs hu) hparams hrun]
    refine (record_command hdepth (exec_port hlz hs hu (offers is ++ es)) _).trans ?_
    simp [hopened]

/-- A frame's commands, sent one after the other, leave what `runInstrs` says, take nothing and open one frame. -/
theorem record_frame {s t : State} (hs : s.running) (hact : s.lz.act = false) (hdepth : s.params.outDepth = none) {k : BitVec 4}
    (hk : 1 ≤ k.toNat ∧ k.toNat ≤ 8) {xs : List Index} (hrun : runInstrs (frameInstrs k xs) s = .next t) (es : List HostEvent)
    (n : Nat) : record ((frameInstrs k xs).length + n) { s with port := offers (frameInstrs k xs) ++ es } =
      (record n { t with port := es }).map fun r => { r with opened := 1 + r.opened } := by
  have hcan : CannotHalt s := .inr ⟨hs, hact⟩
  have hstart := exec_lzStart_running hs k
  have hopened : (lzStart k s).lz.act = true := (lzStart_spec hact hk).same.lz_act
  have hparams : (lzStart k s).params.outDepth = none := by rwa [exec_params hstart]
  have hrest : ∀ i ∈ xs.map Instr.lzIndex ++ [.lzFinish], i.isLz = true ∧ ∀ k, i ≠ .lzStart k := by
    intro i hi
    obtain hi | hi := List.mem_append.1 hi
    · obtain ⟨x, -, rfl⟩ := List.mem_map.1 hi
      exact ⟨rfl, nofun⟩
    · obtain rfl := List.mem_singleton.1 hi
      exact ⟨rfl, nofun⟩
  rw [frameInstrs, runInstrs_cons_of_next hstart] at hrun
  rw [frameInstrs, List.length_cons, Nat.add_right_comm,
    ← record_offers hrest (exec_cannotHalt rfl hcan hstart) hparams hrun es n]
  refine (record_command hdepth (exec_port rfl hcan hstart _) _).trans ?_
  rw [hact, hopened]
  rfl

/-- A host that takes as many beats as wait takes them all, in order. -/
theorem record_takeBeats (bs : List Beat) (s : State) :
    record bs.length { s with lzo := bs, port := List.replicate bs.length .takeBeat } =
      some { beats := bs, words := [], opened := 0, final := { s with lzo := [], port := [] } } := by
  induction bs generalizing s with
  | nil => rfl
  | cons b bs ih =>
    have hstep : step { s with lzo := b :: bs, port := List.replicate (bs.length + 1) .takeBeat } =
        .next { s with lzo := bs, port := List.replicate bs.length .takeBeat } := rfl
    have hbeat : State.beatTaken { s with lzo := b :: bs, port := List.replicate (bs.length + 1) .takeBeat } = [b] := rfl
    have hword : State.wordTaken { s with lzo := b :: bs, port := List.replicate (bs.length + 1) .takeBeat } = [] := rfl
    simp [record, hstep, hbeat, hword, ih]

/-- A frame sends one final beat, and none that aborts (41_lzw_encoder.md R157). -/
theorem frameBeats_final (m : MinRoot) (k : Nat) (xs : List Nat) :
    (∀ b ∈ frameBeats m k xs, b.abort = false) ∧
      ((frameBeats m k xs).filter fun b => b.last && !b.abort).length = 1 := by
  rw [frameBeats_eq]
  refine ⟨List.forall_mem_cons.2 ⟨rfl, List.forall_mem_append.2 ⟨List.forall_mem_map.2 fun _ _ => rfl, ?_⟩⟩, ?_⟩
  · exact List.forall_mem_singleton.2 rfl
  · simp [List.filter_map, Function.comp_def, dataBeat, terminatorBeat]

/-- What a clean state is, field by field (70_reset_and_hazards.md R244). -/
theorem clean_iff (s : State) :
    s.clean = true ↔ s.err.any = false ∧ s.lz.act = false ∧ s.pq.st = .idle ∧ s.lzo = [] ∧ s.rsp = [] := by
  simp [State.clean, and_assoc]

/-- With no error bit set the block is not halted. -/
theorem running_of_no_error {s : State} (h : s.err.any = false) : s.running :=
  Bool.eq_false_iff.2 fun hhalted => by simp [ErrBits.any, hhalted] at h

/-- Settles O59: the commands leave the beats of the frame in a stream that was empty (`record_frame`, `frameAppendsFrameBeats`), and
the host takes them all (`record_takeBeats`). -/
theorem drainedFrameRunIsSuccessful : Obligations.DrainedFrameRunIsSuccessful := by
  unfold Obligations.DrainedFrameRunIsSuccessful
  intro s k xs hclean hdepth hk1 hk8 hne hxs hport
  obtain ⟨herr, hact, -, hlzo, hrsp⟩ := (clean_iff s).1 hclean
  have hs : s.running := running_of_no_error herr
  obtain ⟨t, hrun, hframe, hclosed, -⟩ := frameAppendsFrameBeats s k xs hs hact hk1 hk8 hne hxs
  obtain ⟨hnoabort, hfinal⟩ := frameBeats_final s.params.minRoot k.toNat (xs.map BitVec.toNat)
  rw [hlzo, List.nil_append] at hframe
  generalize frameBeats s.params.minRoot k.toNat (xs.map BitVec.toNat) = beats at *
  obtain ⟨l, rfl⟩ : ∃ l, t = { s with lz := l, lzo := beats } := ⟨_, hframe⟩
  have hrecord := record_frame hs hact hdepth ⟨hk1, hk8⟩ hrun (List.replicate beats.length .takeBeat) beats.length
  have hself : { s with port := offers (frameInstrs k xs) ++ List.replicate beats.length .takeBeat } = s := by
    rw [offers, ← hport]
  have hlength : s.port.length = (frameInstrs k xs).length + beats.length := by
    rw [hport, List.length_append, List.length_map, List.length_replicate]
  rw [hself, ← hlength, record_takeBeats beats { s with lz := l }] at hrecord
  refine ⟨_, hrecord, ?_, rfl, rfl⟩
  have hl : l.act = false := hclosed
  simpa [RunRecord.successful, RunRecord.ended, hrsp, herr, hl, hfinal] using hnoabort

end Sys2Proof.Machine
end
